-- ==== Sys2Proof/Word.lean ====
section
/-! DEFINITION. The two word types of ASCON CORE (spec 00_scope.md R11, R12): bytes and 64-bit words.
Every bit-field and byte-order helper lives in Sys2Proof/Machine/Bytes.lean. -/

namespace Sys2Proof

/-- A byte of a byte sequence (00_scope.md R12). -/
abbrev Byte := BitVec 8

/-- A state word: an unsigned 64-bit value, bit 63 the most significant (00_scope.md R5, R11). -/
abbrev Word := BitVec 64

end Sys2Proof
end

