-- ==== Sys2Proof/Config.lean ====
section
/-! DEFINITION. What an implementation fixes (00_scope.md R10) and the one family of free values the spec
leaves open (10_state.md R43, 93_implementation_defined.md P1). -/

namespace Sys2Proof

/-- The five byte-addressed spaces (20_memory.md R60). The word-addressed space `S` is `Machine.Words5`. -/
inductive Space where
  | key | nonce | ad | din | dout
deriving DecidableEq, Repr

/-- The buffer capacities `AD_CAP`, `DIN_CAP`, `DOUT_CAP` in bytes (00_scope.md R10). They are "named arguments of
the model": a field of the state that no step changes, so that a statement about every state is one about
every implementation (DESIGN CHOICE, log 5; safe). -/
structure Capacities where
  ad : Nat
  din : Nat
  dout : Nat
deriving DecidableEq, Repr

/-- The only constraints on the capacities (00_scope.md R10). -/
abbrev Capacities.Legal (c : Capacities) : Prop :=
  c.din + 16 ≤ c.dout ∧ 32 ≤ c.dout ∧ c.ad < 2 ^ 32 - 16 ∧ c.din < 2 ^ 32 - 16 ∧ c.dout < 2 ^ 32 - 16

/-- The largest capacities R10 allows: what `State.reset` carries. DESIGN CHOICE (log 5), unsafe for a
statement that rests on the numbers; none does. -/
def Capacities.largest : Capacities := ⟨2 ^ 32 - 17, 2 ^ 32 - 33, 2 ^ 32 - 17⟩

/-- FREE VALUE (10_state.md R43, R62; 92_eei_decisions.md D20): the byte that index `index` of a buffer holds as
long as nothing has written it since the `epoch`-th reset. It has no body: nothing can be proved of its value. DESIGN CHOICE
(log 3), safe. -/
opaque Config.unwrittenByte (epoch : Nat) (space : Space) (index : Nat) : BitVec 8

end Sys2Proof
end

