-- ==== Sys2Proof/Syntax.lean ====
section
/-! DEFINITION. The commands of ASCON CORE as syntax: one constructor per row of the opcode table (30_encoding.md R94),
and the closed enumerations of variants and rates. -/

namespace Sys2Proof

/-- The rate is 8 or 16 bytes and nothing else (00_scope.md R6). -/
inductive Rate where
  | r8 | r16
deriving DecidableEq, Repr

/-- The AEAD variants (00_scope.md R2, R8). -/
inductive AeadVariant where
  | ascon128 | ascon128a | ascon80pq
deriving DecidableEq, Repr

/-- The hash and extendable-output variants (00_scope.md R2, R9). -/
inductive HashVariant where
  | hash | hasha | xof | xofa
deriving DecidableEq, Repr

/-- A command byte with one of the four assigned `OP` values (30_encoding.md R91, R94). The `ARG` field is kept
raw: a byte such as 0x13 is still `ENCRYPT`, and raises that command's own error (R96). -/
inductive Instr where
  /-- `ENCRYPT v`, `0001vvvv` (41_aead.md R150). -/
  | encrypt (arg : BitVec 4)
  /-- `DECRYPT v`, `0010vvvv` (41_aead.md R151). -/
  | decrypt (arg : BitVec 4)
  /-- `HASH v`, `0011vvvv` (42_hash_xof.md R200). -/
  | hash (arg : BitVec 4)
  /-- `PERMUTE n`, `0100nnnn` (40_permutation.md R128). -/
  | permute (n : BitVec 4)
deriving DecidableEq, Repr

end Sys2Proof
end

