-- ==== Sys2Proof/WellFormed.lean ====
section
/-! DEFINITION. Which commands carry a legal `ARG` (30_encoding.md R91, column "legal ARG"). An ill-formed command is
not undefined: it decodes, and it raises the error R96 names. -/

namespace Sys2Proof

/-- The command's `ARG` is legal: 0..2 for the AEAD commands, 0..3 for `HASH`, 1..12 for `PERMUTE`
(30_encoding.md R91, R94 column "bytes that run"). -/
def Instr.wellFormed : Instr → Bool
  | .encrypt arg => arg.toNat ≤ 2
  | .decrypt arg => arg.toNat ≤ 2
  | .hash arg => arg.toNat ≤ 3
  | .permute n => 1 ≤ n.toNat && n.toNat ≤ 12

end Sys2Proof
end

