-- ==== Sys2Proof/Decode.lean ====
section
/-! DEFINITION. The decoder of the command byte (30_encoding.md R90, R91, R94, R95), total on any bytes and rejecting by
name, and after it the encoder written from the same table. -/

namespace Sys2Proof

/-- Why a byte string is no command. -/
inductive DecodeError where
  /-- There is no byte to decode. -/
  | noByte
  /-- `OP` is 0 or 5..15: reserved, selects no operation (30_encoding.md R95). The machine completes such a
  command with `IllegalCommand`. -/
  | reservedOp (op : BitVec 4)
deriving DecidableEq, Repr

/-- What the decoder answers: a command and the bytes after it, or a rejection by name. -/
inductive Decoded where
  | command (i : Instr) (rest : List Byte)
  | rejected (why : DecodeError)
deriving DecidableEq, Repr

/-- `CMD[7:4]` (30_encoding.md R90). -/
def opField (b : Byte) : BitVec 4 := b.extractLsb' 4 4

/-- `CMD[3:0]` (30_encoding.md R90). -/
def argField (b : Byte) : BitVec 4 := b.extractLsb' 0 4

/-- The command a byte selects, if any (30_encoding.md R91, R94, R95). -/
def decodeByte (b : Byte) : Option Instr :=
  if opField b = 1#4 then some (.encrypt (argField b))
  else if opField b = 2#4 then some (.decrypt (argField b))
  else if opField b = 3#4 then some (.hash (argField b))
  else if opField b = 4#4 then some (.permute (argField b))
  else none

/-- Every command is one byte; there is one format and no prefix (30_encoding.md R90). -/
def decode : List Byte → Decoded
  | [] => .rejected .noByte
  | b :: rest =>
    match decodeByte b with
    | some i => .command i rest
    | none => .rejected (.reservedOp (opField b))

/-- The `OP` value of a command (30_encoding.md R91). -/
def opCode : Instr → BitVec 4
  | .encrypt _ => 0x1#4
  | .decrypt _ => 0x2#4
  | .hash _ => 0x3#4
  | .permute _ => 0x4#4

/-- The `ARG` value of a command (30_encoding.md R91). -/
def argCode : Instr → BitVec 4
  | .encrypt arg => arg
  | .decrypt arg => arg
  | .hash arg => arg
  | .permute n => n

/-- The command byte: `OP` in bits 7:4, `ARG` in bits 3:0 (30_encoding.md R90, R94). -/
def encodeByte (i : Instr) : Byte := opCode i ++ argCode i

/-- The bytes of a command (30_encoding.md R90). -/
def encode (i : Instr) : List Byte := [encodeByte i]

/-- The bytes of a table row's word: bits 7..0 are the first byte, later bytes follow. A row shorter than one byte is
filled up with zeros. -/
def tableBytes (nbits w : Nat) : List Byte :=
  (List.range (max 1 (nbits / 8))).map fun k => BitVec.ofNat 8 (w % 2 ^ nbits / 2 ^ (8 * k))

/-- What the decoder reads from a row of spec/opcode_table.json whose bits are `w`. -/
def decodeTableWord (nbits w : Nat) : Option Instr :=
  match decode (tableBytes nbits w) with
  | .command i [] => some i
  | .command _ (_ :: _) => none
  | .rejected _ => none

end Sys2Proof
end

