-- ==== Sys2Proof/Machine/State.lean ====
section
/-! DEFINITION. The state of ASCON CORE and of the host that drives it (10_state.md), as plain data, with its value after
reset (10_state.md R43), the errors of the block (60_exceptions.md R231) and the stops of the model. -/

namespace Sys2Proof.Machine

/-- The five state words `S[0]`..`S[4]` (10_state.md R21). -/
structure Words5 where
  s0 : Word
  s1 : Word
  s2 : Word
  s3 : Word
  s4 : Word
deriving DecidableEq, Repr

/-- The internal phase register, named after the source's state machine (10_state.md R40). -/
inductive Phase where
  | uninitialized | initialized | absorbingAD | absorbingMessage | duplexing | squeezing | finalized
deriving DecidableEq, Repr

/-- The errors of the block, codes 1 to 10 in this order (60_exceptions.md R231). They are reported in
`STATUS.ERR`; a command that raises one answers a next state. -/
inductive ErrorKind where
  | invalidVariant
  | invalidHashVariant
  | invalidKeyLength
  | invalidNonceLength
  | invalidHashLength
  | ciphertextTooShort
  | authenticationFailed
  | illegalCommand
  | invalidRounds
  | lengthExceedsCapacity
deriving DecidableEq, Repr

/-- A byte buffer: the written bytes with their indices, strictly rising. An index that is not listed has not been
written since reset. -/
abbrev Memory := List Host.Cell

/-- Which way the duplexer runs (41_aead.md R157, R159). -/
inductive Direction where
  | encrypt | decrypt
deriving DecidableEq, Repr

/-- The next thing an AEAD command in progress does between two permutations (41_aead.md R150, R151). -/
inductive AeadStage where
  /-- Load the 40-byte buffer, start `P(S, a)` (R153). -/
  | load
  /-- XOR the key into the end of the state (R154). -/
  | keyXor
  /-- Absorb associated-data block `blockIdx`, if there is one (R155). -/
  | absorb
  /-- Flip the domain-separation bit (R156). -/
  | domain
  /-- Duplex data block `blockIdx` (R157 to R162). -/
  | duplex
  /-- Inject the key, start `P(S, a)` (R164). -/
  | inject
  /-- Make the candidate tag (R165). -/
  | tag
  /-- `phase <- Finalized`, store the tag, or verify it, and complete (R40, R166, R167). -/
  | finish
deriving DecidableEq, Repr

/-- The next thing a `HASH` in progress does between two permutations (42_hash_xof.md R200). -/
inductive HashStage where
  /-- Load the 40-byte buffer, start `P(S, a)` (R201). -/
  | load
  /-- The initializer has finished (R202). -/
  | ready
  /-- Absorb message block `blockIdx` (R203). -/
  | absorb
  /-- Emit output block `blockIdx`, if one is still wanted (R204). -/
  | squeeze
  /-- The digest is complete (R200). -/
  | finish
deriving DecidableEq, Repr

/-- The command in progress, past its validation. -/
inductive Task where
  | aead (dir : Direction) (v : AeadVariant) (stage : AeadStage)
  | hash (v : HashVariant) (stage : HashStage)
  | permute
deriving DecidableEq, Repr

/-- A command in progress: its task, and whether a permutation is under way (round index `roundIdx` next). -/
structure Job where
  task : Task
  permuting : Bool
deriving DecidableEq, Repr

/-- The 8-bit control and status registers (10_state.md section 4). -/
inductive Reg8 where
  | cmd | status | klen | nlen
deriving DecidableEq, Repr

/-- The 32-bit control and status registers (10_state.md section 4). -/
inductive Reg32 where
  | adlen | dlen | hlen | olen
deriving DecidableEq, Repr

/-- One action of the host: a line of a host script (30_encoding.md R97), or the access to one byte as
(space, index) (20_memory.md R61). -/
inductive HostAction where
  /-- `WR` to an 8-bit register. To `CMD` it is the same as `command`. -/
  | wr8 (r : Reg8) (v : BitVec 8)
  /-- `WR` to a 32-bit register. -/
  | wr32 (r : Reg32) (v : BitVec 32)
  /-- `WR` to the state word `S[i]`. -/
  | wrWord (i : Fin 5) (v : Word)
  /-- A write of one byte. -/
  | wrByte (sp : Space) (index : Nat) (v : Byte)
  /-- `WRB`: a write of bytes starting at index 0. -/
  | wrBytes (sp : Space) (bs : List Byte)
  /-- A write of `CMD`, the command run as one atomic step (10_state.md R20). -/
  | command (b : Byte)
  /-- The same write of `CMD`, the command run one block action a step (10_state.md R20; log 1). -/
  | begin (b : Byte)
  /-- `WAIT`: read `STATUS` until `DONE = 1`. -/
  | wait
  /-- `RD` of an 8-bit register. -/
  | rd8 (r : Reg8)
  /-- `RD` of a 32-bit register. -/
  | rd32 (r : Reg32)
  /-- `RD` of the state word `S[i]`. -/
  | rdWord (i : Fin 5)
  /-- A read of one byte. -/
  | rdByte (sp : Space) (index : Nat)
  /-- `RDB`: a read of the first `n` bytes. -/
  | rdBytes (sp : Space) (n : Nat)
  /-- The last line of a pseudo-operation (R98): `RDB DOUT, OLEN` when `ERR = 0`, else the error report (while
  `BUSY = 1`: log 15). -/
  | rdResult
deriving DecidableEq, Repr

/-- What can happen next: the host acts, the block makes a move of its own, or reset is asserted (10_state.md R20,
70_reset_and_hazards.md R270). -/
inductive Event where
  | host (a : HostAction)
  | block
  | reset
deriving DecidableEq, Repr

/-- What a host read returned. -/
inductive Observation where
  | reg8 (r : Reg8) (v : BitVec 8)
  | reg32 (r : Reg32) (v : BitVec 32)
  | word (i : Fin 5) (v : Word)
  | bytes (sp : Space) (start : Nat) (bs : List Byte)
deriving DecidableEq, Repr

/-- The machine: the block's state (10_state.md), the command in progress, and the host that drives it. -/
structure State where
  /-- The state words (R21). -/
  S : Words5
  /-- `KEY` (R25). -/
  key : Vector Byte 20
  /-- `NONCE` (R26). -/
  nonce : Vector Byte 16
  /-- `CMD` (R28). -/
  cmd : BitVec 8
  /-- `STATUS` (R29); its fields are read by `State.busy`, `State.done`, `State.err`. -/
  status : BitVec 8
  /-- `KLEN` (R30). -/
  klen : BitVec 8
  /-- `NLEN` (R31). -/
  nlen : BitVec 8
  /-- `ADLEN` (R32). -/
  adlen : BitVec 32
  /-- `DLEN` (R33). -/
  dlen : BitVec 32
  /-- `HLEN` (R34). -/
  hlen : BitVec 32
  /-- `OLEN` (R35). -/
  olen : BitVec 32
  /-- `AD` (R36). -/
  ad : Memory
  /-- `DIN` (R36). -/
  din : Memory
  /-- `DOUT` (R36). -/
  dout : Memory
  /-- `phase` (R40). -/
  phase : Phase
  /-- `tagc`, the candidate tag (R42). -/
  tagc : Vector Byte 16
  /-- The round index (R41). -/
  roundIdx : Nat
  /-- The block index of the running loop (R41). -/
  blockIdx : Nat
  /-- The count of output bytes produced (R41). -/
  outCount : Nat
  /-- MODEL'S OWN: the command in progress while `BUSY = 1` (log 9). -/
  job : Option Job
  /-- MODEL'S OWN: the implementation's capacities (00_scope.md R10; log 5). -/
  caps : Capacities
  /-- MODEL'S OWN: how many resets there have been, the counter the draws of unwritten bytes depend on (log 4). -/
  epoch : Nat
  /-- MODEL'S OWN: the events still to come, oldest first (log 2). -/
  agenda : List Event
  /-- MODEL'S OWN: what the host has read, newest first (log 12). -/
  observed : List Observation
deriving DecidableEq, Repr

/-- Why the machine stops. No command raises one: the errors of the block are next states (60_exceptions.md R236). -/
inductive Fault where
  /-- Raised by a host access to one byte, or by a host read of bytes, at an index that the space does not have
  (20_memory.md R60, column "size"). Safe: the model stops where the spec names no byte (log 6). -/
  | noSuchByte (sp : Space) (index : Nat)
deriving DecidableEq, Repr

/-- Why an instruction has no meaning. -/
inductive Refusal where
  /-- Raised only by an arm of `exec` whose instruction has no meaning yet; there is none left. Safe. -/
  | notModelled (mnemonic : String)
deriving DecidableEq, Repr

/-- The machine right after reset (10_state.md R43). The spec gives every register's value. `AD`, `DIN`, `DOUT` list
nothing: no byte has been written. The model's own fields (`job`, `caps`, `epoch`, `agenda`, `observed`) are DESIGN CHOICE (log 2, 4, 5, 9, 12). -/
def State.reset : State where
  S := ⟨0, 0, 0, 0, 0⟩
  key := Vector.replicate 20 0
  nonce := Vector.replicate 16 0
  cmd := 0x00
  status := 0x00
  klen := 0
  nlen := 0
  adlen := 0
  dlen := 0
  hlen := 32
  olen := 0
  ad := []
  din := []
  dout := []
  phase := .uninitialized
  tagc := Vector.replicate 16 0
  roundIdx := 0
  blockIdx := 0
  outCount := 0
  job := none
  caps := Capacities.largest
  epoch := 0
  agenda := []
  observed := []

end Sys2Proof.Machine
end

