-- ==== Sys2Proof/Machine/Bytes.lean ====
section
/-! DEFINITION. Byte sequences, words and the conversions between them (00_scope.md R12 to R16), and the rate portion of the state
(20_memory.md R64). -/

namespace Sys2Proof.Machine

/-- `zeros(n)` (00_scope.md R12). -/
def zeros (n : Nat) : List Byte := List.replicate n 0

/-- `b[i:j]` (00_scope.md R12). -/
def slice (b : List Byte) (i j : Nat) : List Byte := (b.drop i).take (j - i)

/-- Byte-by-byte XOR, as long as the shorter sequence (41_aead.md R159, R161). -/
def xorBytes (x y : List Byte) : List Byte := List.zipWith (· ^^^ ·) x y

/-- `be64` of 8 bytes: the first byte is the most significant (00_scope.md R13). -/
def be64 (b : List Byte) : Word := b.foldl (fun w x => (w <<< 8) ||| x.setWidth 64) 0

/-- `bytes8(w)[j] = w[63-8j : 56-8j]` (00_scope.md R13). -/
def bytes8 (w : Word) : List Byte := (List.range 8).map fun j => w.extractLsb' (56 - 8 * j) 8

/-- `be32(n)`: the 4-byte big-endian encoding (00_scope.md R13). -/
def be32 (n : Nat) : List Byte := (List.range 4).map fun j => BitVec.ofNat 8 (n / 2 ^ (24 - 8 * j))

/-- `words5` of 40 bytes (00_scope.md R13). -/
def words5 (b : List Byte) : Words5 :=
  ⟨be64 (slice b 0 8), be64 (slice b 8 16), be64 (slice b 16 24), be64 (slice b 24 32), be64 (slice b 32 40)⟩

/-- `rotr64(x, r)`, for `1 <= r <= 63` (00_scope.md R14; outside that range log 13). -/
def rotr64 (x : Word) (r : Nat) : Word := (x >>> r) ||| (x <<< (64 - r))

/-- `S[i]` (10_state.md R21). -/
def wordAt (S : Words5) (i : Fin 5) : Word :=
  match i with
  | 0 => S.s0
  | 1 => S.s1
  | 2 => S.s2
  | 3 => S.s3
  | 4 => S.s4

/-- `S[i] <- v` (00_scope.md R15). -/
def setWord (S : Words5) (i : Fin 5) (v : Word) : Words5 :=
  match i with
  | 0 => { S with s0 := v }
  | 1 => { S with s1 := v }
  | 2 => { S with s2 := v }
  | 3 => { S with s3 := v }
  | 4 => { S with s4 := v }

/-- `S[i] <- S[i] ^ v`. -/
def xorWord (S : Words5) (i : Fin 5) (v : Word) : Words5 := setWord S i (wordAt S i ^^^ v)

/-- `S[i] <- S[i] ^ Z[i]` for all five words (41_aead.md R154). -/
def xorWords (S Z : Words5) : Words5 :=
  ⟨S.s0 ^^^ Z.s0, S.s1 ^^^ Z.s1, S.s2 ^^^ Z.s2, S.s3 ^^^ Z.s3, S.s4 ^^^ Z.s4⟩

/-- The all-zero state (10_state.md R24). -/
def zeroWords : Words5 := ⟨0, 0, 0, 0, 0⟩

/-- The rate in bytes (00_scope.md R6). -/
def rateLen : Rate → Nat
  | .r8 => 8
  | .r16 => 16

/-- `pad(b, rate)`: one byte 0x80, then zeros to the rate boundary, always at least one byte (00_scope.md R16). -/
def pad (b : List Byte) (rate : Rate) : List Byte :=
  b ++ 0x80 :: zeros (rateLen rate - b.length % rateLen rate - 1)

/-- Block `i` of a byte sequence cut into rate blocks from index 0 (20_memory.md R66). -/
def blockAt (p : List Byte) (rate : Rate) (i : Nat) : List Byte :=
  slice p (i * rateLen rate) ((i + 1) * rateLen rate)

/-- `ratebytes(S, rate)` (20_memory.md R64). -/
def ratebytes (S : Words5) : Rate → List Byte
  | .r8 => bytes8 S.s0
  | .r16 => bytes8 S.s0 ++ bytes8 S.s1

/-- `setrate(S, rate, v)` (20_memory.md R64). -/
def setrate (S : Words5) (rate : Rate) (v : List Byte) : Words5 :=
  match rate with
  | .r8 => { S with s0 := be64 (slice v 0 8) }
  | .r16 => { S with s0 := be64 (slice v 0 8), s1 := be64 (slice v 8 16) }

/-- XOR of one rate block into the rate words (41_aead.md R155, R157; 42_hash_xof.md R203). -/
def xorRate (S : Words5) (rate : Rate) (v : List Byte) : Words5 :=
  match rate with
  | .r8 => { S with s0 := S.s0 ^^^ be64 (slice v 0 8) }
  | .r16 => { S with s0 := S.s0 ^^^ be64 (slice v 0 8), s1 := S.s1 ^^^ be64 (slice v 8 16) }

/-- A 16-byte sequence as the contents of `tagc` (10_state.md R42). Any other length gives zeros: no caller has one. -/
def tagOfBytes (b : List Byte) : Vector Byte 16 :=
  if h : b.length = 16 then ⟨b.toArray, by simp [h]⟩ else Vector.replicate 16 0

end Sys2Proof.Machine
end

