-- ==== Sys2Proof/Machine/Buffers.lean ====
section
/-! DEFINITION. The byte spaces (20_memory.md R60): a buffer as a list of written bytes in canonical form, its two operations, and the
reads and writes the engines and the host make through them. -/

namespace Sys2Proof.Machine

/-- The canonical form: indices strictly rising. An unlisted index reads as "not written", which no entry can equal, so the form
is unique. -/
abbrev Memory.wf (m : Memory) : Prop := m.Pairwise fun x y => x.1 < y.1

/-- What index `a` holds: `none` when nothing has written it since reset. -/
def Memory.read? : Memory → Nat → Option Byte
  | [], _ => none
  | (x, v) :: m, a => if x = a then some v else Memory.read? m a

/-- The cells of a byte sequence stored from index `a` on. -/
def Memory.cells : Nat → List Byte → Memory
  | _, [] => []
  | a, v :: bs => (a, v) :: Memory.cells (a + 1) bs

/-- Store a byte sequence from index `a` on, keeping the canonical form. -/
def Memory.writeBytes (m : Memory) (a : Nat) (bs : List Byte) : Memory :=
  m.filter (fun c => c.1 < a) ++ Memory.cells a bs ++ m.filter (fun c => a + bs.length ≤ c.1)

/-- The size of a space in bytes (20_memory.md R60). -/
def spaceSize (s : State) : Space → Nat
  | .key => 20
  | .nonce => 16
  | .ad => s.caps.ad
  | .din => s.caps.din
  | .dout => s.caps.dout

/-- The byte at (space, index) as the block's storage holds it. A byte of `AD`, `DIN` or `DOUT` that nothing has written since
reset is a draw (10_state.md R43, 20_memory.md R62; log 3). -/
def storedByte (s : State) (sp : Space) (i : Nat) : Byte :=
  match sp with
  | .key => s.key.toList.getD i 0
  | .nonce => s.nonce.toList.getD i 0
  | .ad => (Memory.read? s.ad i).getD (Config.unwrittenByte s.epoch .ad i)
  | .din => (Memory.read? s.din i).getD (Config.unwrittenByte s.epoch .din i)
  | .dout => (Memory.read? s.dout i).getD (Config.unwrittenByte s.epoch .dout i)

/-- `MemRead(space, addr, n)` (00_scope.md R15). -/
def memRead (s : State) (sp : Space) (addr n : Nat) : List Byte :=
  (List.range n).map fun k => storedByte s sp (addr + k)

/-- `LoadBlock(space, len, rate, i)` (20_memory.md R67). -/
def loadBlock (s : State) (sp : Space) (len : Nat) (rate : Rate) (i : Nat) : List Byte :=
  blockAt (pad (memRead s sp 0 len) rate) rate i

/-- `MemWrite(DOUT, addr, len(v), v)`: the one buffer the block writes (20_memory.md R60, R62, R68). -/
def writeDout (s : State) (addr : Nat) (v : List Byte) : State :=
  { s with dout := Memory.writeBytes s.dout addr v }

/-- Overwrite the bytes of a register file from index `i` on, as far as it goes. -/
def overwrite {n : Nat} (v : Vector Byte n) (i : Nat) (bs : List Byte) : Vector Byte n :=
  match bs with
  | [] => v
  | b :: rest => overwrite (v.setIfInBounds i b) (i + 1) rest

end Sys2Proof.Machine
end

