-- ==== Sys2Proof/Machine/Flags.lean ====
section
/-! DEFINITION. The flags of the block: the fields of `STATUS` (10_state.md R29) and the error codes
(60_exceptions.md R231). -/

namespace Sys2Proof.Machine

/-- The value of `STATUS.ERR` for each error (60_exceptions.md R231). Code 0 is no error, 11 to 15 are never produced. -/
def errCode : ErrorKind → BitVec 4
  | .invalidVariant => 1
  | .invalidHashVariant => 2
  | .invalidKeyLength => 3
  | .invalidNonceLength => 4
  | .invalidHashLength => 5
  | .ciphertextTooShort => 6
  | .authenticationFailed => 7
  | .illegalCommand => 8
  | .invalidRounds => 9
  | .lengthExceedsCapacity => 10

/-- The `STATUS` byte with the given fields: `ERR` in 7:4, bits 3:2 zero, `DONE` bit 1, `BUSY` bit 0 (10_state.md R29). -/
def statusByte (busy done : Bool) (err : BitVec 4) : BitVec 8 :=
  err ++ (0#2 ++ (BitVec.ofBool done ++ BitVec.ofBool busy))

/-- `STATUS.BUSY`, bit 0 (10_state.md R29). -/
def State.busy (s : State) : Bool := s.status.getLsbD 0

/-- `STATUS.DONE`, bit 1 (10_state.md R29). -/
def State.done (s : State) : Bool := s.status.getLsbD 1

/-- `STATUS.ERR`, bits 7:4 (10_state.md R29). -/
def State.err (s : State) : BitVec 4 := s.status.extractLsb' 4 4

/-- `STATUS` while a command runs: `BUSY = 1`, `DONE = 0`, `ERR = 0` (10_state.md R29). -/
def statusBusy : BitVec 8 := statusByte true false 0

/-- `STATUS` after a command that succeeded (10_state.md R29, 40_permutation.md R128). -/
def statusDone : BitVec 8 := statusByte false true 0

/-- `STATUS` after a command that ended in an error (60_exceptions.md R236). -/
def statusError (e : ErrorKind) : BitVec 8 := statusByte false true (errCode e)

/-- `STATUS` with `BUSY` cleared and every other bit kept. -/
def statusIdle (st : BitVec 8) : BitVec 8 := st &&& 0xFE

end Sys2Proof.Machine
end

