-- ==== Sys2Proof/Machine/Ops.lean ====
section
/-! DEFINITION. The named operations every command shares: accepting a command, raising an error (the block's
exception entry, 60_exceptions.md R236) and completing. There is no return from an error (R244): the next accepted
command clears the report. -/

namespace Sys2Proof.Machine

/-- An accepted `CMD` write stores the byte (10_state.md R28), sets `BUSY`, clears `DONE` and `ERR` (R29, 60_exceptions.md
R244) and clears `OLEN` (R35). -/
def accept (b : Byte) (s : State) : State :=
  { s with cmd := b, status := statusBusy, olen := 0 }

/-- TAKING AN ERROR. `raise <Error>`: `ERR <- code`, `DONE <- 1`, `BUSY <- 0`, `OLEN <- 0`; nothing is saved, control goes
nowhere (60_exceptions.md R236). -/
def raiseError (e : ErrorKind) (s : State) : State :=
  { s with status := statusError e, olen := 0, job := none }

/-- Completion without error: `DONE <- 1`, `ERR <- 0`, `BUSY <- 0` and `OLEN <- n` (10_state.md R29, R35). -/
def complete (n : Nat) (s : State) : State :=
  { s with status := statusDone, olen := BitVec.ofNat 32 n, job := none }

/-- The loop indices have no meaning outside their loops (10_state.md R41); the model puts them back to their reset
value when a command ends. DESIGN CHOICE (log 10), safe: never observable. -/
def clearLoops (s : State) : State :=
  { s with roundIdx := 0, blockIdx := 0, outCount := 0 }

/-- No value of the duplex state outlives an engine command: `S <- 0` (10_state.md R24), `tagc` is cleared with it (R42), and `phase`
rests at `Finalized` (R40). -/
def clearEngine (s : State) : State :=
  clearLoops { s with S := zeroWords, tagc := Vector.replicate 16 0, phase := .finalized }

/-- The end of an engine command without error: result length `n`, state cleared (41_aead.md R150, R151; 42_hash_xof.md R200). -/
def finishEngine (n : Nat) (s : State) : State := complete n (clearEngine s)

/-- The end of a `DECRYPT` whose tag does not match: the candidate plaintext stored in `DOUT` is overwritten with zeros, the state
is cleared, and `AuthenticationFailed` is raised (41_aead.md R167, 60_exceptions.md R240). -/
def rejectPlaintext (n : Nat) (s : State) : State :=
  raiseError .authenticationFailed (clearEngine (writeDout s 0 (zeros n)))

/-- The end of `PERMUTE` (40_permutation.md R128): `OLEN <- 0`, no error, `phase` unchanged. -/
def finishPermute (s : State) : State := complete 0 (clearLoops s)

/-- A `CMD` byte with a reserved `OP` (30_encoding.md R95): the command is accepted and completes at once with `IllegalCommand`. -/
def illegalCommand (b : Byte) (s : State) : State := raiseError .illegalCommand (accept b s)

/-- The reset input (70_reset_and_hazards.md R270, R271): every piece of the block's state takes its value after reset, a
command in progress is abandoned. The implementation's parameters and the host are not the block's state; the bytes
of the buffers are draws again (10_state.md R43; log 4). -/
def resetBlock (s : State) : State :=
  { State.reset with
    caps := s.caps, epoch := s.epoch + 1, agenda := s.agenda, observed := s.observed }

end Sys2Proof.Machine
end

