-- ==== Sys2Proof/Machine/Operands.lean ====
section
/-! DEFINITION. The operands of the commands: variant codes (30_encoding.md R92, R93), variant parameters (00_scope.md R8, R9), the
byte sequences a command takes from the buffers (41_aead.md R150, R151; 42_hash_xof.md R200), and the validation of
all of them in its order (60_exceptions.md R241). -/

namespace Sys2Proof.Machine

/-- The parameters of an AEAD variant (00_scope.md R8): key bits, key bytes, rate, rounds of the full and of the partial
permutation. -/
structure AeadParams where
  k : Nat
  klen : Nat
  rate : Rate
  a : Nat
  b : Nat
deriving DecidableEq, Repr

/-- The parameters of a hash variant (00_scope.md R9); the rate is 8 bytes for all four. -/
structure HashParams where
  a : Nat
  b : Nat
  tagbits : Nat
  /-- `true` for the fixed 32-byte digests, `false` for the variable output. -/
  fixed : Bool
deriving DecidableEq, Repr

/-- `TAG_BYTES` (00_scope.md R7). -/
def tagBytes : Nat := 16

/-- `NONCE_BYTES` (00_scope.md R7). -/
def nonceBytes : Nat := 16

/-- `HASH_BYTES` (00_scope.md R7). -/
def hashBytes : Nat := 32

/-- The table of 00_scope.md R8. -/
def aeadParams : AeadVariant → AeadParams
  | .ascon128 => ⟨128, 16, .r8, 12, 6⟩
  | .ascon128a => ⟨128, 16, .r16, 12, 8⟩
  | .ascon80pq => ⟨160, 20, .r8, 12, 6⟩

/-- The table of 00_scope.md R9. -/
def hashParams : HashVariant → HashParams
  | .hash => ⟨12, 12, 256, true⟩
  | .hasha => ⟨12, 8, 256, true⟩
  | .xof => ⟨12, 12, 0, false⟩
  | .xofa => ⟨12, 8, 0, false⟩

/-- AEAD variant codes (30_encoding.md R92). -/
def aeadVariant? (arg : BitVec 4) : Option AeadVariant :=
  if arg = 0#4 then some .ascon128
  else if arg = 1#4 then some .ascon128a
  else if arg = 2#4 then some .ascon80pq
  else none

/-- Hash variant codes (30_encoding.md R93). -/
def hashVariant? (arg : BitVec 4) : Option HashVariant :=
  if arg = 0#4 then some .hash
  else if arg = 1#4 then some .hasha
  else if arg = 2#4 then some .xof
  else if arg = 3#4 then some .xofa
  else none

/-- The key of a command: bytes `0 .. klen-1` of `KEY` (10_state.md R25). -/
def keyOf (s : State) (v : AeadVariant) : List Byte := memRead s .key 0 (aeadParams v).klen

/-- The nonce of a command (10_state.md R26). -/
def nonceOf (s : State) : List Byte := memRead s .nonce 0 nonceBytes

/-- The associated data (10_state.md R32). -/
def adOf (s : State) : List Byte := memRead s .ad 0 s.adlen.toNat

/-- The input data of `ENCRYPT` and `HASH` (10_state.md R33). -/
def dataOf (s : State) : List Byte := memRead s .din 0 s.dlen.toNat

/-- The ciphertext of `DECRYPT`, without its tag (41_aead.md R151). -/
def ciphertextOf (s : State) : List Byte := memRead s .din 0 (s.dlen.toNat - tagBytes)

/-- The received tag of `DECRYPT` (41_aead.md R151). -/
def receivedTag (s : State) : List Byte := memRead s .din (s.dlen.toNat - tagBytes) tagBytes

/-- The length of the digest: 32, or `HLEN` for the variable output (42_hash_xof.md R200). -/
def digestLen (s : State) (v : HashVariant) : Nat :=
  if (hashParams v).fixed then hashBytes else s.hlen.toNat

/-- `Validate(ENCRYPT, ARG)` and `Validate(DECRYPT, ARG)` (60_exceptions.md R241; R232, R233, R234, R239, R235). -/
def validateAead (dir : Direction) (arg : BitVec 4) (s : State) : Except ErrorKind AeadVariant :=
  match aeadVariant? arg with
  | none => .error .invalidVariant
  | some v =>
    if s.klen.toNat ≠ (aeadParams v).klen then .error .invalidKeyLength
    else if s.nlen.toNat ≠ nonceBytes then .error .invalidNonceLength
    else if dir = .decrypt ∧ s.dlen.toNat < tagBytes then .error .ciphertextTooShort
    else if s.adlen.toNat > s.caps.ad ∨ s.dlen.toNat > s.caps.din then .error .lengthExceedsCapacity
    else .ok v

/-- `Validate(HASH, ARG)` (60_exceptions.md R241; R232, R238, R235). -/
def validateHash (arg : BitVec 4) (s : State) : Except ErrorKind HashVariant :=
  match hashVariant? arg with
  | none => .error .invalidHashVariant
  | some v =>
    if (hashParams v).fixed = true ∧ s.hlen.toNat ≠ hashBytes then .error .invalidHashLength
    else if s.dlen.toNat > s.caps.din then .error .lengthExceedsCapacity
    else if (hashParams v).fixed = false ∧ s.hlen.toNat > s.caps.dout then .error .lengthExceedsCapacity
    else .ok v

/-- `Validate(PERMUTE, ARG)` (60_exceptions.md R241; 30_encoding.md R96). -/
def validateRounds (arg : BitVec 4) : Except ErrorKind Nat :=
  if arg.toNat = 0 ∨ arg.toNat ≥ 13 then .error .invalidRounds else .ok arg.toNat

end Sys2Proof.Machine
end

