-- ==== Sys2Proof/Machine/Permutation.lean ====
section
/-! DEFINITION. The permutation core and the `PERMUTE` command (40_permutation.md R120 to R130). -/

namespace Sys2Proof.Machine

/-- The round constant `c(r)`, a natural number, for `0 <= r <= 11` (40_permutation.md R122). Outside that range the spec gives none; the
value Lean gives is a DESIGN CHOICE (log 13), unsafe. -/
def roundConst (r : Nat) : Nat := 0xf0 - r * 0x10 + r

/-- `AddConstant(S, r)`, for `0 <= r <= 11` (40_permutation.md R122; outside that range log 13). -/
def addConstant (r : Nat) (S : Words5) : Words5 :=
  { S with s2 := S.s2 ^^^ BitVec.ofNat 64 (roundConst r) }

/-- `Substitute(S)` (40_permutation.md R123): the fixed sequence, the five `t` words all taken before any of them is used. -/
def substitute (S : Words5) : Words5 :=
  let s0 := S.s0 ^^^ S.s4
  let s4 := S.s4 ^^^ S.s3
  let s2 := S.s2 ^^^ S.s1
  let s1 := S.s1
  let s3 := S.s3
  let t0 := ~~~s0 &&& s1
  let t1 := ~~~s1 &&& s2
  let t2 := ~~~s2 &&& s3
  let t3 := ~~~s3 &&& s4
  let t4 := ~~~s4 &&& s0
  let s0 := s0 ^^^ t1
  let s1 := s1 ^^^ t2
  let s2 := s2 ^^^ t3
  let s3 := s3 ^^^ t4
  let s4 := s4 ^^^ t0
  let s1 := s1 ^^^ s0
  let s0 := s0 ^^^ s4
  let s3 := s3 ^^^ s2
  let s2 := ~~~s2
  ⟨s0, s1, s2, s3, s4⟩

/-- One word of the linear layer: `x ^ rotr64(x, r1) ^ rotr64(x, r2)` (40_permutation.md R124). -/
def diffuseWord (r1 r2 : Nat) (x : Word) : Word := x ^^^ rotr64 x r1 ^^^ rotr64 x r2

/-- `Diffuse(S)` with the fixed rotation amounts (40_permutation.md R124). -/
def diffuse (S : Words5) : Words5 :=
  ⟨diffuseWord 19 28 S.s0, diffuseWord 61 39 S.s1, diffuseWord 1 6 S.s2, diffuseWord 10 17 S.s3, diffuseWord 7 41 S.s4⟩

/-- `Round(S, r)`, for `0 <= r <= 11` (40_permutation.md R125; outside that range log 13). -/
def round (r : Nat) (S : Words5) : Words5 := diffuse (substitute (addConstant r S))

/-- `n` rounds, the first with index `r`. -/
def runRounds : Nat → Nat → Words5 → Words5
  | 0, _, S => S
  | n + 1, r, S => runRounds n (r + 1) (round r S)

/-- `P(S, n)`, for `1 <= n <= 12`: the last `n` of the 12 rounds (40_permutation.md R121). Outside 1..12 the spec gives no meaning
and no command asks (R127, R128; log 13). -/
def perm (n : Nat) (S : Words5) : Words5 := runRounds n (12 - n) S

/-- `PERMUTE n` (40_permutation.md R128). -/
def execPermute (n : BitVec 4) (s : State) : Host.Outcome State Fault Refusal :=
  let s := accept (encodeByte (.permute n)) s
  match validateRounds n with
  | .error e => .next (raiseError e s)
  | .ok rounds => .next (finishPermute { s with S := perm rounds s.S })

end Sys2Proof.Machine
end

