-- ==== Sys2Proof/Machine/Aead.lean ====
section
/-! DEFINITION. The AEAD duplex engine: `ENCRYPT` and `DECRYPT` (41_aead.md R150 to R167). -/

namespace Sys2Proof.Machine

/-- The 40-byte buffer of the initializer: four one-byte fields, zeros, the key, the nonce (41_aead.md R153). -/
def aeadBuffer (p : AeadParams) (K N : List Byte) : List Byte :=
  [BitVec.ofNat 8 p.k, BitVec.ofNat 8 (rateLen p.rate * 8), BitVec.ofNat 8 p.a, BitVec.ofNat 8 p.b]
    ++ zeros (20 - K.length) ++ K ++ N

/-- The key at the end of the 40-byte state (41_aead.md R154). -/
def keyTail (K : List Byte) : Words5 := words5 (zeros (40 - K.length) ++ K)

/-- `AeadInit` (41_aead.md R153, R154). -/
def aeadInit (p : AeadParams) (K N : List Byte) : Words5 :=
  xorWords (perm p.a (words5 (aeadBuffer p K N))) (keyTail K)

/-- Absorb the first `n` rate blocks of a padded sequence, `P(S, b)` after each (41_aead.md R155). -/
def absorbBlocks (b : Nat) (rate : Rate) : Nat → List Byte → Words5 → Words5
  | 0, _, S => S
  | n + 1, p, S =>
    absorbBlocks b rate n (p.drop (rateLen rate)) (perm b (xorRate S rate (p.take (rateLen rate))))

/-- The domain-separation bit (41_aead.md R156). -/
def flipDomain (S : Words5) : Words5 := { S with s4 := S.s4 ^^^ 1 }

/-- `AbsorbAD` (41_aead.md R155, R156): nothing is absorbed when `A` is empty, the bit is flipped in any case. -/
def absorbAD (b : Nat) (rate : Rate) (A : List Byte) (S : Words5) : Words5 :=
  flipDomain (if A.length > 0 then absorbBlocks b rate (A.length / rateLen rate + 1) (pad A rate) S else S)

/-- The blocks of `EncryptData`: `n` interior blocks (41_aead.md R157), then the last one, of which the first `l` bytes are emitted
(R158). -/
def encryptBlocks (b : Nat) (rate : Rate) (l : Nat) : Nat → List Byte → Words5 → Words5 × List Byte
  | 0, p, S =>
    let S := xorRate S rate (p.take (rateLen rate))
    (S, (ratebytes S rate).take l)
  | n + 1, p, S =>
    let S := xorRate S rate (p.take (rateLen rate))
    let rest := encryptBlocks b rate l n (p.drop (rateLen rate)) (perm b S)
    (rest.1, ratebytes S rate ++ rest.2)

/-- `EncryptData(S, b, rate, M)` (41_aead.md R157, R158). -/
def encryptData (b : Nat) (rate : Rate) (M : List Byte) (S : Words5) : Words5 × List Byte :=
  encryptBlocks b rate (M.length % rateLen rate) (M.length / rateLen rate) (pad M rate) S

/-- The rate bytes after the last block of `DecryptData`: the ciphertext tail, then the old byte XOR 0x80, then the old bytes
(41_aead.md R162). -/
def tailRate (R Ct : List Byte) : List Byte :=
  Ct ++ (R.getD Ct.length 0 ^^^ 0x80) :: R.drop (Ct.length + 1)

/-- The blocks of `DecryptData`: `n` interior blocks, each overwriting the rate words with the ciphertext (41_aead.md R159), then
the tail (R161, R162). -/
def decryptBlocks (b : Nat) (rate : Rate) : Nat → List Byte → Words5 → Words5 × List Byte
  | 0, Ct, S =>
    let R := ratebytes S rate
    (setrate S rate (tailRate R Ct), xorBytes R Ct)
  | n + 1, C, S =>
    let Ci := C.take (rateLen rate)
    let rest := decryptBlocks b rate n (C.drop (rateLen rate)) (perm b (setrate S rate Ci))
    (rest.1, xorBytes (ratebytes S rate) Ci ++ rest.2)

/-- `DecryptData(S, b, rate, C)` (41_aead.md R159 to R162). -/
def decryptData (b : Nat) (rate : Rate) (C : List Byte) (S : Words5) : Words5 × List Byte :=
  decryptBlocks b rate (C.length / rateLen rate) C S

/-- The key injection of `Finalize`: three words from index `rate / 8` on (41_aead.md R164). -/
def injectKey (rate : Rate) (K : List Byte) (S : Words5) : Words5 :=
  let Kp := K ++ zeros (24 - K.length)
  match rate with
  | .r8 => xorWord (xorWord (xorWord S 1 (be64 (slice Kp 0 8))) 2 (be64 (slice Kp 8 16))) 3 (be64 (slice Kp 16 24))
  | .r16 => xorWord (xorWord (xorWord S 2 (be64 (slice Kp 0 8))) 3 (be64 (slice Kp 8 16))) 4 (be64 (slice Kp 16 24))

/-- The tag: the last 16 key bytes XORed onto the last two words (41_aead.md R165). -/
def tagOf (K : List Byte) (S : Words5) : List Byte :=
  bytes8 (S.s3 ^^^ be64 (slice K (K.length - 16) (K.length - 8)))
    ++ bytes8 (S.s4 ^^^ be64 (slice K (K.length - 8) K.length))

/-- `Finalize(S, rate, a, K)` (41_aead.md R164, R165). -/
def finalize (p : AeadParams) (K : List Byte) (S : Words5) : Words5 × List Byte :=
  let S := perm p.a (injectKey p.rate K S)
  (S, tagOf K S)

/-- The computation of `ENCRYPT` (41_aead.md R150): ciphertext, then tag. -/
def aeadEncrypt (v : AeadVariant) (K N A M : List Byte) : List Byte :=
  let p := aeadParams v
  let S := absorbAD p.b p.rate A (aeadInit p K N)
  let d := encryptData p.b p.rate M S
  d.2 ++ (finalize p K d.1).2

/-- The computation of `DECRYPT` (41_aead.md R151): the candidate plaintext and the candidate tag. -/
def aeadDecrypt (v : AeadVariant) (K N A C : List Byte) : List Byte × List Byte :=
  let p := aeadParams v
  let S := absorbAD p.b p.rate A (aeadInit p K N)
  let d := decryptData p.b p.rate C S
  (d.2, (finalize p K d.1).2)

/-- `ENCRYPT v` (41_aead.md R150, R166). -/
def execEncrypt (arg : BitVec 4) (s : State) : Host.Outcome State Fault Refusal :=
  let s := accept (encodeByte (.encrypt arg)) s
  match validateAead .encrypt arg s with
  | .error e => .next (raiseError e s)
  | .ok v =>
    let result := aeadEncrypt v (keyOf s v) (nonceOf s) (adOf s) (dataOf s)
    .next (finishEngine (s.dlen.toNat + tagBytes) (writeDout s 0 result))

/-- `DECRYPT v` (41_aead.md R151, R166, R167; 60_exceptions.md R240). The whole computation runs before the tags are compared. -/
def execDecrypt (arg : BitVec 4) (s : State) : Host.Outcome State Fault Refusal :=
  let s := accept (encodeByte (.decrypt arg)) s
  match validateAead .decrypt arg s with
  | .error e => .next (raiseError e s)
  | .ok v =>
    let n := s.dlen.toNat - tagBytes
    let result := aeadDecrypt v (keyOf s v) (nonceOf s) (adOf s) (ciphertextOf s)
    let t := writeDout s 0 result.1
    if result.2 = receivedTag s then .next (finishEngine n t) else .next (rejectPlaintext n t)

end Sys2Proof.Machine
end

