-- ==== Sys2Proof/Machine/HashXof.lean ====
section
/-! DEFINITION. The hash and XOF engine: `HASH` (42_hash_xof.md R200 to R207). -/

namespace Sys2Proof.Machine

/-- The 40-byte buffer of the initializer (42_hash_xof.md R201). -/
def hashBuffer (p : HashParams) : List Byte :=
  [0x00, 0x40, BitVec.ofNat 8 p.a, BitVec.ofNat 8 (p.a - p.b)] ++ be32 p.tagbits ++ zeros 32

/-- `HashInit` (42_hash_xof.md R201, R202). -/
def hashInit (p : HashParams) : Words5 := perm p.a (words5 (hashBuffer p))

/-- The blocks of `AbsorbMessage`: `n` blocks followed by `P(S, b)`, then the last one followed by `P(S, a)`
(42_hash_xof.md R203). -/
def absorbMessageBlocks (p : HashParams) : Nat → List Byte → Words5 → Words5
  | 0, q, S => perm p.a (xorRate S .r8 (q.take 8))
  | n + 1, q, S => absorbMessageBlocks p n (q.drop 8) (perm p.b (xorRate S .r8 (q.take 8)))

/-- `AbsorbMessage` (42_hash_xof.md R203). -/
def absorbMessage (p : HashParams) (Msg : List Byte) (S : Words5) : Words5 :=
  absorbMessageBlocks p (Msg.length / 8) (pad Msg .r8) S

/-- `k` output blocks of 8 bytes, `P(S, b)` after each (42_hash_xof.md R204). -/
def squeezeBlocks (b : Nat) : Nat → Words5 → List Byte
  | 0, _ => []
  | k + 1, S => bytes8 S.s0 ++ squeezeBlocks b k (perm b S)

/-- The digest of `Squeeze`: `ceil(n / 8)` blocks, cut to `n` bytes (42_hash_xof.md R204). The final state is not returned: the
command clears it (R200). -/
def squeeze (b n : Nat) (S : Words5) : List Byte := (squeezeBlocks b ((n + 7) / 8) S).take n

/-- The computation of `HASH` (42_hash_xof.md R200). -/
def digest (v : HashVariant) (n : Nat) (Msg : List Byte) : List Byte :=
  let p := hashParams v
  squeeze p.b n (absorbMessage p Msg (hashInit p))

/-- `HASH v` (42_hash_xof.md R200). -/
def execHash (arg : BitVec 4) (s : State) : Host.Outcome State Fault Refusal :=
  let s := accept (encodeByte (.hash arg)) s
  match validateHash arg s with
  | .error e => .next (raiseError e s)
  | .ok v =>
    let n := digestLen s v
    .next (finishEngine n (writeDout s 0 (digest v n (dataOf s))))

end Sys2Proof.Machine
end

