-- ==== Sys2Proof/Machine/Dispatch.lean ====
section
/-! DEFINITION. The dispatch from a command to its meaning: one arm per row of the opcode table (30_encoding.md R94). -/

namespace Sys2Proof.Machine

def exec (i : Instr) (s : State) : Host.Outcome State Fault Refusal :=
  match i with
  | .encrypt arg => Sys2Proof.Machine.execEncrypt arg s
  | .decrypt arg => Sys2Proof.Machine.execDecrypt arg s
  | .hash arg => Sys2Proof.Machine.execHash arg s
  | .permute n => Sys2Proof.Machine.execPermute n s

end Sys2Proof.Machine
end

