-- ==== Sys2Proof/Machine/Phases.lean ====
section
/-! DEFINITION. The fine grain of 10_state.md R20: a command in progress advances one round of the permutation or one block
action a move, `phase`, `tagc` and the loop indices hold their values between moves (R40, R41, R42), and `BUSY` is 1 until it completes (R29).
DESIGN CHOICE of the grain (log 9), safe: "No rule ... depends on it" (R41). -/

namespace Sys2Proof.Machine

/-- The next move is `t`'s own. -/
def goTo (t : Task) (s : State) : State := { s with job := some ⟨t, false⟩ }

/-- Start `P(S, n)`; the task goes on with `t` when it is over (40_permutation.md R121). -/
def startPerm (n : Nat) (t : Task) (s : State) : State := { s with roundIdx := 12 - n, job := some ⟨t, true⟩ }

/-- One round of a permutation under way; round 11 is the last (40_permutation.md R121, R125). A round index of 12 or more, which no
run reaches (10_state.md R41, `JobForm`), is run as a last round: DESIGN CHOICE (log 13), unsafe. -/
def roundMove (t : Task) (s : State) : State :=
  let s' := { s with S := round s.roundIdx s.S }
  if s.roundIdx < 11 then { s' with roundIdx := s.roundIdx + 1 } else goTo t { s' with roundIdx := 0 }

/-- The length of the data an AEAD command duplexes: `DLEN`, less the tag for `DECRYPT` (41_aead.md R150, R151). -/
def duplexLen (dir : Direction) (s : State) : Nat :=
  match dir with
  | .encrypt => s.dlen.toNat
  | .decrypt => s.dlen.toNat - tagBytes

/-- Block `blockIdx` of `EncryptData`: XOR it in, store the ciphertext; interior blocks start `P(S, b)`, the last one stores its `l` genuine
bytes and ends the loop (41_aead.md R157, R158; 20_memory.md R67, R68). -/
def encryptMove (v : AeadVariant) (s : State) : State :=
  let p := aeadParams v
  let len := duplexLen .encrypt s
  let S := xorRate s.S p.rate (loadBlock s .din len p.rate s.blockIdx)
  if s.blockIdx < len / rateLen p.rate then
    startPerm p.b (.aead .encrypt v .duplex)
      { writeDout s s.outCount (ratebytes S p.rate) with
        S := S, blockIdx := s.blockIdx + 1, outCount := s.outCount + rateLen p.rate }
  else
    goTo (.aead .encrypt v .inject)
      { writeDout s s.outCount ((ratebytes S p.rate).take (len % rateLen p.rate)) with
        S := S, outCount := s.outCount + len % rateLen p.rate }

/-- Block `blockIdx` of `DecryptData`: store the plaintext, put the ciphertext into the rate words; interior blocks start `P(S, b)`, the
tail leaves the rate bytes of R162 and ends the loop (41_aead.md R159, R161, R162). -/
def decryptMove (v : AeadVariant) (s : State) : State :=
  let p := aeadParams v
  let len := duplexLen .decrypt s
  let R := ratebytes s.S p.rate
  let C := blockAt (memRead s .din 0 len) p.rate s.blockIdx
  if s.blockIdx < len / rateLen p.rate then
    startPerm p.b (.aead .decrypt v .duplex)
      { writeDout s s.outCount (xorBytes R C) with
        S := setrate s.S p.rate C, blockIdx := s.blockIdx + 1, outCount := s.outCount + rateLen p.rate }
  else
    goTo (.aead .decrypt v .inject)
      { writeDout s s.outCount (xorBytes R C) with
        S := setrate s.S p.rate (tailRate R C), outCount := s.outCount + len % rateLen p.rate }

/-- One move of an AEAD command between permutations (41_aead.md R150, R151, R153 to R167). `phase` becomes `Finalized` in the move that
stores or checks the tag (10_state.md R40, "tag made and checked"): the lines of R150 and R151 from `phase <- Finalized` on are
that one move. -/
def aeadMove (dir : Direction) (v : AeadVariant) (stage : AeadStage) (s : State) : State :=
  let p := aeadParams v
  let K := keyOf s v
  match stage with
  | .load => startPerm p.a (.aead dir v .keyXor) { s with S := words5 (aeadBuffer p K (nonceOf s)) }
  | .keyXor =>
    goTo (.aead dir v .absorb) { s with S := xorWords s.S (keyTail K), phase := .initialized, blockIdx := 0 }
  | .absorb =>
    if 0 < s.adlen.toNat ∧ s.blockIdx ≤ s.adlen.toNat / rateLen p.rate then
      startPerm p.b (.aead dir v .absorb)
        { s with
          S := xorRate s.S p.rate (loadBlock s .ad s.adlen.toNat p.rate s.blockIdx), phase := .absorbingAD,
          blockIdx := s.blockIdx + 1 }
    else goTo (.aead dir v .domain) { s with phase := .absorbingAD }
  | .domain =>
    goTo (.aead dir v .duplex) { s with S := flipDomain s.S, phase := .duplexing, blockIdx := 0, outCount := 0 }
  | .duplex =>
    match dir with
    | .encrypt => encryptMove v s
    | .decrypt => decryptMove v s
  | .inject => startPerm p.a (.aead dir v .tag) { s with S := injectKey p.rate K s.S }
  | .tag => goTo (.aead dir v .finish) { s with tagc := tagOfBytes (tagOf K s.S) }
  | .finish =>
    let n := duplexLen dir s
    match dir with
    | .encrypt => finishEngine (n + tagBytes) (writeDout s n s.tagc.toList)
    | .decrypt => if s.tagc.toList = receivedTag s then finishEngine n s else rejectPlaintext n s

/-- One move of a `HASH` between permutations (42_hash_xof.md R200 to R204). -/
def hashMove (v : HashVariant) (stage : HashStage) (s : State) : State :=
  let p := hashParams v
  let n := digestLen s v
  match stage with
  | .load => startPerm p.a (.hash v .ready) { s with S := words5 (hashBuffer p) }
  | .ready => goTo (.hash v .absorb) { s with phase := .initialized, blockIdx := 0 }
  | .absorb =>
    let s' :=
      { s with
        S := xorRate s.S .r8 (loadBlock s .din s.dlen.toNat .r8 s.blockIdx), phase := .absorbingMessage }
    if s.blockIdx < s.dlen.toNat / 8 then
      startPerm p.b (.hash v .absorb) { s' with blockIdx := s.blockIdx + 1 }
    else startPerm p.a (.hash v .squeeze) { s' with blockIdx := 0, outCount := 0 }
  | .squeeze =>
    if s.outCount < n then
      let piece := (bytes8 s.S.s0).take (n - s.outCount)
      startPerm p.b (.hash v .squeeze)
        { writeDout s s.outCount piece with
          phase := .squeezing, blockIdx := s.blockIdx + 1, outCount := s.outCount + piece.length }
    else goTo (.hash v .finish) { s with phase := .squeezing }
  | .finish => finishEngine n s

/-- One move of the block by itself: nothing when no command is in progress (70_reset_and_hazards.md R271, R286). -/
def blockMove (s : State) : State :=
  match s.job with
  | none => s
  | some ⟨t, true⟩ => roundMove t s
  | some ⟨.aead dir v stage, false⟩ => aeadMove dir v stage s
  | some ⟨.hash v stage, false⟩ => hashMove v stage s
  | some ⟨.permute, false⟩ => finishPermute s

/-- A validated engine command starts: `phase <- Uninitialized` (10_state.md R40). -/
def startEngine (t : Task) (s : State) : State := goTo t (clearLoops { s with phase := .uninitialized })

/-- An accepted command at the fine grain: validation comes first and an error completes the command at once
(60_exceptions.md R230, R241; log 11); otherwise the command is in progress. -/
def beginInstr (i : Instr) (s : State) : State :=
  let s := accept (encodeByte i) s
  match i with
  | .encrypt arg =>
    match validateAead .encrypt arg s with
    | .error e => raiseError e s
    | .ok v => startEngine (.aead .encrypt v .load) s
  | .decrypt arg =>
    match validateAead .decrypt arg s with
    | .error e => raiseError e s
    | .ok v => startEngine (.aead .decrypt v .load) s
  | .hash arg =>
    match validateHash arg s with
    | .error e => raiseError e s
    | .ok v => startEngine (.hash v .load) s
  | .permute n =>
    match validateRounds n with
    | .error e => raiseError e s
    | .ok rounds => startPerm rounds .permute s

/-- `n` moves of the block. -/
def blockMoves : Nat → State → State
  | 0, s => s
  | n + 1, s => blockMoves n (blockMove s)

end Sys2Proof.Machine
end

