-- ==== Sys2Proof/Machine/HostPort.lean ====
section
/-! DEFINITION. The host's accesses (10_state.md section 4, 20_memory.md R60, 30_encoding.md R97), the lock while a command runs
(70_reset_and_hazards.md R278), and what each event of the agenda does. -/

namespace Sys2Proof.Machine

/-- The host has read something; a read has no other effect (20_memory.md R69). -/
def note (o : Observation) (s : State) : State := { s with observed := o :: s.observed }

/-- A `CMD` write, the command run as one atomic step; ignored while `BUSY = 1` (10_state.md R28, 30_encoding.md R95,
70_reset_and_hazards.md R278). -/
def commandWrite (b : Byte) (s : State) : Host.Outcome State Fault Refusal :=
  if s.busy then .next s
  else
    match decodeByte b with
    | some i => exec i s
    | none => .next (illegalCommand b s)

/-- The same `CMD` write, the command run one move at a time (10_state.md R20; log 1). -/
def beginWrite (b : Byte) (s : State) : State :=
  if s.busy then s
  else
    match decodeByte b with
    | some i => beginInstr i s
    | none => illegalCommand b s

/-- A host write to an 8-bit register other than `CMD`; `STATUS` is read-only and ignores it (10_state.md section 4, R30,
R31). -/
def setReg8 (r : Reg8) (v : BitVec 8) (s : State) : State :=
  match r with
  | .cmd => s
  | .status => s
  | .klen => { s with klen := v }
  | .nlen => { s with nlen := v }

/-- A host write to a 32-bit register; `OLEN` is read-only and ignores it (10_state.md section 4, R32 to R35). -/
def setReg32 (r : Reg32) (v : BitVec 32) (s : State) : State :=
  match r with
  | .adlen => { s with adlen := v }
  | .dlen => { s with dlen := v }
  | .hlen => { s with hlen := v }
  | .olen => s

/-- The value of an 8-bit register (10_state.md R28 to R31). -/
def getReg8 (s : State) : Reg8 → BitVec 8
  | .cmd => s.cmd
  | .status => s.status
  | .klen => s.klen
  | .nlen => s.nlen

/-- The value of a 32-bit register (10_state.md R32 to R35). -/
def getReg32 (s : State) : Reg32 → BitVec 32
  | .adlen => s.adlen
  | .dlen => s.dlen
  | .hlen => s.hlen
  | .olen => s.olen

/-- Host bytes stored from an index on. `DOUT` is "host reads only" (10_state.md R36): the write is ignored. DEDUCED
(log 8), unsafe. -/
def storeBytes (sp : Space) (i : Nat) (bs : List Byte) (s : State) : State :=
  match sp with
  | .key => { s with key := overwrite s.key i bs }
  | .nonce => { s with nonce := overwrite s.nonce i bs }
  | .ad => { s with ad := Memory.writeBytes s.ad i bs }
  | .din => { s with din := Memory.writeBytes s.din i bs }
  | .dout => s

/-- The byte a host read of (space, index) returns while the block is idle: `DOUT` is gated by `OLEN` (10_state.md R37). -/
def hostByte (s : State) (sp : Space) (i : Nat) : Byte :=
  if sp = .dout ∧ s.olen.toNat ≤ i then 0 else storedByte s sp i

/-- The first `n` bytes of a space as the host reads them. -/
def hostBytes (s : State) (sp : Space) (n : Nat) : List Byte := (List.range n).map (hostByte s sp)

/-- A host access to one byte names a byte that exists (20_memory.md R60). A read of `DOUT` past `OLEN` gives 0 at every
index (10_state.md R37). -/
def byteExists (s : State) (sp : Space) (i : Nat) : Bool := i < spaceSize s sp

/-- A host write of one byte; ignored while `BUSY = 1` (70_reset_and_hazards.md R278). -/
def writeByte (sp : Space) (i : Nat) (v : Byte) (s : State) : Host.Outcome State Fault Refusal :=
  if s.busy then .next s
  else if byteExists s sp i then .next (storeBytes sp i [v] s)
  else .fault (.noSuchByte sp i)

/-- `WRB`: bytes from index 0 on, as far as the space goes: a sequence longer than its register "cannot be written in full" (30_encoding.md R98;
DEDUCED, log 7). Ignored while `BUSY = 1`. -/
def writeFromStart (sp : Space) (bs : List Byte) (s : State) : State :=
  if s.busy then s else storeBytes sp 0 (bs.take (spaceSize s sp)) s

/-- A host read of one byte; 0 while `BUSY = 1` (70_reset_and_hazards.md R278). -/
def readByte (sp : Space) (i : Nat) (s : State) : Host.Outcome State Fault Refusal :=
  if s.busy then .next (note (.bytes sp i [0]) s)
  else if sp = .dout ∨ byteExists s sp i then .next (note (.bytes sp i [hostByte s sp i]) s)
  else .fault (.noSuchByte sp i)

/-- `RDB`: a host read of the first `n` bytes; zeros while `BUSY = 1` (30_encoding.md R97, 70_reset_and_hazards.md
R278). -/
def readFromStart (sp : Space) (n : Nat) (s : State) : Host.Outcome State Fault Refusal :=
  if s.busy then .next (note (.bytes sp 0 (zeros n)) s)
  else if sp = .dout ∨ n ≤ spaceSize s sp then .next (note (.bytes sp 0 (hostBytes s sp n)) s)
  else .fault (.noSuchByte sp (spaceSize s sp))

/-- A host read of an 8-bit register; only `STATUS` can be read while `BUSY = 1` (70_reset_and_hazards.md R278). -/
def readReg8 (r : Reg8) (s : State) : State :=
  note (.reg8 r (if s.busy ∧ r ≠ .status then 0 else getReg8 s r)) s

/-- A host read of a 32-bit register; 0 while `BUSY = 1`. -/
def readReg32 (r : Reg32) (s : State) : State := note (.reg32 r (if s.busy then 0 else getReg32 s r)) s

/-- A host read of `S[i]` (10_state.md R23); 0 while `BUSY = 1`. -/
def readWord (i : Fin 5) (s : State) : State := note (.word i (if s.busy then 0 else wordAt s.S i)) s

/-- A host write of `S[i]` (10_state.md R23); ignored while `BUSY = 1`. -/
def writeWord (i : Fin 5) (v : Word) (s : State) : State :=
  if s.busy then s else { s with S := setWord s.S i v }

/-- The last line of a pseudo-operation (30_encoding.md R98): the `OLEN` bytes of `DOUT` when `ERR = 0`, else the report. R98 runs it
only after `WAIT`; while `BUSY = 1`, where `ERR` reads 0, it returns `STATUS`. DESIGN CHOICE (log 15), unsafe. -/
def readResult (s : State) : State :=
  if s.busy ∨ s.err ≠ 0 then note (.reg8 .status s.status) s
  else note (.bytes .dout 0 (hostBytes s .dout s.olen.toNat)) s

/-- `WAIT`: the host reads `STATUS` until `DONE = 1` (30_encoding.md R97); while it waits the block moves on. -/
def waitDone (s : State) : State :=
  if s.done then s else blockMove { s with agenda := .host .wait :: s.agenda }

/-- One host action (30_encoding.md R97). -/
def hostAction (a : HostAction) (s : State) : Host.Outcome State Fault Refusal :=
  match a with
  | .wr8 .cmd v => commandWrite v s
  | .wr8 r v => .next (if s.busy then s else setReg8 r v s)
  | .wr32 r v => .next (if s.busy then s else setReg32 r v s)
  | .wrWord i v => .next (writeWord i v s)
  | .wrByte sp i v => writeByte sp i v s
  | .wrBytes sp bs => .next (writeFromStart sp bs s)
  | .command b => commandWrite b s
  | .begin b => .next (beginWrite b s)
  | .wait => .next (waitDone s)
  | .rd8 r => .next (readReg8 r s)
  | .rd32 r => .next (readReg32 r s)
  | .rdWord i => .next (readWord i s)
  | .rdByte sp i => readByte sp i s
  | .rdBytes sp n => readFromStart sp n s
  | .rdResult => .next (readResult s)

/-- What one event of the agenda does (10_state.md R20, 70_reset_and_hazards.md R270). -/
def handle (e : Event) (s : State) : Host.Outcome State Fault Refusal :=
  match e with
  | .host a => hostAction a s
  | .block => .next (blockMove s)
  | .reset => .next (resetBlock s)

/-- The machine's next step: the oldest event of the agenda; with none left, the block alone moves (70_reset_and_hazards.md
R271, R286). -/
def advance (s : State) : Host.Outcome State Fault Refusal :=
  match s.agenda with
  | [] => .next (blockMove s)
  | e :: rest => handle e { s with agenda := rest }

/-- The state with a write of the command byte `b` as the host's next action, and the block idle so that it is accepted
(10_state.md R28; log 2). -/
def placeCommand (b : Byte) (s : State) : State :=
  { s with agenda := .host (.command b) :: s.agenda, status := statusIdle s.status, job := none }

end Sys2Proof.Machine
end

