-- ==== Sys2Proof/Machine/Script.lean ====
section
/-! DEFINITION. The three pseudo-operations as host scripts (30_encoding.md R97, R98). -/

namespace Sys2Proof.Machine

/-- The variant code of an AEAD variant (30_encoding.md R92). -/
def aeadCode : AeadVariant → BitVec 4
  | .ascon128 => 0
  | .ascon128a => 1
  | .ascon80pq => 2

/-- The variant code of a hash variant (30_encoding.md R93). -/
def hashCode : HashVariant → BitVec 4
  | .hash => 0
  | .hasha => 1
  | .xof => 2
  | .xofa => 3

/-- A length as the host reports it in a register of `w` bits: its true value, or the largest value when it does not fit
(92_eei_decisions.md D9, D26; DESIGN CHOICE, log 14). -/
def reportLength (w n : Nat) : BitVec w := BitVec.ofNat w (min n (2 ^ w - 1))

/-- The lines that hand over the key, the nonce, the associated data and the input (30_encoding.md R98). -/
def loadLines (K N : List Byte) (A : Option (List Byte)) (D : List Byte) : List HostAction :=
  [.wrBytes .key K, .wr8 .klen (reportLength 8 K.length),
   .wrBytes .nonce N, .wr8 .nlen (reportLength 8 N.length)]
  ++ (match A with
      | some a => [.wrBytes .ad a, .wr32 .adlen (reportLength 32 a.length)]
      | none => [.wr32 .adlen 0])
  ++ [.wrBytes .din D, .wr32 .dlen (reportLength 32 D.length)]

/-- The pseudo-operation `encrypt(key, nonce, pt, variant, ad)` (30_encoding.md R98). -/
def scriptEncrypt (v : AeadVariant) (K N : List Byte) (A : Option (List Byte)) (M : List Byte) : List HostAction :=
  loadLines K N A M ++ [.command (encodeByte (.encrypt (aeadCode v))), .wait, .rdResult]

/-- The pseudo-operation `decrypt` (30_encoding.md R98): `DIN = ciphertext ‖ tag`. -/
def scriptDecrypt (v : AeadVariant) (K N : List Byte) (A : Option (List Byte)) (CT : List Byte) : List HostAction :=
  loadLines K N A CT ++ [.command (encodeByte (.decrypt (aeadCode v))), .wait, .rdResult]

/-- The pseudo-operation `hash(msg, variant, length)` (30_encoding.md R98). -/
def scriptHash (v : HashVariant) (n : Nat) (Msg : List Byte) : List HostAction :=
  [.wrBytes .din Msg, .wr32 .dlen (reportLength 32 Msg.length), .wr32 .hlen (reportLength 32 n),
   .command (encodeByte (.hash (hashCode v))), .wait, .rdResult]

/-- The state with a host script as the whole agenda. -/
def withScript (script : List HostAction) (s : State) : State := { s with agenda := script.map .host }

end Sys2Proof.Machine
end

