-- ==== Sys2Proof/Machine/Step.lean ====
section
/-! DEFINITION. The step of the machine, and the state whose next step runs a given command. Both only call
Sys2Proof/Machine/HostPort.lean. -/

namespace Sys2Proof.Machine

/-- One step: the oldest event of the agenda, or the block's own move when there is none. -/
def step (s : State) : Host.Outcome State Fault Refusal := advance s

/-- The state whose next step runs the command with the bits of a row of spec/opcode_table.json. -/
def State.withFetchWord (s : State) (nbits w : Nat) : State := placeCommand (BitVec.ofNat 8 (w % 2 ^ nbits)) s

end Sys2Proof.Machine
end

