-- ==== Sys2Proof/Safety.lean ====
section
/-! DEFINITION. What counts as a sound state of the machine, in the terms the statements use: the block at rest, the forms of memory, of
`STATUS` and of the hidden registers that every step keeps, and the inputs a command reads. -/

namespace Sys2Proof.Machine

/-- The block is at rest: `BUSY = 0` and no command in progress. -/
abbrev Idle (s : State) : Prop := s.busy = false ∧ s.job = none

/-- The three buffers are in canonical form. -/
abbrev MemoryForm (s : State) : Prop := Memory.wf s.ad ∧ Memory.wf s.din ∧ Memory.wf s.dout

/-- The form of `STATUS` and `OLEN` (10_state.md R29, R35, 60_exceptions.md R231, R236): reserved bits 0, never both `BUSY` and `DONE`, no code
above 10, `BUSY` exactly while a command is in progress, no report and no result before `DONE`, no result
beside an error. -/
abbrev StatusForm (s : State) : Prop :=
  s.status.extractLsb' 2 2 = 0#2 ∧ (s.busy && s.done) = false ∧ s.err.toNat ≤ 10 ∧ s.busy = s.job.isSome
    ∧ (s.done = false → s.err = 0#4 ∧ s.olen = 0#32) ∧ (s.err ≠ 0#4 → s.olen = 0#32)

/-- The block is not inside an engine command: it is at rest or runs `PERMUTE`. -/
def outsideEngines (s : State) : Bool :=
  match s.job with
  | none => true
  | some ⟨.permute, _⟩ => true
  | some ⟨.aead _ _ _, _⟩ => false
  | some ⟨.hash _ _, _⟩ => false

/-- The hidden registers at rest (10_state.md R40, R42; log 10): `phase` is `Uninitialized` or `Finalized` and `tagc` is clear outside the
engine commands, and the loop indices are 0 when no command is in progress. -/
abbrev RestForm (s : State) : Prop :=
  (outsideEngines s = true →
      s.tagc = Vector.replicate 16 0 ∧ (s.phase = .uninitialized ∨ s.phase = .finalized))
    ∧ (s.job = none → s.roundIdx = 0 ∧ s.blockIdx = 0 ∧ s.outCount = 0)

/-- Which phases a task may be in (the table of 10_state.md R40). -/
def phaseFits : Task → Phase → Bool
  | .aead _ _ .load, ph => ph = .uninitialized
  | .aead _ _ .keyXor, ph => ph = .uninitialized
  | .aead _ _ .absorb, ph => ph = .initialized || ph = .absorbingAD
  | .aead _ _ .domain, ph => ph = .absorbingAD
  | .aead _ _ .duplex, ph => ph = .duplexing
  | .aead _ _ .inject, ph => ph = .duplexing
  | .aead _ _ .tag, ph => ph = .duplexing
  | .aead _ _ .finish, ph => ph = .duplexing
  | .hash _ .load, ph => ph = .uninitialized
  | .hash _ .ready, ph => ph = .uninitialized
  | .hash _ .absorb, ph => ph = .initialized || ph = .absorbingMessage
  | .hash _ .squeeze, ph => ph = .absorbingMessage || ph = .squeezing
  | .hash _ .finish, ph => ph = .squeezing
  | .permute, ph => ph = .uninitialized || ph = .finalized

/-- The lengths a command in progress was validated with (60_exceptions.md R241); the host cannot change them while it runs
(70_reset_and_hazards.md R278). -/
def lengthsFit (s : State) : Task → Bool
  | .aead dir v _ =>
    s.klen.toNat = (aeadParams v).klen && s.nlen.toNat = nonceBytes && s.adlen.toNat ≤ s.caps.ad
      && s.dlen.toNat ≤ s.caps.din && (dir = .encrypt || tagBytes ≤ s.dlen.toNat)
  | .hash v _ => s.dlen.toNat ≤ s.caps.din && digestLen s v ≤ s.caps.dout
  | .permute => true

/-- How far the output of a task in progress has come (10_state.md R41): the block index stays within its loop and the
count of output bytes follows it. -/
def progressFits (s : State) : Task → Bool
  | .aead dir v .duplex =>
    s.blockIdx ≤ duplexLen dir s / rateLen (aeadParams v).rate
      && s.outCount = s.blockIdx * rateLen (aeadParams v).rate
  | .aead dir _ .inject => s.outCount = duplexLen dir s
  | .aead dir _ .tag => s.outCount = duplexLen dir s
  | .aead dir _ .finish => s.outCount = duplexLen dir s
  | .aead _ _ .load => s.outCount = 0
  | .aead _ _ .keyXor => s.outCount = 0
  | .aead _ _ .absorb => s.outCount = 0
  | .aead _ _ .domain => s.outCount = 0
  | .hash v .squeeze => s.outCount = min (digestLen s v) (8 * s.blockIdx)
  | .hash v .finish => s.outCount = digestLen s v
  | .hash _ .load => s.outCount = 0
  | .hash _ .ready => s.outCount = 0
  | .hash _ .absorb => s.outCount = 0
  | .permute => s.outCount = 0

/-- A command in progress is in the phase its stage belongs to, with the lengths it was validated with, within its loops, and its
round index is 0..11 while a permutation is under way (10_state.md R40, R41). -/
abbrev JobForm (s : State) : Prop :=
  ∀ j ∈ s.job,
    phaseFits j.task s.phase = true ∧ lengthsFit s j.task = true ∧ progressFits s j.task = true
      ∧ (j.permuting = true → s.roundIdx ≤ 11)

/-- Every stored byte lies inside its buffer, and the result fits (00_scope.md R10, 60_exceptions.md R235). -/
abbrev RoomForm (s : State) : Prop :=
  s.caps.Legal ∧ (∀ c ∈ s.ad, c.1 < s.caps.ad) ∧ (∀ c ∈ s.din, c.1 < s.caps.din)
    ∧ (∀ c ∈ s.dout, c.1 < s.caps.dout) ∧ s.olen.toNat ≤ s.caps.dout

/-- Every output byte that counts has been written by the block: the readable ones (10_state.md R37), and those a command in progress has
produced. So no draw is ever released. -/
abbrev OutputForm (s : State) : Prop :=
  (∀ i < s.olen.toNat, (Memory.read? s.dout i).isSome = true)
    ∧ (∀ i < s.outCount, (Memory.read? s.dout i).isSome = true)

/-- The invariant of the machine. -/
abbrev Sound (s : State) : Prop :=
  MemoryForm s ∧ StatusForm s ∧ RestForm s ∧ JobForm s ∧ RoomForm s ∧ OutputForm s

/-- The host actions that may write something: registers, words, buffers. A `CMD` write is not one of them. -/
def isHostWrite : HostAction → Bool
  | .wr8 r _ => r ≠ .cmd
  | .wr32 _ _ => true
  | .wrWord _ _ => true
  | .wrByte _ _ _ => true
  | .wrBytes _ _ => true
  | .command _ => false
  | .begin _ => false
  | .wait => false
  | .rd8 _ => false
  | .rd32 _ => false
  | .rdWord _ => false
  | .rdByte _ _ => false
  | .rdBytes _ _ => false
  | .rdResult => false

/-- The host actions that read: `RD`, `RDB`, and the last line of a pseudo-operation. -/
def isHostRead : HostAction → Bool
  | .wr8 _ _ => false
  | .wr32 _ _ => false
  | .wrWord _ _ => false
  | .wrByte _ _ _ => false
  | .wrBytes _ _ => false
  | .command _ => false
  | .begin _ => false
  | .wait => false
  | .rd8 _ => true
  | .rd32 _ => true
  | .rdWord _ => true
  | .rdByte _ _ => true
  | .rdBytes _ _ => true
  | .rdResult => true

/-- The host actions that write `CMD`, in either grain. -/
def isCommand : HostAction → Bool
  | .wr8 r _ => r = .cmd
  | .wr32 _ _ => false
  | .wrWord _ _ => false
  | .wrByte _ _ _ => false
  | .wrBytes _ _ => false
  | .command _ => true
  | .begin _ => true
  | .wait => false
  | .rd8 _ => false
  | .rd32 _ => false
  | .rdWord _ => false
  | .rdByte _ _ => false
  | .rdBytes _ _ => false
  | .rdResult => false

/-- What a read by the host returns while `BUSY = 1`: `STATUS` as it is, anything else 0, as many bytes as were asked for
(70_reset_and_hazards.md R278). `rdResult` reads `STATUS` there by the model's choice (log 15). -/
def seenWhileBusy (s : State) : HostAction → List Observation
  | .rd8 r => [.reg8 r (match r with
      | .cmd => 0
      | .status => s.status
      | .klen => 0
      | .nlen => 0)]
  | .rd32 r => [.reg32 r 0]
  | .rdWord i => [.word i 0]
  | .rdByte sp i => [.bytes sp i [0]]
  | .rdBytes sp n => [.bytes sp 0 (List.replicate n 0)]
  | .rdResult => [.reg8 .status s.status]
  | .wr8 _ _ => []
  | .wr32 _ _ => []
  | .wrWord _ _ => []
  | .wrByte _ _ _ => []
  | .wrBytes _ _ => []
  | .command _ => []
  | .begin _ => []
  | .wait => []

/-- The byte a read of (space, index) returns while the block is idle: the stored byte, but of `DOUT` from `OLEN` on 0 (10_state.md R37,
20_memory.md R60). -/
def byteAtRest (s : State) (sp : Space) (i : Nat) : Byte :=
  match sp with
  | .dout => if i < s.olen.toNat then storedByte s .dout i else 0
  | .key => storedByte s .key i
  | .nonce => storedByte s .nonce i
  | .ad => storedByte s .ad i
  | .din => storedByte s .din i

/-- What a read by the host returns while the block is idle (10_state.md R23, R28 to R37, 30_encoding.md R97, R98), for a byte that
exists. -/
def seenAtRest (s : State) : HostAction → List Observation
  | .rd8 r => [.reg8 r (match r with
      | .cmd => s.cmd
      | .status => s.status
      | .klen => s.klen
      | .nlen => s.nlen)]
  | .rd32 r => [.reg32 r (match r with
      | .adlen => s.adlen
      | .dlen => s.dlen
      | .hlen => s.hlen
      | .olen => s.olen)]
  | .rdWord i => [.word i (wordAt s.S i)]
  | .rdByte sp i => [.bytes sp i [byteAtRest s sp i]]
  | .rdBytes sp n => [.bytes sp 0 ((List.range n).map (byteAtRest s sp))]
  | .rdResult =>
    if s.err = 0 then [.bytes .dout 0 ((List.range s.olen.toNat).map (storedByte s .dout))] else [.reg8 .status s.status]
  | .wr8 _ _ => []
  | .wr32 _ _ => []
  | .wrWord _ _ => []
  | .wrByte _ _ _ => []
  | .wrBytes _ _ => []
  | .command _ => []
  | .begin _ => []
  | .wait => []

/-- The bytes a read names exist (20_memory.md R60); every index of `DOUT` can be read (10_state.md R37). -/
def readExists (s : State) : HostAction → Prop
  | .rdByte sp i => sp = .dout ∨ i < spaceSize s sp
  | .rdBytes sp n => sp = .dout ∨ n ≤ spaceSize s sp
  | .rd8 _ => True
  | .rd32 _ => True
  | .rdWord _ => True
  | .rdResult => True
  | .wr8 _ _ => True
  | .wr32 _ _ => True
  | .wrWord _ _ => True
  | .wrByte _ _ _ => True
  | .wrBytes _ _ => True
  | .command _ => True
  | .begin _ => True
  | .wait => True

/-- `ENCRYPT v` runs (60_exceptions.md R241): the variant of `arg` is `v` and every check passes. -/
abbrev EncryptReady (arg : BitVec 4) (v : AeadVariant) (s : State) : Prop :=
  aeadVariant? arg = some v ∧ s.klen.toNat = (aeadParams v).klen ∧ s.nlen.toNat = 16
    ∧ s.adlen.toNat ≤ s.caps.ad ∧ s.dlen.toNat ≤ s.caps.din

/-- `DECRYPT v` runs (60_exceptions.md R241). -/
abbrev DecryptReady (arg : BitVec 4) (v : AeadVariant) (s : State) : Prop :=
  EncryptReady arg v s ∧ 16 ≤ s.dlen.toNat

/-- `HASH v` runs (60_exceptions.md R241). -/
abbrev HashReady (arg : BitVec 4) (v : HashVariant) (s : State) : Prop :=
  hashVariant? arg = some v ∧ ((hashParams v).fixed = true → s.hlen.toNat = 32)
    ∧ ((hashParams v).fixed = false → s.hlen.toNat ≤ s.caps.dout) ∧ s.dlen.toNat ≤ s.caps.din

/-- The command passes every check made before its computation (60_exceptions.md R241). -/
def CommandReady (i : Instr) (s : State) : Prop :=
  match i with
  | .encrypt arg => ∃ v, EncryptReady arg v s
  | .decrypt arg => ∃ v, DecryptReady arg v s
  | .hash arg => ∃ v, HashReady arg v s
  | .permute n => 1 ≤ n.toNat ∧ n.toNat ≤ 12

end Sys2Proof.Machine
end

