-- ==== Sys2Proof/Certificates/Slice0/Obligations.lean ====
section
/-! DEFINITION. The statements about the model, each naming the rule of spec/ it formalises. `clearLoops` in a statement says "but for
the loop indices", which have no meaning outside their loops (10_state.md R41; log 10). -/

open Sys2Proof Sys2Proof.Machine

/-! ## Encoding -/

/-- 30_encoding.md R90, R91, R94: decoding the byte of any command gives that command, with every `ARG`. -/
def Obligations.DecodeOfEncode : Prop :=
  ∀ (i : Instr) (rest : List Byte), decode (encode i ++ rest) = .command i rest

/-- 30_encoding.md R94, R95: each of the 256 bytes either is the byte of the one command it decodes to, or has a reserved `OP`
and is rejected by that name. -/
def Obligations.EveryByteHasOneReading : Prop :=
  ∀ (b : Byte) (rest : List Byte),
    (opField b ∈ [1#4, 2#4, 3#4, 4#4] ∧ ∃ i, decode (b :: rest) = .command i rest ∧ encodeByte i = b)
      ∨ (opField b ∉ [1#4, 2#4, 3#4, 4#4] ∧ decode (b :: rest) = .rejected (.reservedOp (opField b)))

/-- 30_encoding.md R94: bytes of the table, written out, and what they decode to. -/
def Obligations.TableBytesDecode : Prop :=
  decode [0x10] = .command (.encrypt 0) [] ∧ decode [0x12] = .command (.encrypt 2) []
    ∧ decode [0x21] = .command (.decrypt 1) [] ∧ decode [0x33] = .command (.hash 3) []
    ∧ decode [0x41] = .command (.permute 1) [] ∧ decode [0x4C] = .command (.permute 12) []
    ∧ decode [0x00] = .rejected (.reservedOp 0) ∧ decode [0x50] = .rejected (.reservedOp 5)
    ∧ decode [0xFF] = .rejected (.reservedOp 15) ∧ decodeTableWord 8 0x20 = some (.decrypt 0)

/-- 10_state.md R28, R29, R35, R40, 70_reset_and_hazards.md R278. When the host's next action writes a byte that decodes to `i` to `CMD`, in
either form of that write, the step is `exec i` on the state without that event if the block is not busy, and nothing but
the event's removal if it is; `withFetchWord` places exactly such an action. At the fine grain a write while busy is
ignored too; a command that passes its checks is accepted: `CMD` holds the byte, `BUSY = 1`, `DONE = 0`, `ERR = 0`, `OLEN = 0`,
`phase` is `Uninitialized` for an engine command, the command is in progress, nothing else changes (but the loop indices, log 10); any
other byte ends as at the atomic grain. The agenda, the two grains, `job` and the end of a rejected command within
the step are the model's choices (log 1, 2, 9, 11). -/
def Obligations.StepRunsTheCommand : Prop :=
  (∀ (s : State) (b : Byte) (a : HostAction) (rest : List Event) (i : Instr), a = .command b ∨ a = .wr8 .cmd b →
      s.agenda = .host a :: rest → decode [b] = .command i [] →
        step s = if s.busy then .next { s with agenda := rest } else exec i { s with agenda := rest })
    ∧ (∀ (s : State) (b : Byte) (i : Instr), decode [b] = .command i [] →
        step (s.withFetchWord 8 b.toNat) = exec i { s with status := s.status &&& 0xFE, job := none })
    ∧ ∀ (s : State) (b : Byte) (rest : List Event), s.agenda = .host (.begin b) :: rest →
        (s.busy = true → step s = .next { s with agenda := rest })
          ∧ (∀ i, s.busy = false → decode [b] = .command i [] → CommandReady i s →
              ∃ t, step s = .next t ∧ t.job.isSome = true
                ∧ clearLoops t =
                  clearLoops
                    { s with
                      agenda := rest, cmd := b, status := 0x01, olen := 0, job := t.job,
                      phase := match i with
                        | .encrypt _ => .uninitialized
                        | .decrypt _ => .uninitialized
                        | .hash _ => .uninitialized
                        | .permute _ => s.phase })
          ∧ (s.busy = false → (∀ i, decode [b] = .command i [] → ¬CommandReady i s) →
              step s = step { s with agenda := .host (.command b) :: rest })

/-- 30_encoding.md R95: a reserved `OP` completes at once with `IllegalCommand` and changes only `CMD`, `STATUS` and
`OLEN`, in either form of the `CMD` write. -/
def Obligations.ReservedOpIsIllegalCommand : Prop :=
  ∀ (s : State) (b : Byte) (a : HostAction) (rest : List Event), a = .command b ∨ a = .wr8 .cmd b →
    s.agenda = .host a :: rest → Idle s → opField b ∉ [1#4, 2#4, 3#4, 4#4] →
      step s = .next { s with agenda := rest, cmd := b, status := 0x82, olen := 0 }

/-- 30_encoding.md R96: an illegal `ARG` raises the error of its command, and only `CMD`, `STATUS` and `OLEN` change. -/
def Obligations.IllegalArgumentsRaiseTheirError : Prop :=
  ∀ (s : State) (arg : BitVec 4), Idle s →
    (3 ≤ arg.toNat →
        exec (.encrypt arg) s = .next { s with cmd := 0x1#4 ++ arg, status := 0x12, olen := 0 }
          ∧ exec (.decrypt arg) s = .next { s with cmd := 0x2#4 ++ arg, status := 0x12, olen := 0 })
      ∧ (4 ≤ arg.toNat → exec (.hash arg) s = .next { s with cmd := 0x3#4 ++ arg, status := 0x22, olen := 0 })
      ∧ (arg.toNat = 0 ∨ 13 ≤ arg.toNat →
          exec (.permute arg) s = .next { s with cmd := 0x4#4 ++ arg, status := 0x92, olen := 0 })

/-! ## Errors and completion -/

/-- 70_reset_and_hazards.md R284, R286, 10_state.md R28, R29: every command, in every state, completes: `DONE = 1`, `BUSY = 0`, the
reserved bits 0, the command byte stored. -/
def Obligations.EveryCommandCompletes : Prop :=
  ∀ (i : Instr) (s : State),
    ∃ t, exec i s = .next t ∧ t.cmd = encodeByte i ∧ t.status = t.err ++ 0x2#4 ∧ t.job = none

/-- 60_exceptions.md R241: which error a command reports, in the order of the checks; the last two columns of an AEAD command that passes
them are success and, for `DECRYPT`, `AuthenticationFailed`. -/
def Obligations.ValidationOrder : Prop :=
  ∀ s : State,
    (∀ arg : BitVec 4, ∃ t, exec (.encrypt arg) s = .next t ∧ t.err =
      if 3 ≤ arg.toNat then 1
      else if s.klen.toNat ≠ (if arg.toNat = 2 then 20 else 16) then 3
      else if s.nlen.toNat ≠ 16 then 4
      else if s.adlen.toNat > s.caps.ad ∨ s.dlen.toNat > s.caps.din then 10
      else 0)
    ∧ (∀ arg : BitVec 4, ∃ t, exec (.decrypt arg) s = .next t ∧
      if 3 ≤ arg.toNat then t.err = 1
      else if s.klen.toNat ≠ (if arg.toNat = 2 then 20 else 16) then t.err = 3
      else if s.nlen.toNat ≠ 16 then t.err = 4
      else if s.dlen.toNat < 16 then t.err = 6
      else if s.adlen.toNat > s.caps.ad ∨ s.dlen.toNat > s.caps.din then t.err = 10
      else t.err = 0 ∨ t.err = 7)
    ∧ (∀ arg : BitVec 4, ∃ t, exec (.hash arg) s = .next t ∧ t.err =
      if 4 ≤ arg.toNat then 2
      else if arg.toNat ≤ 1 ∧ s.hlen.toNat ≠ 32 then 5
      else if s.dlen.toNat > s.caps.din then 10
      else if 2 ≤ arg.toNat ∧ s.hlen.toNat > s.caps.dout then 10
      else 0)
    ∧ (∀ n : BitVec 4, ∃ t, exec (.permute n) s = .next t ∧ t.err =
      if n.toNat = 0 ∨ 13 ≤ n.toNat then 9 else 0)
    ∧ (∀ b : Byte, s.busy = false → opField b ∉ [1#4, 2#4, 3#4, 4#4] →
      ∃ t, hostAction (.command b) s = .next t ∧ t.err = 8)

/-- 60_exceptions.md R237: after a validation error (any error but `AuthenticationFailed`, code 7), for every `CMD` byte, only `CMD`,
`STATUS` and `OLEN` have changed: `CMD` holds the byte, `STATUS` is the report of R236, `OLEN` is 0, so that no byte of an
earlier result can be read. -/
def Obligations.ValidationErrorChangesOnlyTheReport : Prop :=
  ∀ (b : Byte) (s t : State), Idle s → hostAction (.command b) s = .next t → t.err ≠ 0 → t.err ≠ 7 →
    t = { s with cmd := b, status := t.err ++ 0x2#4, olen := 0 } ∧ ∀ i, hostByte t .dout i = 0

/-- 60_exceptions.md R244, 10_state.md R29: the report, the result and the stored command stay until the next accepted `CMD` write or
a reset. That `DOUT` stays on a host write to `DOUT` is the model's reading of the host column of 10_state.md R36 and
20_memory.md R60 (log 8, DEDUCED). -/
def Obligations.ReportStaysUntilNextCommand : Prop :=
  ∀ s t : State, Idle s → step s = .next t →
    (∀ e ∈ s.agenda.head?, e ≠ .reset ∧ ∀ a, e = .host a → isCommand a = false) →
      t.status = s.status ∧ t.olen = s.olen ∧ t.dout = s.dout ∧ t.cmd = s.cmd ∧ t.phase = s.phase

/-- 10_state.md R37, 60_exceptions.md R236, R240, 41_aead.md R167: while a command runs, before any has completed, and after
one that ended in an error, every host read of `DOUT` gives zeros: the read of one byte, `RDB`, and the last line of a
pseudo-operation, which returns `STATUS` or no byte at all. That the last line returns `STATUS` while `BUSY = 1` is the model's choice
(log 15). -/
def Obligations.NothingReleasedWithoutSuccess : Prop :=
  ∀ (s : State) (a : HostAction) (rest : List Event), StatusForm s → s.agenda = .host a :: rest →
    (s.busy = true ∨ s.done = false ∨ s.err ≠ 0) →
      let answer (o : Observation) : Host.Outcome State Fault Refusal :=
        .next { s with agenda := rest, observed := o :: s.observed }
      (∀ i, a = .rdByte .dout i → step s = answer (.bytes .dout i [0]))
        ∧ (∀ n, a = .rdBytes .dout n → step s = answer (.bytes .dout 0 (List.replicate n 0)))
        ∧ (a = .rdResult →
            step s = if s.busy = true ∨ s.err ≠ 0 then answer (.reg8 .status s.status) else answer (.bytes .dout 0 []))

/-! ## The permutation -/

/-- 40_permutation.md R122: the constant and the one word it changes; `c(r) < 0x100`, its high nibble is `0xf - r`, its low nibble
`r`, and the table. -/
def Obligations.AddConstantChangesWordTwo : Prop :=
  (∀ (r : Nat) (S : Words5), r ≤ 11 →
      addConstant r S = { S with s2 := S.s2 ^^^ BitVec.ofNat 64 (0xf0 - r * 0x10 + r) }
        ∧ (addConstant r S).s2 >>> 8 = S.s2 >>> 8
        ∧ roundConst r < 0x100 ∧ roundConst r / 16 = 0xf - r ∧ roundConst r % 16 = r)
    ∧ (List.range 12).map roundConst
        = [0xf0, 0xe1, 0xd2, 0xc3, 0xb4, 0xa5, 0x96, 0x87, 0x78, 0x69, 0x5a, 0x4b]

/-- 40_permutation.md R126: the substitution layer is 64 copies of one 5-bit function, whose table is listed; the bit of
`S[0]` is the most significant of the lane. -/
def Obligations.SubstitutionIsLaneByLane : Prop :=
  let lane (S : Words5) (j : Nat) : Nat :=
    16 * (S.s0.getLsbD j).toNat + 8 * (S.s1.getLsbD j).toNat + 4 * (S.s2.getLsbD j).toNat
      + 2 * (S.s3.getLsbD j).toNat + (S.s4.getLsbD j).toNat
  ∀ (S : Words5) (j : Nat), j < 64 →
    some (lane (substitute S) j) =
      [0x04, 0x0b, 0x1f, 0x14, 0x1a, 0x15, 0x09, 0x02, 0x1b, 0x05, 0x08, 0x12, 0x1d, 0x03, 0x06, 0x1c,
       0x1e, 0x13, 0x07, 0x0e, 0x00, 0x0d, 0x11, 0x18, 0x10, 0x0c, 0x01, 0x19, 0x16, 0x0a, 0x0f, 0x17][lane S j]?

/-- 40_permutation.md R124, 00_scope.md R14: bit `j` of each word after the linear layer is the XOR of bits `j`, `j + r1` and `j + r2`
(mod 64) of the same word before it, with the fixed amounts. -/
def Obligations.DiffusionBitByBit : Prop :=
  ∀ (S : Words5) (i : Fin 5) (j : Nat), j < 64 →
    let r : Nat × Nat := match i with
      | 0 => (19, 28)
      | 1 => (61, 39)
      | 2 => (1, 6)
      | 3 => (10, 17)
      | 4 => (7, 41)
    (wordAt (diffuse S) i).getLsbD j =
      ((wordAt S i).getLsbD j ^^ (wordAt S i).getLsbD ((j + r.1) % 64) ^^ (wordAt S i).getLsbD ((j + r.2) % 64))

/-- 40_permutation.md R121, R125: `P(S, n)` is the rounds with index `12 - n` to `11`, in that order, each on the result of the one before;
it is not the first `n` rounds of `P(S, 12)`; and a round is the three layers in their order. -/
def Obligations.PermutationCountsFromTheEnd : Prop :=
  let rounds (first n : Nat) (S : Words5) : Words5 := (List.range' first n).foldl (fun T r => round r T) S
  (∀ (r : Nat) (S : Words5), round r S = diffuse (substitute (addConstant r S)))
    ∧ (∀ (n : Nat) (S : Words5), 1 ≤ n → n ≤ 12 → perm n S = rounds (12 - n) n S)
    ∧ ∀ n, 1 ≤ n → n ≤ 11 → ∃ S, perm n S ≠ rounds 0 n S

/-- 40_permutation.md R130: each layer, each round and every `P(., n)` is a bijection of the 320-bit state. -/
def Obligations.PermutationIsBijective : Prop :=
  (∀ r, r ≤ 11 → Function.Bijective (addConstant r)) ∧ Function.Bijective substitute ∧ Function.Bijective diffuse
    ∧ (∀ r, r ≤ 11 → Function.Bijective (round r))
    ∧ ∀ n, 1 ≤ n → n ≤ 12 → Function.Bijective (perm n)

/-- 40_permutation.md R128: `PERMUTE n` runs `P(S, n)` for 1..12 and writes nothing else but the report; other counts raise `InvalidRounds`
before `S` is touched. -/
def Obligations.PermuteRuns : Prop :=
  ∀ (s : State) (n : BitVec 4), Idle s →
    (1 ≤ n.toNat ∧ n.toNat ≤ 12 →
        ∃ t, exec (.permute n) s = .next t ∧
          clearLoops t =
            clearLoops { s with S := perm n.toNat s.S, cmd := 0x4#4 ++ n, status := 0x02, olen := 0 })
      ∧ (n.toNat = 0 ∨ 13 ≤ n.toNat →
          exec (.permute n) s = .next { s with cmd := 0x4#4 ++ n, status := 0x92, olen := 0 })

/-! ## Bytes, words, padding -/

/-- 00_scope.md R13: `be64` is the big-endian sum, `bytes8` its inverse given byte by byte, `words5` cuts 40 bytes into five words,
`be32` is the 4-byte big-endian encoding. -/
def Obligations.BigEndianConversions : Prop :=
  (∀ b : List Byte, b.length = 8 →
      (be64 b).toNat = ((List.range 8).map fun j => (b.getD j 0).toNat * 2 ^ (8 * (7 - j))).sum ∧ bytes8 (be64 b) = b)
    ∧ (∀ w : Word, (bytes8 w).length = 8 ∧ be64 (bytes8 w) = w
        ∧ ∀ j, j < 8 → (bytes8 w)[j]? = some (w.extractLsb (63 - 8 * j) (56 - 8 * j) |>.setWidth 8))
    ∧ (∀ (b : List Byte) (i : Fin 5), b.length = 40 → wordAt (words5 b) i = be64 ((b.drop (8 * i)).take 8))
    ∧ ∀ n, n < 2 ^ 32 → (be32 n).length = 4 ∧ ((be32 n).foldl (fun acc x => acc * 256 + x.toNat) 0) = n

/-- 00_scope.md R16: the padded sequence is the sequence, one byte 0x80 and zeros; its length is the smallest multiple of the rate that
is greater, `len div rate + 1` blocks. -/
def Obligations.PaddingAlwaysAddsAByte : Prop :=
  ∀ (b : List Byte) (rate : Rate),
    (pad b rate).length = (b.length / rateLen rate + 1) * rateLen rate
      ∧ b.length < (pad b rate).length ∧ (pad b rate).length ≤ b.length + rateLen rate
      ∧ (pad b rate).take b.length = b ∧ (pad b rate)[b.length]? = some 0x80
      ∧ ∀ i, b.length < i → i < (pad b rate).length → (pad b rate)[i]? = some 0

/-- 20_memory.md R67: a full block is the data bytes unchanged, the last block the remaining bytes, 0x80 and zeros; every block has `rate`
bytes. -/
def Obligations.LoadBlockPadsTheLastBlock : Prop :=
  ∀ (s : State) (sp : Space) (len : Nat) (rate : Rate) (i : Nat),
    (i ≤ len / rateLen rate → (loadBlock s sp len rate i).length = rateLen rate)
      ∧ (i < len / rateLen rate → loadBlock s sp len rate i = memRead s sp (i * rateLen rate) (rateLen rate))
      ∧ (i = len / rateLen rate →
          loadBlock s sp len rate i =
            memRead s sp (i * rateLen rate) (len % rateLen rate)
              ++ 0x80 :: List.replicate (rateLen rate - len % rateLen rate - 1) 0)

/-! ## The AEAD engine -/

/-- 41_aead.md R153: the loaded state of every variant, spelled out. -/
def Obligations.AeadInitialState : Prop :=
  ∀ K N : List Byte, N.length = 16 →
    (K.length = 16 →
        (aeadBuffer (aeadParams .ascon128) K N).length = 40 ∧ (aeadBuffer (aeadParams .ascon128a) K N).length = 40
          ∧ words5 (aeadBuffer (aeadParams .ascon128) K N) =
            ⟨0x80400c0600000000, be64 (slice K 0 8), be64 (slice K 8 16), be64 (slice N 0 8), be64 (slice N 8 16)⟩
          ∧ words5 (aeadBuffer (aeadParams .ascon128a) K N) =
            ⟨0x80800c0800000000, be64 (slice K 0 8), be64 (slice K 8 16), be64 (slice N 0 8), be64 (slice N 8 16)⟩)
      ∧ (K.length = 20 →
          (aeadBuffer (aeadParams .ascon80pq) K N).length = 40
            ∧ words5 (aeadBuffer (aeadParams .ascon80pq) K N) =
              ⟨be64 ([0xa0, 0x40, 0x0c, 0x06] ++ slice K 0 4), be64 (slice K 4 12), be64 (slice K 12 20),
                be64 (slice N 0 8), be64 (slice N 8 16)⟩)

/-- 41_aead.md R154: `P(S, 12)` of the loaded state, then the key XORed into its end, spelled out for both key lengths; only the low
32 bits of `S[2]` change for the 20-byte key. -/
def Obligations.AeadInitXorsTheKey : Prop :=
  ∀ (v : AeadVariant) (K N : List Byte), K.length = (aeadParams v).klen →
    let T := perm 12 (words5 (aeadBuffer (aeadParams v) K N))
    (K.length = 16 →
        aeadInit (aeadParams v) K N =
          { T with s3 := T.s3 ^^^ be64 (slice K 0 8), s4 := T.s4 ^^^ be64 (slice K 8 16) })
      ∧ (K.length = 20 →
          aeadInit (aeadParams v) K N =
              { T with
                s2 := T.s2 ^^^ be64 (zeros 4 ++ slice K 0 4), s3 := T.s3 ^^^ be64 (slice K 4 12),
                s4 := T.s4 ^^^ be64 (slice K 12 20) }
            ∧ (aeadInit (aeadParams v) K N).s2 >>> 32 = T.s2 >>> 32)

/-- 41_aead.md R155, R156: block by block over the padded associated data, XORed into `S[0]` and, at rate 16, `S[1]`, with `P(S, b)` after
every block; no block when there is no associated data; and the domain-separation bit in any case. -/
def Obligations.AbsorbAssociatedData : Prop :=
  ∀ (b : Nat) (rate : Rate) (A : List Byte) (S : Words5),
    let p := pad A rate
    let add (T : Words5) (i : Nat) : Words5 := match rate with
      | .r8 => { T with s0 := T.s0 ^^^ be64 (slice p (i * 8) (i * 8 + 8)) }
      | .r16 =>
        { T with
          s0 := T.s0 ^^^ be64 (slice p (i * 16) (i * 16 + 8)), s1 := T.s1 ^^^ be64 (slice p (i * 16 + 8) (i * 16 + 16)) }
    let T := if A.length = 0 then S
      else (List.range (A.length / rateLen rate + 1)).foldl (fun T i => perm b (add T i)) S
    absorbAD b rate A S = { T with s4 := T.s4 ^^^ 1 }

/-- 41_aead.md R157, R158: the interior blocks, each XORed into the rate words, emitted and permuted; then the last block, XORed in, cut to
its `l` genuine bytes, not permuted; rate byte `l` takes 0x80 and the bytes above it stay. -/
def Obligations.EncryptDataBlocks : Prop :=
  ∀ (b : Nat) (rate : Rate) (M : List Byte) (S : Words5),
    let p := pad M rate
    let n := M.length / rateLen rate
    let l := M.length % rateLen rate
    let add (T : Words5) (i : Nat) : Words5 := match rate with
      | .r8 => { T with s0 := T.s0 ^^^ be64 (slice p (i * 8) (i * 8 + 8)) }
      | .r16 =>
        { T with
          s0 := T.s0 ^^^ be64 (slice p (i * 16) (i * 16 + 8)), s1 := T.s1 ^^^ be64 (slice p (i * 16 + 8) (i * 16 + 16)) }
    let inner := (List.range n).foldl
      (fun (acc : Words5 × List Byte) i => (perm b (add acc.1 i), acc.2 ++ ratebytes (add acc.1 i) rate)) (S, [])
    let last := add inner.1 n
    encryptData b rate M S = (last, inner.2 ++ (ratebytes last rate).take l)
      ∧ (encryptData b rate M S).2.length = M.length
      ∧ (ratebytes last rate)[l]? = some ((ratebytes inner.1 rate).getD l 0 ^^^ 0x80)
      ∧ ∀ i, l < i → (ratebytes last rate)[i]? = (ratebytes inner.1 rate)[i]?

/-- 41_aead.md R159, R161: the interior blocks, each giving plaintext, overwriting the rate words with the ciphertext and permuted; then
the tail's `l` plaintext bytes. -/
def Obligations.DecryptDataBlocks : Prop :=
  ∀ (b : Nat) (rate : Rate) (C : List Byte) (S : Words5),
    let n := C.length / rateLen rate
    let inner := (List.range n).foldl
      (fun (acc : Words5 × List Byte) i =>
        let Ci := blockAt C rate i
        (perm b (setrate acc.1 rate Ci), acc.2 ++ xorBytes (ratebytes acc.1 rate) Ci)) (S, [])
    let Ct := C.drop (n * rateLen rate)
    (decryptData b rate C S).2 = inner.2 ++ xorBytes (ratebytes inner.1 rate) Ct
      ∧ (decryptData b rate C S).2.length = C.length
      ∧ (decryptData b rate C S).1 = setrate inner.1 rate (tailRate (ratebytes inner.1 rate) Ct)

/-- 41_aead.md R162: the state after the tail, in bytes and in words. In bytes: the ciphertext tail, the old byte `l` XOR 0x80, the old bytes.
In words: the word that holds rate byte `l` keeps its unread bytes under the mask, takes the ciphertext and the marker
byte; for rate 16 the other word is overwritten when `l >= 8` and unchanged when `l < 8`. -/
def Obligations.DecryptTailInWordForm : Prop :=
  ∀ (S : Words5) (Ct : List Byte),
    let mask (l : Nat) : Word := 0xFFFFFFFFFFFFFFFF >>> (8 * (l % 8))
    let padw (l : Nat) : Word := 0x80 <<< (8 * (7 - l % 8))
    let l := Ct.length
    (∀ rate, l < rateLen rate →
        let R := ratebytes S rate
        let T := ratebytes (setrate S rate (tailRate R Ct)) rate
        T.take l = Ct ∧ T[l]? = some (R.getD l 0 ^^^ 0x80) ∧ ∀ i, l < i → T[i]? = R[i]?)
      ∧ (l < 8 →
        setrate S .r8 (tailRate (ratebytes S .r8) Ct) =
          { S with s0 := be64 (Ct ++ zeros (8 - l)) ^^^ (S.s0 &&& mask l) ^^^ padw l }
        ∧ setrate S .r16 (tailRate (ratebytes S .r16) Ct) =
          { S with s0 := be64 (Ct ++ zeros (8 - l)) ^^^ (S.s0 &&& mask l) ^^^ padw l })
      ∧ (8 ≤ l → l < 16 →
          setrate S .r16 (tailRate (ratebytes S .r16) Ct) =
            { S with
              s0 := be64 (Ct.take 8),
              s1 := be64 (Ct.drop 8 ++ zeros (16 - l)) ^^^ (S.s1 &&& mask l) ^^^ padw l })

/-- 41_aead.md R163: `DecryptData` of what `EncryptData` emitted gives the plaintext back and ends in the same state, for every state,
rate, round count and plaintext. -/
def Obligations.DecryptDataInvertsEncryptData : Prop :=
  ∀ (S : Words5) (rate : Rate) (b : Nat) (M : List Byte),
    decryptData b rate (encryptData b rate M S).2 S = ((encryptData b rate M S).1, M)

/-- 41_aead.md R164, R165: the words the key is injected into, `P(S, 12)`, and the tag of the last 16 key bytes. -/
def Obligations.FinalizeSpelledOut : Prop :=
  ∀ (K : List Byte) (S : Words5),
    (K.length = 16 →
        injectKey .r8 K S = { S with s1 := S.s1 ^^^ be64 (slice K 0 8), s2 := S.s2 ^^^ be64 (slice K 8 16) }
          ∧ injectKey .r16 K S = { S with s2 := S.s2 ^^^ be64 (slice K 0 8), s3 := S.s3 ^^^ be64 (slice K 8 16) }
          ∧ tagOf K S = bytes8 (S.s3 ^^^ be64 (slice K 0 8)) ++ bytes8 (S.s4 ^^^ be64 (slice K 8 16)))
      ∧ (K.length = 20 →
          injectKey .r8 K S =
              { S with
                s1 := S.s1 ^^^ be64 (slice K 0 8), s2 := S.s2 ^^^ be64 (slice K 8 16),
                s3 := S.s3 ^^^ be64 (slice K 16 20 ++ zeros 4) }
            ∧ tagOf K S = bytes8 (S.s3 ^^^ be64 (slice K 4 12)) ++ bytes8 (S.s4 ^^^ be64 (slice K 12 20)))
      ∧ ∀ v, finalize (aeadParams v) K S =
          let T := perm 12 (injectKey (aeadParams v).rate K S)
          (T, tagOf K T)

/-- 41_aead.md R150, R166, 10_state.md R24, R35, R42, 20_memory.md R62: an `ENCRYPT` that passes its checks completes: `DOUT[0 .. DLEN+15]` is
ciphertext, then tag, no other byte of `DOUT` changes, `OLEN = DLEN + 16`, `S` and `tagc` are cleared, `phase` is
`Finalized`, and nothing else changes. -/
def Obligations.EncryptRuns : Prop :=
  ∀ (s : State) (arg : BitVec 4) (v : AeadVariant), Idle s → s.caps.Legal → EncryptReady arg v s →
    let p := aeadParams v
    let K := memRead s .key 0 p.klen
    let N := memRead s .nonce 0 16
    let A := memRead s .ad 0 s.adlen.toNat
    let M := memRead s .din 0 s.dlen.toNat
    let d := encryptData p.b p.rate M (absorbAD p.b p.rate A (aeadInit p K N))
    let result := d.2 ++ (finalize p K d.1).2
    result.length = s.dlen.toNat + 16 ∧
    ∃ t, exec (.encrypt arg) s = .next t
      ∧ (∀ i, i < s.dlen.toNat + 16 → Memory.read? t.dout i = result[i]?)
      ∧ (∀ i, s.dlen.toNat + 16 ≤ i → Memory.read? t.dout i = Memory.read? s.dout i)
      ∧ t.olen.toNat = s.dlen.toNat + 16
      ∧ clearLoops t =
        clearLoops
          { s with
            S := ⟨0, 0, 0, 0, 0⟩, cmd := 0x1#4 ++ arg, status := 0x02, olen := t.olen, dout := t.dout,
            phase := .finalized, tagc := Vector.replicate 16 0 }

/-- 41_aead.md R151, R167, 10_state.md R24, R35: a `DECRYPT` whose candidate tag equals the received tag completes with the plaintext
in `DOUT[0 .. DLEN-17]` and `OLEN = DLEN - 16`; nothing else of `DOUT` changes. -/
def Obligations.DecryptReleasesAuthenticPlaintext : Prop :=
  ∀ (s : State) (arg : BitVec 4) (v : AeadVariant), Idle s → s.caps.Legal → DecryptReady arg v s →
    let p := aeadParams v
    let K := memRead s .key 0 p.klen
    let N := memRead s .nonce 0 16
    let A := memRead s .ad 0 s.adlen.toNat
    let C := memRead s .din 0 (s.dlen.toNat - 16)
    let d := decryptData p.b p.rate C (absorbAD p.b p.rate A (aeadInit p K N))
    d.2.length = s.dlen.toNat - 16 ∧
    ((finalize p K d.1).2 = memRead s .din (s.dlen.toNat - 16) 16 →
      ∃ t, exec (.decrypt arg) s = .next t
        ∧ (∀ i, i < s.dlen.toNat - 16 → Memory.read? t.dout i = d.2[i]?)
        ∧ (∀ i, s.dlen.toNat - 16 ≤ i → Memory.read? t.dout i = Memory.read? s.dout i)
        ∧ t.olen.toNat = s.dlen.toNat - 16
        ∧ clearLoops t =
          clearLoops
            { s with
              S := ⟨0, 0, 0, 0, 0⟩, cmd := 0x2#4 ++ arg, status := 0x02, olen := t.olen, dout := t.dout,
              phase := .finalized, tagc := Vector.replicate 16 0 })

/-- 60_exceptions.md R240, 41_aead.md R167: a `DECRYPT` whose candidate tag differs ends with `AuthenticationFailed`: the candidate bytes in
`DOUT` are zeros, `OLEN = 0`, `S` and `tagc` are cleared, `phase` is `Finalized`, the inputs are unchanged, and every byte of `DOUT` reads
as 0. -/
def Obligations.DecryptRejectsForgedInput : Prop :=
  ∀ (s : State) (arg : BitVec 4) (v : AeadVariant), Idle s → DecryptReady arg v s →
    let p := aeadParams v
    let K := memRead s .key 0 p.klen
    let N := memRead s .nonce 0 16
    let A := memRead s .ad 0 s.adlen.toNat
    let C := memRead s .din 0 (s.dlen.toNat - 16)
    let d := decryptData p.b p.rate C (absorbAD p.b p.rate A (aeadInit p K N))
    (finalize p K d.1).2 ≠ memRead s .din (s.dlen.toNat - 16) 16 →
      ∃ t, exec (.decrypt arg) s = .next t
        ∧ (∀ i, i < s.dlen.toNat - 16 → Memory.read? t.dout i = some 0)
        ∧ (∀ i, s.dlen.toNat - 16 ≤ i → Memory.read? t.dout i = Memory.read? s.dout i)
        ∧ (∀ i, hostByte t .dout i = 0)
        ∧ clearLoops t =
          clearLoops
            { s with
              S := ⟨0, 0, 0, 0, 0⟩, cmd := 0x2#4 ++ arg, status := 0x72, olen := 0, dout := t.dout,
              phase := .finalized, tagc := Vector.replicate 16 0 }

/-- 41_aead.md R167, 60_exceptions.md R240 (the source's property V3c, tag part): if an input decrypts, the same input with any other
received tag fails with `AuthenticationFailed`. -/
def Obligations.AnyOtherTagFails : Prop :=
  ∀ (s : State) (din : Memory) (arg : BitVec 4) (v : AeadVariant) (t : State), DecryptReady arg v s →
    exec (.decrypt arg) s = .next t → t.err = 0 →
    (∀ i, i < s.dlen.toNat - 16 → storedByte { s with din := din } .din i = storedByte s .din i) →
    (∃ i, s.dlen.toNat - 16 ≤ i ∧ i < s.dlen.toNat ∧ storedByte { s with din := din } .din i ≠ storedByte s .din i) →
      ∃ u, exec (.decrypt arg) { s with din := din } = .next u ∧ u.err = 7

/-- 20_memory.md R62, 70_reset_and_hazards.md R272, R281: the result of `ENCRYPT` depends on the variant, key, nonce, associated data and
plaintext alone: two states that agree on the bytes it reads give the same outcome. -/
def Obligations.EncryptReadsOnlyItsInputs : Prop :=
  ∀ (s u : State) (arg : BitVec 4) (v : AeadVariant), EncryptReady arg v s → EncryptReady arg v u →
    s.adlen = u.adlen → s.dlen = u.dlen →
    (∀ i, i < (aeadParams v).klen → storedByte s .key i = storedByte u .key i) →
    (∀ i, i < 16 → storedByte s .nonce i = storedByte u .nonce i) →
    (∀ i, i < s.adlen.toNat → storedByte s .ad i = storedByte u .ad i) →
    (∀ i, i < s.dlen.toNat → storedByte s .din i = storedByte u .din i) →
      ∃ t w, exec (.encrypt arg) s = .next t ∧ exec (.encrypt arg) u = .next w
        ∧ t.status = w.status ∧ t.olen = w.olen ∧ t.S = w.S
        ∧ ∀ i, i < s.dlen.toNat + 16 → Memory.read? t.dout i = Memory.read? w.dout i

/-- D0's property V3a through the pseudo-operations of 30_encoding.md R98 (41_aead.md R163, R167): from any state at rest, for every
variant, key, nonce, associated data and plaintext that fit the buffers, the host script of `encrypt` gives back
`len + 16` bytes, and the script of `decrypt` on them, run after it, gives back the plaintext. The script of `hash` gives back
the digest (42_hash_xof.md R200), and for a fixed-output variant asked for another length than 32 `InvalidHashLength`
(60_exceptions.md R238). The scripts as events, the record of reads and the report of a length too long for its register are the model's (log
2, 12, 14). -/
def Obligations.HostScriptsDeliverTheirResults : Prop :=
  (∀ (s : State) (v : AeadVariant) (K N : List Byte) (A : Option (List Byte)) (M : List Byte),
    Idle s → s.caps.Legal → K.length = (aeadParams v).klen → N.length = 16 →
    (∀ a ∈ A, a.length ≤ s.caps.ad) → M.length + 16 ≤ s.caps.din →
      ∃ (CT : List Byte) (t u : State),
        core.run (scriptEncrypt v K N A M).length (withScript (scriptEncrypt v K N A M) s) = .next t
          ∧ t.observed = .bytes .dout 0 CT :: s.observed ∧ CT.length = M.length + 16
          ∧ core.run (scriptDecrypt v K N A CT).length (withScript (scriptDecrypt v K N A CT) t) = .next u
          ∧ u.observed = .bytes .dout 0 M :: t.observed)
    ∧ ∀ (s : State) (v : HashVariant) (n : Nat) (Msg : List Byte), Idle s → s.caps.Legal → Msg.length ≤ s.caps.din →
      let fixed := v = .hash ∨ v = .hasha
      ((fixed → n = 32) → n ≤ s.caps.dout →
          ∃ t, core.run (scriptHash v n Msg).length (withScript (scriptHash v n Msg) s) = .next t
            ∧ t.observed = .bytes .dout 0 (digest v n Msg) :: s.observed)
        ∧ (fixed → n ≠ 32 →
          ∃ t, core.run (scriptHash v n Msg).length (withScript (scriptHash v n Msg) s) = .next t
            ∧ t.observed = .reg8 .status 0x52 :: s.observed)

/-- 10_state.md R32 (the source's property V3b): absent and empty associated data take the machine to the same state. -/
def Obligations.AbsentAndEmptyAssociatedDataAgree : Prop :=
  ∀ (s : State) (v : AeadVariant) (K N M : List Byte), Idle s →
    ∃ t, core.run (scriptEncrypt v K N none M).length (withScript (scriptEncrypt v K N none M) s) = .next t
      ∧ core.run (scriptEncrypt v K N (some []) M).length (withScript (scriptEncrypt v K N (some []) M) s) = .next t

/-- 30_encoding.md R98, 60_exceptions.md R233: a key of a wrong length, also one longer than its register, ends the script of `encrypt`
with `InvalidKeyLength` and no result. -/
def Obligations.WrongKeyLengthFailsTheScript : Prop :=
  ∀ (s : State) (v : AeadVariant) (K N : List Byte) (A : Option (List Byte)) (M : List Byte),
    Idle s → K.length ≠ (aeadParams v).klen →
      ∃ t, core.run (scriptEncrypt v K N A M).length (withScript (scriptEncrypt v K N A M) s) = .next t
        ∧ t.observed = .reg8 .status 0x32 :: s.observed ∧ t.olen = 0 ∧ t.S = s.S ∧ t.dout = s.dout

/-! ## The hash engine -/

/-- 42_hash_xof.md R201, R202: the loaded state of every variant and the state after the initializer. -/
def Obligations.HashInitialStates : Prop :=
  (∀ v, (hashBuffer (hashParams v)).length = 40)
    ∧ words5 (hashBuffer (hashParams .hash)) = ⟨0x00400c0000000100, 0, 0, 0, 0⟩
    ∧ words5 (hashBuffer (hashParams .hasha)) = ⟨0x00400c0400000100, 0, 0, 0, 0⟩
    ∧ words5 (hashBuffer (hashParams .xof)) = ⟨0x00400c0000000000, 0, 0, 0, 0⟩
    ∧ words5 (hashBuffer (hashParams .xofa)) = ⟨0x00400c0400000000, 0, 0, 0, 0⟩
    ∧ hashInit (hashParams .hash) =
      ⟨0xee9398aadb67f03d, 0x8bb21831c60f1002, 0xb48a92db98d5da62, 0x43189921b8f8e3e8, 0x348fa5c9d525e140⟩
    ∧ hashInit (hashParams .hasha) =
      ⟨0x01470194fc6528a6, 0x738ec38ac0adffa7, 0x2ec8e3296c76384c, 0xd6f6a54d7f52377d, 0xa13c42a223be8d87⟩
    ∧ hashInit (hashParams .xof) =
      ⟨0xb57e273b814cd416, 0x2b51042562ae2420, 0x66a3a7768ddf2218, 0x5aad0a7a8153650c, 0x4f3e0e32539493b6⟩
    ∧ hashInit (hashParams .xofa) =
      ⟨0x44906568b77b9832, 0xcd8d6cae53455532, 0xf7b5212756422129, 0x246885e1de0d225b, 0xa8cb5ce33449973f⟩

/-- 42_hash_xof.md R203: block by block over the padded message, `P(S, b)` after every block but the last, `P(S, a)` after the last; only
`S[0]` takes message bytes. -/
def Obligations.AbsorbMessageBlocks : Prop :=
  ∀ (p : HashParams) (Msg : List Byte) (S : Words5),
    let t := Msg.length / 8 + 1
    absorbMessage p Msg S =
      (List.range t).foldl
        (fun T i =>
          let U := { T with s0 := T.s0 ^^^ be64 (slice (pad Msg .r8) (8 * i) (8 * i + 8)) }
          if i < t - 1 then perm p.b U else perm p.a U) S

/-- 42_hash_xof.md R204: the digest is the first `n` bytes of `S[0]` of the states `S`, `P(S, b)`, `P(P(S, b), b)`, ..., and has `n`
bytes. -/
def Obligations.SqueezeEmitsWordZero : Prop :=
  ∀ (b n : Nat) (S : Words5),
    (squeeze b n S).length = n
      ∧ ∀ i, i < n → (squeeze b n S)[i]? = (bytes8 ((perm b)^[i / 8] S).s0)[i % 8]?

/-- 42_hash_xof.md R206: a shorter digest of a variable-output variant is a prefix of a longer one of the same message; and it does not
hold between a variable-output and a fixed-output variant. -/
def Obligations.XofPrefix : Prop :=
  (∀ (v : HashVariant) (Msg : List Byte) (n m : Nat), (v = .xof ∨ v = .xofa) → n ≤ m →
      digest v n Msg = (digest v m Msg).take n)
    ∧ digest .xof 32 [] ≠ digest .hash 32 []

/-- 42_hash_xof.md R200, R205, 10_state.md R24, R35, 20_memory.md R62: a `HASH` that passes its checks completes: the digest is in
`DOUT[0 .. n-1]`, `n` = 32 or `HLEN` (0 included), `OLEN = n`, and nothing but `S`, `tagc`, `phase` and the report
changes beside it. -/
def Obligations.HashRuns : Prop :=
  ∀ (s : State) (arg : BitVec 4) (v : HashVariant), Idle s → s.caps.Legal → HashReady arg v s →
    let p := hashParams v
    let n := if v = .hash ∨ v = .hasha then 32 else s.hlen.toNat
    let Msg := memRead s .din 0 s.dlen.toNat
    let H := squeeze p.b n (absorbMessage p Msg (hashInit p))
    ∃ t, exec (.hash arg) s = .next t
      ∧ (∀ i, i < n → Memory.read? t.dout i = H[i]?)
      ∧ (∀ i, n ≤ i → Memory.read? t.dout i = Memory.read? s.dout i)
      ∧ t.olen.toNat = n
      ∧ clearLoops t =
        clearLoops
          { s with
            S := ⟨0, 0, 0, 0, 0⟩, cmd := 0x3#4 ++ arg, status := 0x02, olen := t.olen, dout := t.dout,
            phase := .finalized, tagc := Vector.replicate 16 0 }

/-- 42_hash_xof.md R207, 10_state.md R27: the digest is a function of the variant, the message and the length alone: two states
that agree on them give the same outcome, whatever else they hold. -/
def Obligations.HashReadsOnlyItsInputs : Prop :=
  ∀ (s u : State) (arg : BitVec 4) (v : HashVariant), HashReady arg v s → HashReady arg v u →
    s.dlen = u.dlen → s.hlen = u.hlen →
    (∀ i, i < s.dlen.toNat → storedByte s .din i = storedByte u .din i) →
      ∃ t w, exec (.hash arg) s = .next t ∧ exec (.hash arg) u = .next w
        ∧ t.status = w.status ∧ t.olen = w.olen ∧ t.S = w.S
        ∧ ∀ i, i < digestLen s v → Memory.read? t.dout i = Memory.read? w.dout i

/-! ## The host -/

/-- 10_state.md R37: at rest a host read of `DOUT[i]`, alone or within `RDB`, gives the stored byte below `OLEN` and 0 from `OLEN`
on, and changes nothing. -/
def Obligations.DoutIsGatedByOlen : Prop :=
  ∀ (s : State) (a : HostAction) (rest : List Event), Idle s → s.agenda = .host a :: rest →
    let gated (i : Nat) : Byte := if i < s.olen.toNat then storedByte s .dout i else 0
    (∀ i, a = .rdByte .dout i →
        step s = .next { s with agenda := rest, observed := .bytes .dout i [gated i] :: s.observed })
      ∧ ∀ n, a = .rdBytes .dout n →
        step s = .next { s with agenda := rest, observed := .bytes .dout 0 ((List.range n).map gated) :: s.observed }

/-- 70_reset_and_hazards.md R278: while `BUSY = 1` a host write to anything, `CMD` included, is ignored; a read of `STATUS` returns it, and a
read of anything else returns 0, for every byte it asks for. (`WAIT` reads only `STATUS`; while the host waits the block
goes on: `AtRestNothingChanges`. What the last line of a pseudo-operation returns while busy is the model's choice, log 15:
`NothingReleasedWithoutSuccess`.) -/
def Obligations.BusyLocksTheHostOut : Prop :=
  ∀ (s : State) (a : HostAction) (rest : List Event), s.busy = true → s.agenda = .host a :: rest → a ≠ .wait →
    a ≠ .rdResult → step s = .next { s with agenda := rest, observed := seenWhileBusy s a ++ s.observed }

/-- 20_memory.md R69, 10_state.md R23, R28 to R37, 30_encoding.md R97, R98: a host read, `STATUS` included, changes nothing but what the
host has seen; while the block is idle it returns the value of the register, word or bytes it names, the byte last
written to `CMD` among them, and the last line of a pseudo-operation the `OLEN` bytes of `DOUT` or the report. The
record of what the host has seen is the model's (log 12). -/
def Obligations.ReadsReturnTheirValueAndChangeNothing : Prop :=
  ∀ (s : State) (a : HostAction) (rest : List Event), s.agenda = .host a :: rest → isHostRead a = true →
    (∀ t, step s = .next t → ∃ o, t = { s with agenda := rest, observed := o :: s.observed })
      ∧ (s.busy = false → readExists s a →
          step s = .next { s with agenda := rest, observed := seenAtRest s a ++ s.observed })

/-- 10_state.md R25, R26, R38, 70_reset_and_hazards.md R270, R273, R283: no event but a host write or a reset changes `KEY`, `NONCE`, `AD`, `DIN` or a
length register the host sets. -/
def Obligations.InputsChangeOnlyByHostOrReset : Prop :=
  ∀ s t : State, step s = .next t →
    (∀ e ∈ s.agenda.head?, e ≠ .reset ∧ ∀ a, e = .host a → isHostWrite a = false) →
      t.key = s.key ∧ t.nonce = s.nonce ∧ t.ad = s.ad ∧ t.din = s.din ∧ t.klen = s.klen ∧ t.nlen = s.nlen
        ∧ t.adlen = s.adlen ∧ t.dlen = s.dlen ∧ t.hlen = s.hlen

/-- 10_state.md R23, R29 to R35 and section 4: at rest a register write changes that register and nothing else; `STATUS` and `OLEN` ignore
it; a word write changes that word of `S`. -/
def Obligations.RegisterWritesReachTheirRegister : Prop :=
  ∀ (s : State) (v : BitVec 8) (w : BitVec 32) (x : Word) (i : Fin 5), Idle s →
    hostAction (.wr8 .klen v) s = .next { s with klen := v } ∧ hostAction (.wr8 .nlen v) s = .next { s with nlen := v }
      ∧ hostAction (.wr8 .status v) s = .next s ∧ hostAction (.wr32 .olen w) s = .next s
      ∧ hostAction (.wr32 .adlen w) s = .next { s with adlen := w }
      ∧ hostAction (.wr32 .dlen w) s = .next { s with dlen := w }
      ∧ hostAction (.wr32 .hlen w) s = .next { s with hlen := w }
      ∧ ∃ T : Words5, hostAction (.wrWord i x) s = .next { s with S := T } ∧ wordAt T i = x
        ∧ ∀ j, j ≠ i → wordAt T j = wordAt s.S j

/-- 20_memory.md R60, R61, 30_encoding.md R97: bytes the host writes to `KEY`, `NONCE`, `AD` or `DIN`, a sequence from index 0 or one byte at
an index, read back as written; every other byte of every space reads as before, and no register changes. A sequence
longer than its space is written as far as the space goes (the model's reading, log 7), and a write to `DOUT` is
ignored (the model's reading, log 8). -/
def Obligations.HostBytesReadBack : Prop :=
  ∀ (s : State) (sp : Space), Idle s →
    (∀ bs : List Byte, sp ≠ .dout → bs.length ≤ spaceSize s sp →
        ∃ t, hostAction (.wrBytes sp bs) s = .next t ∧ hostBytes t sp bs.length = bs
          ∧ (∀ sp' i, (sp' ≠ sp ∨ bs.length ≤ i) → hostByte t sp' i = hostByte s sp' i)
          ∧ t = { s with key := t.key, nonce := t.nonce, ad := t.ad, din := t.din })
      ∧ (∀ (i : Nat) (v : Byte), sp ≠ .dout → i < spaceSize s sp →
        ∃ t, hostAction (.wrByte sp i v) s = .next t ∧ hostByte t sp i = v
          ∧ (∀ sp' j, (sp' ≠ sp ∨ j ≠ i) → hostByte t sp' j = hostByte s sp' j)
          ∧ t = { s with key := t.key, nonce := t.nonce, ad := t.ad, din := t.din })
      ∧ (∀ bs : List Byte, spaceSize s sp < bs.length →
        hostAction (.wrBytes sp bs) s = hostAction (.wrBytes sp (bs.take (spaceSize s sp))) s)
      ∧ (sp = .dout →
        (∀ bs, hostAction (.wrBytes sp bs) s = .next s)
          ∧ ∀ i v, i < spaceSize s sp → hostAction (.wrByte sp i v) s = .next s)

/-! ## Reset, rest and the whole machine -/

/-- 10_state.md R43: the state after reset; a byte of `AD` or `DIN` is a draw, a host read of `DOUT` gives 0. -/
def Obligations.ResetValues : Prop :=
  State.reset.S = ⟨0, 0, 0, 0, 0⟩ ∧ State.reset.key.toList = List.replicate 20 0
    ∧ State.reset.nonce.toList = List.replicate 16 0 ∧ State.reset.cmd = 0x00 ∧ State.reset.status = 0x00
    ∧ State.reset.klen = 0 ∧ State.reset.nlen = 0 ∧ State.reset.adlen = 0 ∧ State.reset.dlen = 0
    ∧ State.reset.hlen = 32 ∧ State.reset.olen = 0 ∧ State.reset.phase = .uninitialized
    ∧ State.reset.tagc.toList = List.replicate 16 0 ∧ State.reset.roundIdx = 0 ∧ State.reset.blockIdx = 0
    ∧ State.reset.outCount = 0
    ∧ ∀ i, storedByte State.reset .ad i = Config.unwrittenByte 0 .ad i
        ∧ storedByte State.reset .din i = Config.unwrittenByte 0 .din i ∧ hostByte State.reset .dout i = 0

/-- 70_reset_and_hazards.md R270, R271: reset, also while a command runs, leaves the block as after power-on; the capacities, the host's
script and what it has seen are not the block's (the fresh draws are the model's choice, log 4). -/
def Obligations.ResetAbandonsEverything : Prop :=
  ∀ (s : State) (rest : List Event), s.agenda = .reset :: rest →
    step s = .next
      { State.reset with caps := s.caps, epoch := s.epoch + 1, agenda := rest, observed := s.observed }

/-- 70_reset_and_hazards.md R271, R286, 30_encoding.md R97: with no event to come the block moves by itself, and at rest nothing changes; a
`WAIT` ends when `DONE = 1`, and until then the block moves on under it. The agenda is the model's (log 2). -/
def Obligations.AtRestNothingChanges : Prop :=
  ∀ s : State,
    (s.agenda = [] → step s = .next (blockMove s) ∧ (s.job = none → step s = .next s))
      ∧ ∀ rest, s.agenda = .host .wait :: rest →
        step s = if s.done then .next { s with agenda := rest } else .next (blockMove s)

/-- 20_memory.md R60: the machine stops only on a host access to a byte that its space does not have, under the name of that
byte; no command stops it, and nothing is refused. -/
def Obligations.OnlyAbsentBytesStop : Prop :=
  ∀ s : State,
    (∀ r, step s ≠ .refused r)
      ∧ (∀ i, ∃ t, exec i s = .next t)
      ∧ ∀ f, step s = .fault f → s.busy = false ∧
          ∃ sp i, f = .noSuchByte sp i ∧ spaceSize s sp ≤ i ∧
            ((∃ v, s.agenda.head? = some (.host (.wrByte sp i v)))
              ∨ (sp ≠ .dout ∧ (s.agenda.head? = some (.host (.rdByte sp i))
                  ∨ ∃ n, i = spaceSize s sp ∧ i < n ∧ s.agenda.head? = some (.host (.rdBytes sp n)))))

/-- 00_scope.md R10: the capacities are parameters: no step changes them. -/
def Obligations.CapacitiesNeverChange : Prop :=
  ∀ s t : State, step s = .next t → t.caps = s.caps

/-- The canonical form of `AD`, `DIN` and `DOUT` is kept by every step. -/
def Obligations.MemoryFormKept : Prop :=
  ∀ s t : State, MemoryForm s → step s = .next t → MemoryForm t

/-- 10_state.md R29, R35, 60_exceptions.md R231, R236: the form of `STATUS` is kept by every step, of either grain: reserved bits 0, never
`BUSY` and `DONE` together, no code above 10, `BUSY` exactly while a command is in progress, no result before `DONE` or
beside an error. -/
def Obligations.StatusFormKept : Prop :=
  ∀ s t : State, StatusForm s → step s = .next t → StatusForm t

/-- 10_state.md R37, R40, R41, R42, 00_scope.md R10: the whole invariant is kept by every step: memory, status, hidden registers at rest,
phases and loops of a command in progress, capacities, and that every readable byte of `DOUT` was written by the
block. -/
def Obligations.SoundKept : Prop :=
  ∀ s t : State, Sound s → step s = .next t → Sound t

/-- 10_state.md R43: the state after reset meets the invariant. -/
def Obligations.SoundAtReset : Prop := Sound State.reset

/-! ## The fine grain -/

/-- 10_state.md R20: a command run one move at a time ends in exactly the state the atomic step gives, from every state and for
every command. Both grains are modelled by choice (log 1, 9, 11). -/
def Obligations.FineGrainAgreesWithAtomic : Prop :=
  ∀ (i : Instr) (s : State), ∃ n t, exec i s = .next t ∧ blockMoves n (beginInstr i s) = t

/-- 70_reset_and_hazards.md R284: a command in progress, from any state whatever, completes after finitely many moves. The moves are
the model's grain (log 9), and so is the end of a permutation whose round index no run reaches (log 13). -/
def Obligations.CommandInProgressCompletes : Prop :=
  ∀ s : State, s.job.isSome = true →
    ∃ n, (blockMoves n s).job = none ∧ (blockMoves n s).done = true ∧ (blockMoves n s).busy = false

/-- 10_state.md R40: a move leaves `phase` or takes it one step along the chain, and never from `Finalized`; the move that enters
`Finalized` is the one that completes the command, after the tag is made and checked or the digest is complete. The moves
are the model's grain (log 9). -/
def Obligations.PhasesAdvanceInOrder : Prop :=
  ∀ s : State, JobForm s → s.job.isSome = true →
    ((blockMove s).phase = s.phase
      ∨ (s.phase, (blockMove s).phase) ∈
        [(Phase.uninitialized, Phase.initialized), (.initialized, .absorbingAD), (.initialized, .absorbingMessage),
         (.absorbingAD, .duplexing), (.absorbingMessage, .squeezing), (.duplexing, .finalized),
         (.squeezing, .finalized)])
      ∧ ((blockMove s).phase = .finalized → s.phase ≠ .finalized →
          (blockMove s).done = true ∧ (blockMove s).job = none)
end

