-- ==== Sys2Proof/Laws/State.lean ====
section
/-! SUPPORT. One lemma per field of the state per named update, true by rfl: later proofs never unfold a record update. -/

namespace Sys2Proof.Machine

variable (s : State)

@[simp] theorem accept_S (b : Byte) : (accept b s).S = s.S := rfl
@[simp] theorem accept_key (b : Byte) : (accept b s).key = s.key := rfl
@[simp] theorem accept_nonce (b : Byte) : (accept b s).nonce = s.nonce := rfl
@[simp] theorem accept_cmd (b : Byte) : (accept b s).cmd = b := rfl
@[simp] theorem accept_status (b : Byte) : (accept b s).status = statusBusy := rfl
@[simp] theorem accept_klen (b : Byte) : (accept b s).klen = s.klen := rfl
@[simp] theorem accept_nlen (b : Byte) : (accept b s).nlen = s.nlen := rfl
@[simp] theorem accept_adlen (b : Byte) : (accept b s).adlen = s.adlen := rfl
@[simp] theorem accept_dlen (b : Byte) : (accept b s).dlen = s.dlen := rfl
@[simp] theorem accept_hlen (b : Byte) : (accept b s).hlen = s.hlen := rfl
@[simp] theorem accept_olen (b : Byte) : (accept b s).olen = 0 := rfl
@[simp] theorem accept_ad (b : Byte) : (accept b s).ad = s.ad := rfl
@[simp] theorem accept_din (b : Byte) : (accept b s).din = s.din := rfl
@[simp] theorem accept_dout (b : Byte) : (accept b s).dout = s.dout := rfl
@[simp] theorem accept_phase (b : Byte) : (accept b s).phase = s.phase := rfl
@[simp] theorem accept_tagc (b : Byte) : (accept b s).tagc = s.tagc := rfl
@[simp] theorem accept_roundIdx (b : Byte) : (accept b s).roundIdx = s.roundIdx := rfl
@[simp] theorem accept_blockIdx (b : Byte) : (accept b s).blockIdx = s.blockIdx := rfl
@[simp] theorem accept_outCount (b : Byte) : (accept b s).outCount = s.outCount := rfl
@[simp] theorem accept_job (b : Byte) : (accept b s).job = s.job := rfl
@[simp] theorem accept_caps (b : Byte) : (accept b s).caps = s.caps := rfl
@[simp] theorem accept_epoch (b : Byte) : (accept b s).epoch = s.epoch := rfl
@[simp] theorem accept_agenda (b : Byte) : (accept b s).agenda = s.agenda := rfl
@[simp] theorem accept_observed (b : Byte) : (accept b s).observed = s.observed := rfl

@[simp] theorem raiseError_S (e : ErrorKind) : (raiseError e s).S = s.S := rfl
@[simp] theorem raiseError_key (e : ErrorKind) : (raiseError e s).key = s.key := rfl
@[simp] theorem raiseError_nonce (e : ErrorKind) : (raiseError e s).nonce = s.nonce := rfl
@[simp] theorem raiseError_cmd (e : ErrorKind) : (raiseError e s).cmd = s.cmd := rfl
@[simp] theorem raiseError_status (e : ErrorKind) : (raiseError e s).status = statusError e := rfl
@[simp] theorem raiseError_klen (e : ErrorKind) : (raiseError e s).klen = s.klen := rfl
@[simp] theorem raiseError_nlen (e : ErrorKind) : (raiseError e s).nlen = s.nlen := rfl
@[simp] theorem raiseError_adlen (e : ErrorKind) : (raiseError e s).adlen = s.adlen := rfl
@[simp] theorem raiseError_dlen (e : ErrorKind) : (raiseError e s).dlen = s.dlen := rfl
@[simp] theorem raiseError_hlen (e : ErrorKind) : (raiseError e s).hlen = s.hlen := rfl
@[simp] theorem raiseError_olen (e : ErrorKind) : (raiseError e s).olen = 0 := rfl
@[simp] theorem raiseError_ad (e : ErrorKind) : (raiseError e s).ad = s.ad := rfl
@[simp] theorem raiseError_din (e : ErrorKind) : (raiseError e s).din = s.din := rfl
@[simp] theorem raiseError_dout (e : ErrorKind) : (raiseError e s).dout = s.dout := rfl
@[simp] theorem raiseError_phase (e : ErrorKind) : (raiseError e s).phase = s.phase := rfl
@[simp] theorem raiseError_tagc (e : ErrorKind) : (raiseError e s).tagc = s.tagc := rfl
@[simp] theorem raiseError_roundIdx (e : ErrorKind) : (raiseError e s).roundIdx = s.roundIdx := rfl
@[simp] theorem raiseError_blockIdx (e : ErrorKind) : (raiseError e s).blockIdx = s.blockIdx := rfl
@[simp] theorem raiseError_outCount (e : ErrorKind) : (raiseError e s).outCount = s.outCount := rfl
@[simp] theorem raiseError_job (e : ErrorKind) : (raiseError e s).job = none := rfl
@[simp] theorem raiseError_caps (e : ErrorKind) : (raiseError e s).caps = s.caps := rfl
@[simp] theorem raiseError_epoch (e : ErrorKind) : (raiseError e s).epoch = s.epoch := rfl
@[simp] theorem raiseError_agenda (e : ErrorKind) : (raiseError e s).agenda = s.agenda := rfl
@[simp] theorem raiseError_observed (e : ErrorKind) : (raiseError e s).observed = s.observed := rfl

@[simp] theorem complete_S (n : Nat) : (complete n s).S = s.S := rfl
@[simp] theorem complete_key (n : Nat) : (complete n s).key = s.key := rfl
@[simp] theorem complete_nonce (n : Nat) : (complete n s).nonce = s.nonce := rfl
@[simp] theorem complete_cmd (n : Nat) : (complete n s).cmd = s.cmd := rfl
@[simp] theorem complete_status (n : Nat) : (complete n s).status = statusDone := rfl
@[simp] theorem complete_klen (n : Nat) : (complete n s).klen = s.klen := rfl
@[simp] theorem complete_nlen (n : Nat) : (complete n s).nlen = s.nlen := rfl
@[simp] theorem complete_adlen (n : Nat) : (complete n s).adlen = s.adlen := rfl
@[simp] theorem complete_dlen (n : Nat) : (complete n s).dlen = s.dlen := rfl
@[simp] theorem complete_hlen (n : Nat) : (complete n s).hlen = s.hlen := rfl
@[simp] theorem complete_olen (n : Nat) : (complete n s).olen = BitVec.ofNat 32 n := rfl
@[simp] theorem complete_ad (n : Nat) : (complete n s).ad = s.ad := rfl
@[simp] theorem complete_din (n : Nat) : (complete n s).din = s.din := rfl
@[simp] theorem complete_dout (n : Nat) : (complete n s).dout = s.dout := rfl
@[simp] theorem complete_phase (n : Nat) : (complete n s).phase = s.phase := rfl
@[simp] theorem complete_tagc (n : Nat) : (complete n s).tagc = s.tagc := rfl
@[simp] theorem complete_roundIdx (n : Nat) : (complete n s).roundIdx = s.roundIdx := rfl
@[simp] theorem complete_blockIdx (n : Nat) : (complete n s).blockIdx = s.blockIdx := rfl
@[simp] theorem complete_outCount (n : Nat) : (complete n s).outCount = s.outCount := rfl
@[simp] theorem complete_job (n : Nat) : (complete n s).job = none := rfl
@[simp] theorem complete_caps (n : Nat) : (complete n s).caps = s.caps := rfl
@[simp] theorem complete_epoch (n : Nat) : (complete n s).epoch = s.epoch := rfl
@[simp] theorem complete_agenda (n : Nat) : (complete n s).agenda = s.agenda := rfl
@[simp] theorem complete_observed (n : Nat) : (complete n s).observed = s.observed := rfl

@[simp] theorem clearLoops_S : (clearLoops s).S = s.S := rfl
@[simp] theorem clearLoops_key : (clearLoops s).key = s.key := rfl
@[simp] theorem clearLoops_nonce : (clearLoops s).nonce = s.nonce := rfl
@[simp] theorem clearLoops_cmd : (clearLoops s).cmd = s.cmd := rfl
@[simp] theorem clearLoops_status : (clearLoops s).status = s.status := rfl
@[simp] theorem clearLoops_klen : (clearLoops s).klen = s.klen := rfl
@[simp] theorem clearLoops_nlen : (clearLoops s).nlen = s.nlen := rfl
@[simp] theorem clearLoops_adlen : (clearLoops s).adlen = s.adlen := rfl
@[simp] theorem clearLoops_dlen : (clearLoops s).dlen = s.dlen := rfl
@[simp] theorem clearLoops_hlen : (clearLoops s).hlen = s.hlen := rfl
@[simp] theorem clearLoops_olen : (clearLoops s).olen = s.olen := rfl
@[simp] theorem clearLoops_ad : (clearLoops s).ad = s.ad := rfl
@[simp] theorem clearLoops_din : (clearLoops s).din = s.din := rfl
@[simp] theorem clearLoops_dout : (clearLoops s).dout = s.dout := rfl
@[simp] theorem clearLoops_phase : (clearLoops s).phase = s.phase := rfl
@[simp] theorem clearLoops_tagc : (clearLoops s).tagc = s.tagc := rfl
@[simp] theorem clearLoops_roundIdx : (clearLoops s).roundIdx = 0 := rfl
@[simp] theorem clearLoops_blockIdx : (clearLoops s).blockIdx = 0 := rfl
@[simp] theorem clearLoops_outCount : (clearLoops s).outCount = 0 := rfl
@[simp] theorem clearLoops_job : (clearLoops s).job = s.job := rfl
@[simp] theorem clearLoops_caps : (clearLoops s).caps = s.caps := rfl
@[simp] theorem clearLoops_epoch : (clearLoops s).epoch = s.epoch := rfl
@[simp] theorem clearLoops_agenda : (clearLoops s).agenda = s.agenda := rfl
@[simp] theorem clearLoops_observed : (clearLoops s).observed = s.observed := rfl

@[simp] theorem clearEngine_S : (clearEngine s).S = zeroWords := rfl
@[simp] theorem clearEngine_key : (clearEngine s).key = s.key := rfl
@[simp] theorem clearEngine_nonce : (clearEngine s).nonce = s.nonce := rfl
@[simp] theorem clearEngine_cmd : (clearEngine s).cmd = s.cmd := rfl
@[simp] theorem clearEngine_status : (clearEngine s).status = s.status := rfl
@[simp] theorem clearEngine_klen : (clearEngine s).klen = s.klen := rfl
@[simp] theorem clearEngine_nlen : (clearEngine s).nlen = s.nlen := rfl
@[simp] theorem clearEngine_adlen : (clearEngine s).adlen = s.adlen := rfl
@[simp] theorem clearEngine_dlen : (clearEngine s).dlen = s.dlen := rfl
@[simp] theorem clearEngine_hlen : (clearEngine s).hlen = s.hlen := rfl
@[simp] theorem clearEngine_olen : (clearEngine s).olen = s.olen := rfl
@[simp] theorem clearEngine_ad : (clearEngine s).ad = s.ad := rfl
@[simp] theorem clearEngine_din : (clearEngine s).din = s.din := rfl
@[simp] theorem clearEngine_dout : (clearEngine s).dout = s.dout := rfl
@[simp] theorem clearEngine_phase : (clearEngine s).phase = .finalized := rfl
@[simp] theorem clearEngine_tagc : (clearEngine s).tagc = Vector.replicate 16 0 := rfl
@[simp] theorem clearEngine_roundIdx : (clearEngine s).roundIdx = 0 := rfl
@[simp] theorem clearEngine_blockIdx : (clearEngine s).blockIdx = 0 := rfl
@[simp] theorem clearEngine_outCount : (clearEngine s).outCount = 0 := rfl
@[simp] theorem clearEngine_job : (clearEngine s).job = s.job := rfl
@[simp] theorem clearEngine_caps : (clearEngine s).caps = s.caps := rfl
@[simp] theorem clearEngine_epoch : (clearEngine s).epoch = s.epoch := rfl
@[simp] theorem clearEngine_agenda : (clearEngine s).agenda = s.agenda := rfl
@[simp] theorem clearEngine_observed : (clearEngine s).observed = s.observed := rfl

@[simp] theorem writeDout_S (a : Nat) (v : List Byte) : (writeDout s a v).S = s.S := rfl
@[simp] theorem writeDout_key (a : Nat) (v : List Byte) : (writeDout s a v).key = s.key := rfl
@[simp] theorem writeDout_nonce (a : Nat) (v : List Byte) : (writeDout s a v).nonce = s.nonce := rfl
@[simp] theorem writeDout_cmd (a : Nat) (v : List Byte) : (writeDout s a v).cmd = s.cmd := rfl
@[simp] theorem writeDout_status (a : Nat) (v : List Byte) : (writeDout s a v).status = s.status := rfl
@[simp] theorem writeDout_klen (a : Nat) (v : List Byte) : (writeDout s a v).klen = s.klen := rfl
@[simp] theorem writeDout_nlen (a : Nat) (v : List Byte) : (writeDout s a v).nlen = s.nlen := rfl
@[simp] theorem writeDout_adlen (a : Nat) (v : List Byte) : (writeDout s a v).adlen = s.adlen := rfl
@[simp] theorem writeDout_dlen (a : Nat) (v : List Byte) : (writeDout s a v).dlen = s.dlen := rfl
@[simp] theorem writeDout_hlen (a : Nat) (v : List Byte) : (writeDout s a v).hlen = s.hlen := rfl
@[simp] theorem writeDout_olen (a : Nat) (v : List Byte) : (writeDout s a v).olen = s.olen := rfl
@[simp] theorem writeDout_ad (a : Nat) (v : List Byte) : (writeDout s a v).ad = s.ad := rfl
@[simp] theorem writeDout_din (a : Nat) (v : List Byte) : (writeDout s a v).din = s.din := rfl
@[simp] theorem writeDout_dout (a : Nat) (v : List Byte) : (writeDout s a v).dout = Memory.writeBytes s.dout a v := rfl
@[simp] theorem writeDout_phase (a : Nat) (v : List Byte) : (writeDout s a v).phase = s.phase := rfl
@[simp] theorem writeDout_tagc (a : Nat) (v : List Byte) : (writeDout s a v).tagc = s.tagc := rfl
@[simp] theorem writeDout_roundIdx (a : Nat) (v : List Byte) : (writeDout s a v).roundIdx = s.roundIdx := rfl
@[simp] theorem writeDout_blockIdx (a : Nat) (v : List Byte) : (writeDout s a v).blockIdx = s.blockIdx := rfl
@[simp] theorem writeDout_outCount (a : Nat) (v : List Byte) : (writeDout s a v).outCount = s.outCount := rfl
@[simp] theorem writeDout_job (a : Nat) (v : List Byte) : (writeDout s a v).job = s.job := rfl
@[simp] theorem writeDout_caps (a : Nat) (v : List Byte) : (writeDout s a v).caps = s.caps := rfl
@[simp] theorem writeDout_epoch (a : Nat) (v : List Byte) : (writeDout s a v).epoch = s.epoch := rfl
@[simp] theorem writeDout_agenda (a : Nat) (v : List Byte) : (writeDout s a v).agenda = s.agenda := rfl
@[simp] theorem writeDout_observed (a : Nat) (v : List Byte) : (writeDout s a v).observed = s.observed := rfl

@[simp] theorem goTo_S (t : Task) : (goTo t s).S = s.S := rfl
@[simp] theorem goTo_key (t : Task) : (goTo t s).key = s.key := rfl
@[simp] theorem goTo_nonce (t : Task) : (goTo t s).nonce = s.nonce := rfl
@[simp] theorem goTo_cmd (t : Task) : (goTo t s).cmd = s.cmd := rfl
@[simp] theorem goTo_status (t : Task) : (goTo t s).status = s.status := rfl
@[simp] theorem goTo_klen (t : Task) : (goTo t s).klen = s.klen := rfl
@[simp] theorem goTo_nlen (t : Task) : (goTo t s).nlen = s.nlen := rfl
@[simp] theorem goTo_adlen (t : Task) : (goTo t s).adlen = s.adlen := rfl
@[simp] theorem goTo_dlen (t : Task) : (goTo t s).dlen = s.dlen := rfl
@[simp] theorem goTo_hlen (t : Task) : (goTo t s).hlen = s.hlen := rfl
@[simp] theorem goTo_olen (t : Task) : (goTo t s).olen = s.olen := rfl
@[simp] theorem goTo_ad (t : Task) : (goTo t s).ad = s.ad := rfl
@[simp] theorem goTo_din (t : Task) : (goTo t s).din = s.din := rfl
@[simp] theorem goTo_dout (t : Task) : (goTo t s).dout = s.dout := rfl
@[simp] theorem goTo_phase (t : Task) : (goTo t s).phase = s.phase := rfl
@[simp] theorem goTo_tagc (t : Task) : (goTo t s).tagc = s.tagc := rfl
@[simp] theorem goTo_roundIdx (t : Task) : (goTo t s).roundIdx = s.roundIdx := rfl
@[simp] theorem goTo_blockIdx (t : Task) : (goTo t s).blockIdx = s.blockIdx := rfl
@[simp] theorem goTo_outCount (t : Task) : (goTo t s).outCount = s.outCount := rfl
@[simp] theorem goTo_job (t : Task) : (goTo t s).job = some ⟨t, false⟩ := rfl
@[simp] theorem goTo_caps (t : Task) : (goTo t s).caps = s.caps := rfl
@[simp] theorem goTo_epoch (t : Task) : (goTo t s).epoch = s.epoch := rfl
@[simp] theorem goTo_agenda (t : Task) : (goTo t s).agenda = s.agenda := rfl
@[simp] theorem goTo_observed (t : Task) : (goTo t s).observed = s.observed := rfl

@[simp] theorem startPerm_S (n : Nat) (t : Task) : (startPerm n t s).S = s.S := rfl
@[simp] theorem startPerm_key (n : Nat) (t : Task) : (startPerm n t s).key = s.key := rfl
@[simp] theorem startPerm_nonce (n : Nat) (t : Task) : (startPerm n t s).nonce = s.nonce := rfl
@[simp] theorem startPerm_cmd (n : Nat) (t : Task) : (startPerm n t s).cmd = s.cmd := rfl
@[simp] theorem startPerm_status (n : Nat) (t : Task) : (startPerm n t s).status = s.status := rfl
@[simp] theorem startPerm_klen (n : Nat) (t : Task) : (startPerm n t s).klen = s.klen := rfl
@[simp] theorem startPerm_nlen (n : Nat) (t : Task) : (startPerm n t s).nlen = s.nlen := rfl
@[simp] theorem startPerm_adlen (n : Nat) (t : Task) : (startPerm n t s).adlen = s.adlen := rfl
@[simp] theorem startPerm_dlen (n : Nat) (t : Task) : (startPerm n t s).dlen = s.dlen := rfl
@[simp] theorem startPerm_hlen (n : Nat) (t : Task) : (startPerm n t s).hlen = s.hlen := rfl
@[simp] theorem startPerm_olen (n : Nat) (t : Task) : (startPerm n t s).olen = s.olen := rfl
@[simp] theorem startPerm_ad (n : Nat) (t : Task) : (startPerm n t s).ad = s.ad := rfl
@[simp] theorem startPerm_din (n : Nat) (t : Task) : (startPerm n t s).din = s.din := rfl
@[simp] theorem startPerm_dout (n : Nat) (t : Task) : (startPerm n t s).dout = s.dout := rfl
@[simp] theorem startPerm_phase (n : Nat) (t : Task) : (startPerm n t s).phase = s.phase := rfl
@[simp] theorem startPerm_tagc (n : Nat) (t : Task) : (startPerm n t s).tagc = s.tagc := rfl
@[simp] theorem startPerm_roundIdx (n : Nat) (t : Task) : (startPerm n t s).roundIdx = 12 - n := rfl
@[simp] theorem startPerm_blockIdx (n : Nat) (t : Task) : (startPerm n t s).blockIdx = s.blockIdx := rfl
@[simp] theorem startPerm_outCount (n : Nat) (t : Task) : (startPerm n t s).outCount = s.outCount := rfl
@[simp] theorem startPerm_job (n : Nat) (t : Task) : (startPerm n t s).job = some ⟨t, true⟩ := rfl
@[simp] theorem startPerm_caps (n : Nat) (t : Task) : (startPerm n t s).caps = s.caps := rfl
@[simp] theorem startPerm_epoch (n : Nat) (t : Task) : (startPerm n t s).epoch = s.epoch := rfl
@[simp] theorem startPerm_agenda (n : Nat) (t : Task) : (startPerm n t s).agenda = s.agenda := rfl
@[simp] theorem startPerm_observed (n : Nat) (t : Task) : (startPerm n t s).observed = s.observed := rfl

@[simp] theorem startEngine_S (t : Task) : (startEngine t s).S = s.S := rfl
@[simp] theorem startEngine_key (t : Task) : (startEngine t s).key = s.key := rfl
@[simp] theorem startEngine_nonce (t : Task) : (startEngine t s).nonce = s.nonce := rfl
@[simp] theorem startEngine_cmd (t : Task) : (startEngine t s).cmd = s.cmd := rfl
@[simp] theorem startEngine_status (t : Task) : (startEngine t s).status = s.status := rfl
@[simp] theorem startEngine_klen (t : Task) : (startEngine t s).klen = s.klen := rfl
@[simp] theorem startEngine_nlen (t : Task) : (startEngine t s).nlen = s.nlen := rfl
@[simp] theorem startEngine_adlen (t : Task) : (startEngine t s).adlen = s.adlen := rfl
@[simp] theorem startEngine_dlen (t : Task) : (startEngine t s).dlen = s.dlen := rfl
@[simp] theorem startEngine_hlen (t : Task) : (startEngine t s).hlen = s.hlen := rfl
@[simp] theorem startEngine_olen (t : Task) : (startEngine t s).olen = s.olen := rfl
@[simp] theorem startEngine_ad (t : Task) : (startEngine t s).ad = s.ad := rfl
@[simp] theorem startEngine_din (t : Task) : (startEngine t s).din = s.din := rfl
@[simp] theorem startEngine_dout (t : Task) : (startEngine t s).dout = s.dout := rfl
@[simp] theorem startEngine_phase (t : Task) : (startEngine t s).phase = .uninitialized := rfl
@[simp] theorem startEngine_tagc (t : Task) : (startEngine t s).tagc = s.tagc := rfl
@[simp] theorem startEngine_roundIdx (t : Task) : (startEngine t s).roundIdx = 0 := rfl
@[simp] theorem startEngine_blockIdx (t : Task) : (startEngine t s).blockIdx = 0 := rfl
@[simp] theorem startEngine_outCount (t : Task) : (startEngine t s).outCount = 0 := rfl
@[simp] theorem startEngine_job (t : Task) : (startEngine t s).job = some ⟨t, false⟩ := rfl
@[simp] theorem startEngine_caps (t : Task) : (startEngine t s).caps = s.caps := rfl
@[simp] theorem startEngine_epoch (t : Task) : (startEngine t s).epoch = s.epoch := rfl
@[simp] theorem startEngine_agenda (t : Task) : (startEngine t s).agenda = s.agenda := rfl
@[simp] theorem startEngine_observed (t : Task) : (startEngine t s).observed = s.observed := rfl

@[simp] theorem note_S (o : Observation) : (note o s).S = s.S := rfl
@[simp] theorem note_key (o : Observation) : (note o s).key = s.key := rfl
@[simp] theorem note_nonce (o : Observation) : (note o s).nonce = s.nonce := rfl
@[simp] theorem note_cmd (o : Observation) : (note o s).cmd = s.cmd := rfl
@[simp] theorem note_status (o : Observation) : (note o s).status = s.status := rfl
@[simp] theorem note_klen (o : Observation) : (note o s).klen = s.klen := rfl
@[simp] theorem note_nlen (o : Observation) : (note o s).nlen = s.nlen := rfl
@[simp] theorem note_adlen (o : Observation) : (note o s).adlen = s.adlen := rfl
@[simp] theorem note_dlen (o : Observation) : (note o s).dlen = s.dlen := rfl
@[simp] theorem note_hlen (o : Observation) : (note o s).hlen = s.hlen := rfl
@[simp] theorem note_olen (o : Observation) : (note o s).olen = s.olen := rfl
@[simp] theorem note_ad (o : Observation) : (note o s).ad = s.ad := rfl
@[simp] theorem note_din (o : Observation) : (note o s).din = s.din := rfl
@[simp] theorem note_dout (o : Observation) : (note o s).dout = s.dout := rfl
@[simp] theorem note_phase (o : Observation) : (note o s).phase = s.phase := rfl
@[simp] theorem note_tagc (o : Observation) : (note o s).tagc = s.tagc := rfl
@[simp] theorem note_roundIdx (o : Observation) : (note o s).roundIdx = s.roundIdx := rfl
@[simp] theorem note_blockIdx (o : Observation) : (note o s).blockIdx = s.blockIdx := rfl
@[simp] theorem note_outCount (o : Observation) : (note o s).outCount = s.outCount := rfl
@[simp] theorem note_job (o : Observation) : (note o s).job = s.job := rfl
@[simp] theorem note_caps (o : Observation) : (note o s).caps = s.caps := rfl
@[simp] theorem note_epoch (o : Observation) : (note o s).epoch = s.epoch := rfl
@[simp] theorem note_agenda (o : Observation) : (note o s).agenda = s.agenda := rfl
@[simp] theorem note_observed (o : Observation) : (note o s).observed = o :: s.observed := rfl

@[simp] theorem resetBlock_S : (resetBlock s).S = State.reset.S := rfl
@[simp] theorem resetBlock_key : (resetBlock s).key = State.reset.key := rfl
@[simp] theorem resetBlock_nonce : (resetBlock s).nonce = State.reset.nonce := rfl
@[simp] theorem resetBlock_cmd : (resetBlock s).cmd = State.reset.cmd := rfl
@[simp] theorem resetBlock_status : (resetBlock s).status = State.reset.status := rfl
@[simp] theorem resetBlock_klen : (resetBlock s).klen = State.reset.klen := rfl
@[simp] theorem resetBlock_nlen : (resetBlock s).nlen = State.reset.nlen := rfl
@[simp] theorem resetBlock_adlen : (resetBlock s).adlen = State.reset.adlen := rfl
@[simp] theorem resetBlock_dlen : (resetBlock s).dlen = State.reset.dlen := rfl
@[simp] theorem resetBlock_hlen : (resetBlock s).hlen = State.reset.hlen := rfl
@[simp] theorem resetBlock_olen : (resetBlock s).olen = State.reset.olen := rfl
@[simp] theorem resetBlock_ad : (resetBlock s).ad = State.reset.ad := rfl
@[simp] theorem resetBlock_din : (resetBlock s).din = State.reset.din := rfl
@[simp] theorem resetBlock_dout : (resetBlock s).dout = State.reset.dout := rfl
@[simp] theorem resetBlock_phase : (resetBlock s).phase = State.reset.phase := rfl
@[simp] theorem resetBlock_tagc : (resetBlock s).tagc = State.reset.tagc := rfl
@[simp] theorem resetBlock_roundIdx : (resetBlock s).roundIdx = State.reset.roundIdx := rfl
@[simp] theorem resetBlock_blockIdx : (resetBlock s).blockIdx = State.reset.blockIdx := rfl
@[simp] theorem resetBlock_outCount : (resetBlock s).outCount = State.reset.outCount := rfl
@[simp] theorem resetBlock_job : (resetBlock s).job = State.reset.job := rfl
@[simp] theorem resetBlock_caps : (resetBlock s).caps = s.caps := rfl
@[simp] theorem resetBlock_epoch : (resetBlock s).epoch = s.epoch + 1 := rfl
@[simp] theorem resetBlock_agenda : (resetBlock s).agenda = s.agenda := rfl
@[simp] theorem resetBlock_observed : (resetBlock s).observed = s.observed := rfl

end Sys2Proof.Machine
end

