-- ==== Sys2Proof/Laws/Memory.lean ====
section
/-! SUPPORT. The laws of a buffer: what a read after a write gives, that writes in a row join, and that every memory operation keeps the
canonical form and the bound. -/

namespace Sys2Proof.Machine

@[simp] theorem Memory.read?_nil (a : Nat) : Memory.read? [] a = none := rfl

theorem Memory.read?_cons (x : Nat) (v : Byte) (m : Memory) (a : Nat) :
    Memory.read? ((x, v) :: m) a = if x = a then some v else Memory.read? m a := rfl

theorem Memory.read?_append (m k : Memory) (a : Nat) :
    Memory.read? (m ++ k) a = (Memory.read? m a).or (Memory.read? k a) := by
  induction m with
  | nil => simp
  | cons c m ih =>
    obtain ⟨x, v⟩ := c
    simp only [List.cons_append, Memory.read?_cons]
    split <;> simp_all

theorem Memory.read?_filter (m : Memory) (p : Nat → Bool) (a : Nat) :
    Memory.read? (m.filter fun c => p c.1) a = if p a then Memory.read? m a else none := by
  induction m with
  | nil => simp
  | cons c m ih =>
    obtain ⟨x, v⟩ := c
    by_cases hx : p x = true <;> by_cases hxa : x = a
    · subst hxa; simp [hx, Memory.read?_cons]
    · simp [hx, Memory.read?_cons, hxa, ih]
    · subst hxa; simp [hx, ih]
    · simp [hx, Memory.read?_cons, hxa, ih]

theorem Memory.read?_cells (a : Nat) (bs : List Byte) (i : Nat) :
    Memory.read? (Memory.cells a bs) i = if a ≤ i then bs[i - a]? else none := by
  induction bs generalizing a with
  | nil => simp [Memory.cells]
  | cons b bs ih =>
    simp only [Memory.cells, Memory.read?_cons, ih]
    rcases Nat.lt_trichotomy a i with h | h | h
    · rw [if_neg (by omega), if_pos (by omega), if_pos (by omega), show i - a = (i - (a + 1)) + 1 by omega]
      simp
    · subst h; simp
    · rw [if_neg (by omega), if_neg (by omega), if_neg (by omega)]

theorem Memory.mem_cells {a : Nat} {bs : List Byte} {c : Host.Cell} (h : c ∈ Memory.cells a bs) :
    a ≤ c.1 ∧ c.1 < a + bs.length := by
  induction bs generalizing a with
  | nil => simp [Memory.cells] at h
  | cons b bs ih =>
    simp only [Memory.cells, List.mem_cons] at h
    rcases h with rfl | h
    · simp
    · have := ih h
      simp only [List.length_cons]
      omega

theorem Memory.cells_append (a : Nat) (x y : List Byte) :
    Memory.cells a (x ++ y) = Memory.cells a x ++ Memory.cells (a + x.length) y := by
  induction x generalizing a with
  | nil => simp [Memory.cells]
  | cons b x ih => simp [Memory.cells, ih, Nat.add_assoc, Nat.add_comm 1]

theorem Memory.cells_wf (a : Nat) (bs : List Byte) : Memory.wf (Memory.cells a bs) := by
  induction bs generalizing a with
  | nil => simp [Memory.cells]
  | cons b bs ih =>
    refine List.Pairwise.cons (fun c hc => ?_) (ih _)
    have := Memory.mem_cells hc
    simp only
    omega

/-- A read after a write: the written byte inside the range, the old byte outside. -/
theorem Memory.read?_writeBytes (m : Memory) (a : Nat) (bs : List Byte) (i : Nat) :
    Memory.read? (Memory.writeBytes m a bs) i =
      if a ≤ i ∧ i < a + bs.length then bs[i - a]? else Memory.read? m i := by
  have h1 := Memory.read?_filter m (fun x => decide (x < a)) i
  have h2 := Memory.read?_filter m (fun x => decide (a + bs.length ≤ x)) i
  simp only [Memory.writeBytes, Memory.read?_append, Memory.read?_cells, h1, h2, decide_eq_true_eq]
  by_cases hlo : i < a
  · rw [if_pos hlo, if_neg (by omega : ¬a ≤ i), if_neg (by omega : ¬a + bs.length ≤ i), if_neg (by omega)]
    simp
  · by_cases hhi : a + bs.length ≤ i
    · rw [if_neg hlo, if_pos (by omega : a ≤ i), if_pos hhi, if_neg (by omega),
        List.getElem?_eq_none (by omega)]
      simp
    · rw [if_neg hlo, if_pos (by omega : a ≤ i), if_neg hhi, if_pos (by omega)]
      simp

theorem Memory.cells_below (a n : Nat) (bs : List Byte) (h : a + bs.length ≤ n) :
    (Memory.cells a bs).filter (fun c => decide (c.1 < n)) = Memory.cells a bs :=
  List.filter_eq_self.mpr fun c hc => decide_eq_true (by have := Memory.mem_cells hc; omega)

theorem Memory.cells_not_below (a n : Nat) (bs : List Byte) (h : n ≤ a) :
    (Memory.cells a bs).filter (fun c => decide (c.1 < n)) = [] :=
  List.filter_eq_nil_iff.mpr fun c hc => by have := Memory.mem_cells hc; simp; omega

theorem Memory.cells_not_above (a n : Nat) (bs : List Byte) (h : a + bs.length ≤ n) :
    (Memory.cells a bs).filter (fun c => decide (n ≤ c.1)) = [] :=
  List.filter_eq_nil_iff.mpr fun c hc => by have := Memory.mem_cells hc; simp; omega

theorem Memory.below_below (m : Memory) (n k : Nat) (h : n ≤ k) :
    (m.filter fun c => decide (c.1 < n)).filter (fun c => decide (c.1 < k)) = m.filter fun c => decide (c.1 < n) :=
  List.filter_eq_self.mpr fun c hc => by have := (List.mem_filter.mp hc).2; simp at this ⊢; omega

theorem Memory.above_above (m : Memory) (n k : Nat) (h : n ≤ k) :
    (m.filter fun c => decide (n ≤ c.1)).filter (fun c => decide (k ≤ c.1)) = m.filter fun c => decide (k ≤ c.1) := by
  rw [List.filter_filter]
  exact List.filter_congr fun c _ => by rw [← Bool.decide_and, decide_eq_decide]; omega

theorem Memory.above_below (m : Memory) (n k : Nat) (h : k ≤ n) :
    (m.filter fun c => decide (n ≤ c.1)).filter (fun c => decide (c.1 < k)) = [] :=
  List.filter_eq_nil_iff.mpr fun c hc => by have := (List.mem_filter.mp hc).2; simp at this ⊢; omega

theorem Memory.below_above (m : Memory) (n k : Nat) (h : n ≤ k) :
    (m.filter fun c => decide (c.1 < n)).filter (fun c => decide (k ≤ c.1)) = [] :=
  List.filter_eq_nil_iff.mpr fun c hc => by have := (List.mem_filter.mp hc).2; simp at this ⊢; omega

/-- Two writes in a row are one write of the joined sequence. -/
theorem Memory.writeBytes_writeBytes (m : Memory) (a : Nat) (x y : List Byte) :
    Memory.writeBytes (Memory.writeBytes m a x) (a + x.length) y = Memory.writeBytes m a (x ++ y) := by
  simp only [Memory.writeBytes, List.filter_append, Memory.cells_append]
  rw [Memory.below_below _ _ _ (by omega), Memory.cells_below _ _ _ (by omega), Memory.above_below _ _ _ (by omega),
    Memory.below_above _ _ _ (by omega), Memory.cells_not_above _ _ _ (by omega), Memory.above_above _ _ _ (by omega)]
  simp [Nat.add_assoc]

/-- A second write over the same range replaces the first. -/
theorem Memory.writeBytes_overwrite (m : Memory) (a : Nat) (x y : List Byte) (h : x.length = y.length) :
    Memory.writeBytes (Memory.writeBytes m a x) a y = Memory.writeBytes m a y := by
  simp only [Memory.writeBytes, List.filter_append]
  rw [Memory.below_below _ _ _ (by omega), Memory.cells_not_below _ _ _ (by omega), Memory.above_below _ _ _ (by omega),
    Memory.below_above _ _ _ (by omega), Memory.cells_not_above _ _ _ (by omega), Memory.above_above _ _ _ (by omega)]
  simp

@[simp] theorem Memory.writeBytes_nil (m : Memory) : Memory.writeBytes m 0 [] = m := by
  simp [Memory.writeBytes, Memory.cells]

/-- Every write keeps the canonical form. -/
theorem Memory.writeBytes_wf {m : Memory} (a : Nat) (bs : List Byte) (h : Memory.wf m) :
    Memory.wf (Memory.writeBytes m a bs) := by
  unfold Memory.wf Memory.writeBytes
  rw [List.pairwise_append, List.pairwise_append]
  refine ⟨⟨h.filter _, Memory.cells_wf a bs, fun c hc d hd => ?_⟩, h.filter _, fun c hc d hd => ?_⟩
  · have := Memory.mem_cells hd
    simp at hc
    omega
  · simp at hd
    rcases List.mem_append.mp hc with hc | hc
    · simp at hc
      omega
    · have := Memory.mem_cells hc
      omega

/-- A write inside a bound keeps every index inside it. -/
theorem Memory.writeBytes_bound {m : Memory} {a n : Nat} {bs : List Byte} (h : ∀ c ∈ m, c.1 < n)
    (hb : a + bs.length ≤ n) : ∀ c ∈ Memory.writeBytes m a bs, c.1 < n := by
  intro c hc
  simp only [Memory.writeBytes, List.mem_append, List.mem_filter] at hc
  rcases hc with (hc | hc) | hc
  · exact h c hc.1
  · have := Memory.mem_cells hc
    omega
  · exact h c hc.1

theorem reset_memoryForm : MemoryForm State.reset := by decide

end Sys2Proof.Machine
end

