-- ==== Sys2Proof/Laws/Bytes.lean ====
section
/-! SUPPORT. The lengths of byte sequences, and what a buffer read gives, byte by byte. -/

namespace Sys2Proof.Machine

@[simp] theorem zeros_length (n : Nat) : (zeros n).length = n := List.length_replicate

@[simp] theorem slice_length (b : List Byte) (i j : Nat) : (slice b i j).length = min (j - i) (b.length - i) := by
  simp [slice]

@[simp] theorem xorBytes_length (x y : List Byte) : (xorBytes x y).length = min x.length y.length := by
  simp [xorBytes]

@[simp] theorem bytes8_length (w : Word) : (bytes8 w).length = 8 := by simp [bytes8]

@[simp] theorem ratebytes_length (S : Words5) (rate : Rate) : (ratebytes S rate).length = rateLen rate := by
  cases rate <;> simp [ratebytes, rateLen]

theorem rateLen_pos (rate : Rate) : 0 < rateLen rate := by cases rate <;> decide

@[simp] theorem wordAt_setWord (S : Words5) (i : Fin 5) (v : Word) : wordAt (setWord S i v) i = v := by
  fin_cases i <;> rfl

theorem wordAt_setWord_ne (S : Words5) {i j : Fin 5} (v : Word) (h : j ≠ i) :
    wordAt (setWord S i v) j = wordAt S j := by
  fin_cases i <;> fin_cases j <;> first | rfl | exact absurd rfl h

@[simp] theorem memRead_length (s : State) (sp : Space) (a n : Nat) : (memRead s sp a n).length = n := by
  simp [memRead]

theorem memRead_getElem? (s : State) (sp : Space) (a n i : Nat) :
    (memRead s sp a n)[i]? = if i < n then some (storedByte s sp (a + i)) else none := by
  by_cases h : i < n <;> simp [memRead, h]

/-- Two reads agree exactly when the bytes they read do. -/
theorem memRead_eq_iff (s u : State) (sp : Space) (a n : Nat) :
    memRead s sp a n = memRead u sp a n ↔ ∀ i, i < n → storedByte s sp (a + i) = storedByte u sp (a + i) := by
  simp [memRead]

theorem tagOfBytes_toList {b : List Byte} (h : b.length = 16) : (tagOfBytes b).toList = b := by
  simp [tagOfBytes, h, Vector.toList]

end Sys2Proof.Machine
end

