-- ==== Sys2Proof/Laws/Ops.lean ====
section
/-! SUPPORT. What the shared operations do to `STATUS`, when a command passes its validation, and the two ways each command
can end: cited instead of unfolding the commands. -/

namespace Sys2Proof.Machine

@[simp] theorem statusByte_busy (b d : Bool) (e : BitVec 4) : (statusByte b d e).getLsbD 0 = b := by
  revert b d e; decide

@[simp] theorem statusByte_done (b d : Bool) (e : BitVec 4) : (statusByte b d e).getLsbD 1 = d := by
  revert b d e; decide

@[simp] theorem statusByte_err (b d : Bool) (e : BitVec 4) : (statusByte b d e).extractLsb' 4 4 = e := by
  revert b d e; decide

@[simp] theorem statusByte_reserved (b d : Bool) (e : BitVec 4) : (statusByte b d e).extractLsb' 2 2 = 0#2 := by
  revert b d e; decide

@[simp] theorem busy_accept (b : Byte) (s : State) : (accept b s).busy = true := by
  simp only [State.busy, accept_status, statusBusy, statusByte_busy]

@[simp] theorem done_accept (b : Byte) (s : State) : (accept b s).done = false := by
  simp only [State.done, accept_status, statusBusy, statusByte_done]

@[simp] theorem err_accept (b : Byte) (s : State) : (accept b s).err = 0#4 := by
  simp only [State.err, accept_status, statusBusy, statusByte_err]
  rfl

@[simp] theorem busy_raiseError (e : ErrorKind) (s : State) : (raiseError e s).busy = false := by
  simp only [State.busy, raiseError_status, statusError, statusByte_busy]

@[simp] theorem done_raiseError (e : ErrorKind) (s : State) : (raiseError e s).done = true := by
  simp only [State.done, raiseError_status, statusError, statusByte_done]

@[simp] theorem err_raiseError (e : ErrorKind) (s : State) : (raiseError e s).err = errCode e := by
  simp only [State.err, raiseError_status, statusError, statusByte_err]

@[simp] theorem busy_complete (n : Nat) (s : State) : (complete n s).busy = false := by
  simp only [State.busy, complete_status, statusDone, statusByte_busy]

@[simp] theorem done_complete (n : Nat) (s : State) : (complete n s).done = true := by
  simp only [State.done, complete_status, statusDone, statusByte_done]

@[simp] theorem err_complete (n : Nat) (s : State) : (complete n s).err = 0#4 := by
  simp only [State.err, complete_status, statusDone, statusByte_err]
  rfl

/-- The report of an error: its code above `DONE` (60_exceptions.md R236). -/
theorem statusError_eq (e : ErrorKind) : statusError e = errCode e ++ 0x2#4 := by cases e <;> decide

/-- The codes are 1 to 10 (60_exceptions.md R231). -/
theorem errCode_range (e : ErrorKind) : 1 ≤ (errCode e).toNat ∧ (errCode e).toNat ≤ 10 := by cases e <;> decide

theorem aeadVariant?_arg {arg : BitVec 4} {v : AeadVariant} (h : aeadVariant? arg = some v) :
    arg.toNat < 3 ∧ ((aeadParams v).klen = if arg.toNat = 2 then 20 else 16) := by
  revert arg
  cases v <;> decide

theorem aeadVariant?_none {arg : BitVec 4} : aeadVariant? arg = none ↔ 3 ≤ arg.toNat := by
  revert arg
  decide

theorem hashVariant?_arg {arg : BitVec 4} {v : HashVariant} (h : hashVariant? arg = some v) :
    arg.toNat < 4 ∧ ((hashParams v).fixed = true ↔ arg.toNat ≤ 1) := by
  revert arg
  cases v <;> decide

theorem hashVariant?_none {arg : BitVec 4} : hashVariant? arg = none ↔ 4 ≤ arg.toNat := by
  revert arg
  decide

/-- When the validation of an AEAD command passes (60_exceptions.md R241). -/
theorem validateAead_ok {dir : Direction} {arg : BitVec 4} {s : State} {v : AeadVariant} :
    validateAead dir arg s = .ok v ↔
      aeadVariant? arg = some v ∧ s.klen.toNat = (aeadParams v).klen ∧ s.nlen.toNat = nonceBytes
        ∧ ¬(dir = .decrypt ∧ s.dlen.toNat < tagBytes)
        ∧ ¬(s.adlen.toNat > s.caps.ad ∨ s.dlen.toNat > s.caps.din) := by
  unfold validateAead
  cases hv : aeadVariant? arg with
  | none => simp
  | some w =>
    simp only [Option.some.injEq]
    by_cases h1 : s.klen.toNat = (aeadParams w).klen
    · by_cases h2 : s.nlen.toNat = nonceBytes
      · by_cases h3 : dir = .decrypt ∧ s.dlen.toNat < tagBytes
        · simp only [h1, h2, h3, ne_eq, not_true_eq_false, if_false, if_true, and_self, false_and, and_false, reduceCtorEq]
        · by_cases h4 : s.adlen.toNat > s.caps.ad ∨ s.dlen.toNat > s.caps.din
          · simp only [h1, h2, h3, h4, ne_eq, not_true_eq_false, if_false, if_true, and_false, reduceCtorEq]
          · simp only [h1, h2, h3, h4, ne_eq, not_true_eq_false, if_false, Except.ok.injEq, not_false_eq_true, and_true]
            exact ⟨fun h => ⟨h, h ▸ rfl⟩, fun h => h.1⟩
      · simp [h1, h2]
    · simp only [ne_eq, h1, not_false_eq_true, if_true, reduceCtorEq, false_iff]
      rintro ⟨rfl, h, -⟩
      exact h1 h

/-- When the validation of `HASH` passes (60_exceptions.md R241). -/
theorem validateHash_ok {arg : BitVec 4} {s : State} {v : HashVariant} :
    validateHash arg s = .ok v ↔
      hashVariant? arg = some v ∧ ¬((hashParams v).fixed = true ∧ s.hlen.toNat ≠ hashBytes)
        ∧ ¬s.dlen.toNat > s.caps.din ∧ ¬((hashParams v).fixed = false ∧ s.hlen.toNat > s.caps.dout) := by
  unfold validateHash
  cases hv : hashVariant? arg with
  | none => simp
  | some w =>
    simp only [ne_eq, Option.some.injEq]
    split_ifs with h1 h2 h3
    · simp only [false_iff]; rintro ⟨rfl, h, -⟩; exact h h1
    · simp only [false_iff]; rintro ⟨rfl, -, h, -⟩; exact h h2
    · simp only [false_iff]; rintro ⟨rfl, -, -, h⟩; exact h h3
    · simp only [Except.ok.injEq]
      constructor
      · rintro rfl; exact ⟨rfl, h1, h2, h3⟩
      · exact fun h => h.1

/-- No validation raises `AuthenticationFailed` (60_exceptions.md R230). -/
theorem validateAead_error {dir : Direction} {arg : BitVec 4} {s : State} {e : ErrorKind}
    (h : validateAead dir arg s = .error e) : e ≠ .authenticationFailed := by
  unfold validateAead at h
  split at h
  · cases h; decide
  · split_ifs at h <;> cases h <;> decide

theorem validateHash_error {arg : BitVec 4} {s : State} {e : ErrorKind} (h : validateHash arg s = .error e) :
    e ≠ .authenticationFailed := by
  unfold validateHash at h
  split at h
  · cases h; decide
  · split_ifs at h <;> cases h <;> decide

theorem validateRounds_error {n : BitVec 4} {e : ErrorKind} (h : validateRounds n = .error e) :
    e = .invalidRounds ∧ (n.toNat = 0 ∨ 13 ≤ n.toNat) := by
  unfold validateRounds at h
  split_ifs at h with hn
  cases h
  exact ⟨rfl, hn⟩

theorem validateRounds_ok {n : BitVec 4} {k : Nat} (h : validateRounds n = .ok k) :
    k = n.toNat ∧ 1 ≤ n.toNat ∧ n.toNat ≤ 12 := by
  unfold validateRounds at h
  split_ifs at h with hn
  cases h
  omega

/-- The state a validation error leaves (60_exceptions.md R236, R237). -/
theorem raiseError_accept (e : ErrorKind) (b : Byte) (s : State) :
    raiseError e (accept b s) = { s with cmd := b, status := statusError e, olen := 0, job := none } := rfl

/-- The two ways an `ENCRYPT` ends (41_aead.md R150). -/
theorem execEncrypt_cases (arg : BitVec 4) (s : State) :
    (∃ e, validateAead .encrypt arg (accept (encodeByte (.encrypt arg)) s) = .error e
        ∧ execEncrypt arg s = .next (raiseError e (accept (encodeByte (.encrypt arg)) s)))
      ∨ ∃ v, validateAead .encrypt arg (accept (encodeByte (.encrypt arg)) s) = .ok v
        ∧ execEncrypt arg s =
          .next (finishEngine (s.dlen.toNat + tagBytes)
            (writeDout (accept (encodeByte (.encrypt arg)) s) 0
              (aeadEncrypt v (keyOf s v) (nonceOf s) (adOf s) (dataOf s)))) := by
  unfold execEncrypt
  cases h : validateAead .encrypt arg (accept (encodeByte (.encrypt arg)) s) with
  | error e => exact .inl ⟨e, rfl, by simp only [h]⟩
  | ok v => exact .inr ⟨v, rfl, by simp only [h]; rfl⟩

/-- The three ways a `DECRYPT` ends (41_aead.md R151, R167). -/
theorem execDecrypt_cases (arg : BitVec 4) (s : State) :
    (∃ e, validateAead .decrypt arg (accept (encodeByte (.decrypt arg)) s) = .error e
        ∧ execDecrypt arg s = .next (raiseError e (accept (encodeByte (.decrypt arg)) s)))
      ∨ ∃ v, validateAead .decrypt arg (accept (encodeByte (.decrypt arg)) s) = .ok v
        ∧ ∃ r, r = aeadDecrypt v (keyOf s v) (nonceOf s) (adOf s) (ciphertextOf s)
        ∧ ((r.2 = receivedTag s
              ∧ execDecrypt arg s =
                .next (finishEngine (s.dlen.toNat - tagBytes) (writeDout (accept (encodeByte (.decrypt arg)) s) 0 r.1)))
            ∨ (r.2 ≠ receivedTag s
              ∧ execDecrypt arg s =
                .next (rejectPlaintext (s.dlen.toNat - tagBytes)
                  (writeDout (accept (encodeByte (.decrypt arg)) s) 0 r.1)))) := by
  unfold execDecrypt
  cases h : validateAead .decrypt arg (accept (encodeByte (.decrypt arg)) s) with
  | error e => exact .inl ⟨e, rfl, by simp only [h]⟩
  | ok v =>
    simp only [h]
    refine .inr ⟨v, rfl, _, rfl, ?_⟩
    by_cases ht : (aeadDecrypt v (keyOf s v) (nonceOf s) (adOf s) (ciphertextOf s)).2 = receivedTag s
    · exact .inl ⟨ht, if_pos ht⟩
    · exact .inr ⟨ht, if_neg ht⟩

/-- The two ways a `HASH` ends (42_hash_xof.md R200). -/
theorem execHash_cases (arg : BitVec 4) (s : State) :
    (∃ e, validateHash arg (accept (encodeByte (.hash arg)) s) = .error e
        ∧ execHash arg s = .next (raiseError e (accept (encodeByte (.hash arg)) s)))
      ∨ ∃ v, validateHash arg (accept (encodeByte (.hash arg)) s) = .ok v
        ∧ execHash arg s =
          .next (finishEngine (digestLen s v)
            (writeDout (accept (encodeByte (.hash arg)) s) 0 (digest v (digestLen s v) (dataOf s)))) := by
  unfold execHash
  cases h : validateHash arg (accept (encodeByte (.hash arg)) s) with
  | error e => exact .inl ⟨e, rfl, by simp only [h]⟩
  | ok v => exact .inr ⟨v, rfl, by simp only [h]; rfl⟩

/-- The two ways a `PERMUTE` ends (40_permutation.md R128). -/
theorem execPermute_cases (n : BitVec 4) (s : State) :
    ((n.toNat = 0 ∨ 13 ≤ n.toNat)
        ∧ execPermute n s = .next (raiseError .invalidRounds (accept (encodeByte (.permute n)) s)))
      ∨ (1 ≤ n.toNat ∧ n.toNat ≤ 12
        ∧ execPermute n s =
          .next (finishPermute { accept (encodeByte (.permute n)) s with S := perm n.toNat s.S })) := by
  unfold execPermute
  cases h : validateRounds n with
  | error e =>
    obtain ⟨rfl, hn⟩ := validateRounds_error h
    exact .inl ⟨hn, by simp only⟩
  | ok k =>
    obtain ⟨rfl, hlo, hhi⟩ := validateRounds_ok h
    exact .inr ⟨hlo, hhi, by simp only; rfl⟩

end Sys2Proof.Machine
end

