-- ==== Sys2Proof/Laws/HostPort.lean ====
section
/-! SUPPORT. The inversion lemmas of the step: what each event can do, what a host read returns and when a
command is ready, said once, so that a proof about every step is a case
analysis over these and never unfolds `step`. -/

namespace Sys2Proof.Machine

theorem step_nil {s : State} (h : s.agenda = []) : step s = .next (blockMove s) := by
  simp only [step, advance, h]

theorem step_cons {s : State} {e : Event} {rest : List Event} (h : s.agenda = e :: rest) :
    step s = handle e { s with agenda := rest } := by
  simp only [step, advance, h]

/-- The ways a step can answer a next state. -/
theorem step_cases {s t : State} (h : step s = .next t) :
    (s.agenda = [] ∧ t = blockMove s)
      ∨ ∃ rest,
          (s.agenda = .block :: rest ∧ t = blockMove { s with agenda := rest })
            ∨ (s.agenda = .reset :: rest ∧ t = resetBlock { s with agenda := rest })
            ∨ ∃ a, s.agenda = .host a :: rest ∧ hostAction a { s with agenda := rest } = .next t := by
  cases ha : s.agenda with
  | nil =>
    rw [step_nil ha] at h
    cases h
    exact .inl ⟨rfl, rfl⟩
  | cons e rest =>
    rw [step_cons ha] at h
    refine .inr ⟨rest, ?_⟩
    cases e with
    | host a => exact .inr (.inr ⟨a, rfl, h⟩)
    | block => cases h; exact .inl ⟨rfl, rfl⟩
    | reset => cases h; exact .inr (.inl ⟨rfl, rfl⟩)

/-- The ways a `CMD` write can go (10_state.md R28, 30_encoding.md R95, 70_reset_and_hazards.md R278). -/
theorem commandWrite_cases {b : Byte} {s t : State} (h : commandWrite b s = .next t) :
    (s.busy = true ∧ t = s)
      ∨ s.busy = false
        ∧ ((∃ i, decodeByte b = some i ∧ exec i s = .next t) ∨ (decodeByte b = none ∧ t = illegalCommand b s)) := by
  unfold commandWrite at h
  cases hb : s.busy with
  | true => simp only [hb, if_true] at h; cases h; exact .inl ⟨rfl, rfl⟩
  | false =>
    simp only [hb, Bool.false_eq_true, if_false] at h
    refine .inr ⟨rfl, ?_⟩
    cases hd : decodeByte b with
    | none => simp only [hd] at h; cases h; exact .inr ⟨rfl, rfl⟩
    | some i => simp only [hd] at h; exact .inl ⟨i, rfl, h⟩

/-- The same at the fine grain. -/
theorem beginWrite_cases (b : Byte) (s : State) :
    (s.busy = true ∧ beginWrite b s = s)
      ∨ s.busy = false
        ∧ ((∃ i, decodeByte b = some i ∧ beginWrite b s = beginInstr i s)
            ∨ (decodeByte b = none ∧ beginWrite b s = illegalCommand b s)) := by
  unfold beginWrite
  cases hb : s.busy with
  | true => exact .inl ⟨rfl, rfl⟩
  | false =>
    refine .inr ⟨rfl, ?_⟩
    cases hd : decodeByte b with
    | none => exact .inr ⟨rfl, rfl⟩
    | some i => exact .inl ⟨i, rfl, rfl⟩

/-- What a host write that is let through does: one register, one state word, or bytes inside a space. -/
inductive HostStore (s : State) : State → Prop
  | reg8 (r : Reg8) (v : BitVec 8) : HostStore s (setReg8 r v s)
  | reg32 (r : Reg32) (v : BitVec 32) : HostStore s (setReg32 r v s)
  | word (i : Fin 5) (v : Word) : HostStore s { s with S := setWord s.S i v }
  | bytes (sp : Space) (i : Nat) (bs : List Byte) (h : i + bs.length ≤ spaceSize s sp) : HostStore s (storeBytes sp i bs s)

/-- The ways a host action can answer a next state. -/
theorem hostAction_cases {a : HostAction} {s t : State} (h : hostAction a s = .next t) :
    (∃ b, (a = .command b ∨ a = .wr8 .cmd b) ∧ commandWrite b s = .next t)
      ∨ (∃ b, a = .begin b ∧ t = beginWrite b s)
      ∨ (a = .wait ∧ t = waitDone s)
      ∨ (isHostRead a = true ∧ ∃ o, t = note o s)
      ∨ (isHostWrite a = true ∧ ((s.busy = true ∧ t = s) ∨ (s.busy = false ∧ HostStore s t))) := by
  have store : ∀ {u : State}, HostStore s u → t = (if s.busy then s else u) →
      (s.busy = true ∧ t = s) ∨ (s.busy = false ∧ HostStore s t) := by
    intro u hu ht
    cases hb : s.busy with
    | true => exact .inl ⟨rfl, by rw [ht, hb]; rfl⟩
    | false => exact .inr ⟨rfl, by rw [ht, hb]; exact hu⟩
  cases a with
  | wr8 r v =>
    cases r with
    | cmd => exact .inl ⟨v, .inr rfl, h⟩
    | status => cases h; exact .inr (.inr (.inr (.inr ⟨rfl, store (.reg8 .status v) rfl⟩)))
    | klen => cases h; exact .inr (.inr (.inr (.inr ⟨rfl, store (.reg8 .klen v) rfl⟩)))
    | nlen => cases h; exact .inr (.inr (.inr (.inr ⟨rfl, store (.reg8 .nlen v) rfl⟩)))
  | wr32 r v => cases h; exact .inr (.inr (.inr (.inr ⟨rfl, store (.reg32 r v) rfl⟩)))
  | wrWord i v => cases h; exact .inr (.inr (.inr (.inr ⟨rfl, store (.word i v) rfl⟩)))
  | wrByte sp i v =>
    simp only [hostAction, writeByte] at h
    split_ifs at h with hb hi
    · cases h; exact .inr (.inr (.inr (.inr ⟨rfl, .inl ⟨hb, rfl⟩⟩)))
    · cases h
      refine .inr (.inr (.inr (.inr ⟨rfl, .inr ⟨Bool.not_eq_true _ ▸ hb, .bytes sp i [v] ?_⟩⟩)))
      simpa [byteExists] using hi
  | wrBytes sp bs =>
    cases h
    exact .inr (.inr (.inr (.inr ⟨rfl, store (.bytes sp 0 _ (by simp)) rfl⟩)))
  | command b => exact .inl ⟨b, .inl rfl, h⟩
  | begin b => cases h; exact .inr (.inl ⟨b, rfl, rfl⟩)
  | wait => cases h; exact .inr (.inr (.inl ⟨rfl, rfl⟩))
  | rd8 r => cases h; exact .inr (.inr (.inr (.inl ⟨rfl, _, rfl⟩)))
  | rd32 r => cases h; exact .inr (.inr (.inr (.inl ⟨rfl, _, rfl⟩)))
  | rdWord i => cases h; exact .inr (.inr (.inr (.inl ⟨rfl, _, rfl⟩)))
  | rdByte sp i =>
    simp only [hostAction, readByte] at h
    split_ifs at h
    · cases h; exact .inr (.inr (.inr (.inl ⟨rfl, _, rfl⟩)))
    · cases h; exact .inr (.inr (.inr (.inl ⟨rfl, _, rfl⟩)))
  | rdBytes sp n =>
    simp only [hostAction, readFromStart] at h
    split_ifs at h
    · cases h; exact .inr (.inr (.inr (.inl ⟨rfl, _, rfl⟩)))
    · cases h; exact .inr (.inr (.inr (.inl ⟨rfl, _, rfl⟩)))
  | rdResult =>
    simp only [hostAction, readResult] at h
    refine .inr (.inr (.inr (.inl ⟨rfl, ?_⟩)))
    split_ifs at h
    · cases h; exact ⟨_, rfl⟩
    · cases h; exact ⟨_, rfl⟩

/-- What the host reads of a byte while the block is idle. -/
theorem hostByte_eq (s : State) (sp : Space) (i : Nat) : hostByte s sp i = byteAtRest s sp i := by
  cases sp with
  | dout =>
    simp only [hostByte, byteAtRest, true_and]
    split_ifs <;> first | rfl | omega
  | key => rfl
  | nonce => rfl
  | ad => rfl
  | din => rfl

/-- A command is ready exactly when its validation passes (60_exceptions.md R241); the acceptance of the command does not touch
what is validated. -/
theorem encryptReady_iff {arg : BitVec 4} {v : AeadVariant} {b : Byte} {s : State} :
    EncryptReady arg v s ↔ validateAead .encrypt arg (accept b s) = .ok v := by
  rw [validateAead_ok]
  simp only [accept_klen, accept_nlen, accept_adlen, accept_dlen, accept_caps, nonceBytes, reduceCtorEq, false_and,
    not_false_eq_true, true_and, not_or, not_lt, gt_iff_lt]

theorem decryptReady_iff {arg : BitVec 4} {v : AeadVariant} {b : Byte} {s : State} :
    DecryptReady arg v s ↔ validateAead .decrypt arg (accept b s) = .ok v := by
  rw [validateAead_ok]
  simp only [accept_klen, accept_nlen, accept_adlen, accept_dlen, accept_caps, nonceBytes, tagBytes, true_and, not_or, not_lt,
    gt_iff_lt]
  tauto

theorem hashReady_iff {arg : BitVec 4} {v : HashVariant} {b : Byte} {s : State} :
    HashReady arg v s ↔ validateHash arg (accept b s) = .ok v := by
  rw [validateHash_ok]
  simp only [accept_hlen, accept_dlen, accept_caps, hashBytes, not_and, not_not, not_lt, gt_iff_lt, ne_eq]
  tauto

/-- The three ways a command goes at the fine grain: it is not ready and ends as at the atomic grain, an engine command
starts, or the permutation starts (10_state.md R40, 60_exceptions.md R241). -/
theorem beginInstr_cases (i : Instr) (s : State) :
    (¬CommandReady i s ∧ exec i s = .next (beginInstr i s)
        ∧ ∃ e, e ≠ .authenticationFailed ∧ beginInstr i s = raiseError e (accept (encodeByte i) s))
      ∨ CommandReady i s
        ∧ ((∃ t, beginInstr i s = startEngine t (accept (encodeByte i) s))
            ∨ ∃ n, i = .permute n ∧ beginInstr i s = startPerm n.toNat .permute (accept (encodeByte i) s)) := by
  cases i with
  | encrypt arg =>
    have ready : CommandReady (.encrypt arg) s ↔ ∃ v, validateAead .encrypt arg (accept (encodeByte (.encrypt arg)) s) = .ok v :=
      exists_congr fun _ => encryptReady_iff
    rw [ready]
    simp only [exec, execEncrypt, beginInstr]
    cases h : validateAead .encrypt arg (accept (encodeByte (.encrypt arg)) s) with
    | error e => exact .inl ⟨(fun ⟨_, hv⟩ => nomatch hv), rfl, e, validateAead_error h, rfl⟩
    | ok v => exact .inr ⟨⟨v, rfl⟩, .inl ⟨_, rfl⟩⟩
  | decrypt arg =>
    have ready : CommandReady (.decrypt arg) s ↔ ∃ v, validateAead .decrypt arg (accept (encodeByte (.decrypt arg)) s) = .ok v :=
      exists_congr fun _ => decryptReady_iff
    rw [ready]
    simp only [exec, execDecrypt, beginInstr]
    cases h : validateAead .decrypt arg (accept (encodeByte (.decrypt arg)) s) with
    | error e => exact .inl ⟨(fun ⟨_, hv⟩ => nomatch hv), rfl, e, validateAead_error h, rfl⟩
    | ok v => exact .inr ⟨⟨v, rfl⟩, .inl ⟨_, rfl⟩⟩
  | hash arg =>
    have ready : CommandReady (.hash arg) s ↔ ∃ v, validateHash arg (accept (encodeByte (.hash arg)) s) = .ok v :=
      exists_congr fun _ => hashReady_iff
    rw [ready]
    simp only [exec, execHash, beginInstr]
    cases h : validateHash arg (accept (encodeByte (.hash arg)) s) with
    | error e => exact .inl ⟨(fun ⟨_, hv⟩ => nomatch hv), rfl, e, validateHash_error h, rfl⟩
    | ok v => exact .inr ⟨⟨v, rfl⟩, .inl ⟨_, rfl⟩⟩
  | permute n =>
    simp only [CommandReady, exec, execPermute, beginInstr]
    cases h : validateRounds n with
    | error e =>
      obtain ⟨rfl, hn⟩ := validateRounds_error h
      exact .inl ⟨by omega, rfl, _, by decide, rfl⟩
    | ok k =>
      obtain ⟨rfl, hlo, hhi⟩ := validateRounds_ok h
      exact .inr ⟨⟨hlo, hhi⟩, .inr ⟨n, rfl, rfl⟩⟩

/-- A stored byte sequence leaves every register of the block alone but the space it goes to. -/
theorem storeBytes_eq (sp : Space) (i : Nat) (bs : List Byte) (s : State) :
    storeBytes sp i bs s =
      { s with
        key := (storeBytes sp i bs s).key, nonce := (storeBytes sp i bs s).nonce,
        ad := (storeBytes sp i bs s).ad, din := (storeBytes sp i bs s).din } := by
  cases sp <;> rfl

/-- With no command in progress the block does not move (70_reset_and_hazards.md R286). -/
theorem blockMove_none {s : State} (h : s.job = none) : blockMove s = s := by
  simp only [blockMove, h]

/-- One round of a permutation under way, and what follows it (40_permutation.md R121). -/
theorem blockMove_permuting {s : State} {t : Task} (h : s.job = some ⟨t, true⟩) :
    blockMove s =
      if s.roundIdx < 11 then { s with S := round s.roundIdx s.S, roundIdx := s.roundIdx + 1 }
      else { s with S := round s.roundIdx s.S, roundIdx := 0, job := some ⟨t, false⟩ } := by
  cases t <;> simp only [blockMove, h, roundMove, goTo]

theorem blockMoves_add (m n : Nat) (s : State) : blockMoves (m + n) s = blockMoves n (blockMoves m s) := by
  induction m generalizing s with
  | zero => simp only [Nat.zero_add, blockMoves]
  | succ m ih => simpa only [Nat.succ_add, blockMoves] using ih (blockMove s)

/-- A permutation started at round `12 - n` runs `P(S, n)` and then hands over to its task (40_permutation.md R121). -/
theorem blockMoves_permutation {n : Nat} (hn : 1 ≤ n) (h12 : n ≤ 12) {t : Task} {s : State} (hr : s.roundIdx = 12 - n)
    (h : s.job = some ⟨t, true⟩) :
    blockMoves n s = { s with S := perm n s.S, roundIdx := 0, job := some ⟨t, false⟩ } := by
  induction n generalizing s with
  | zero => omega
  | succ n ih =>
    rw [blockMoves, blockMove_permuting h]
    have hp : perm (n + 1) s.S = runRounds n (12 - (n + 1) + 1) (round (12 - (n + 1)) s.S) := rfl
    by_cases h0 : n = 0
    · subst h0
      rw [if_neg (by omega), hp, hr]
      rfl
    · rw [if_pos (by omega),
        ih (by omega) (by omega) (s := { s with S := round s.roundIdx s.S, roundIdx := s.roundIdx + 1 })
          (show s.roundIdx + 1 = 12 - n by omega) h,
        hp, hr]
      have e : 12 - (n + 1) + 1 = 12 - n := by omega
      rw [e]
      rfl

end Sys2Proof.Machine
end

