-- ==== Sys2Proof/Laws/PerInstr.lean ====
section
/-! SUPPORT. Per-instruction facts about the commands as syntax: the fields of the command byte (30_encoding.md R90, R91,
R94). -/

namespace Sys2Proof.Laws.CommandByte

/-- The byte of a command holds its `OP` in bits 7:4 and its `ARG` in bits 3:0, and matches the command's row of the table under
the mask 0xF0 (30_encoding.md R90, R94). -/
def Statement (i : Instr) : Prop :=
  opField (encodeByte i) = opCode i ∧ argField (encodeByte i) = argCode i
    ∧ encodeByte i &&& 0xF0 =
      match i with
      | .encrypt _ => 0x10
      | .decrypt _ => 0x20
      | .hash _ => 0x30
      | .permute _ => 0x40

theorem encrypt (arg : BitVec 4) : Statement (.encrypt arg) := by
  revert arg; unfold Statement; decide

theorem decrypt (arg : BitVec 4) : Statement (.decrypt arg) := by
  revert arg; unfold Statement; decide

theorem hash (arg : BitVec 4) : Statement (.hash arg) := by
  revert arg; unfold Statement; decide

theorem permute (n : BitVec 4) : Statement (.permute n) := by
  revert n; unfold Statement; decide

end Sys2Proof.Laws.CommandByte
end

