-- ==== Sys2Proof/Tests/Slice0.lean ====
section
/-! SUPPORT. Tests with results taken from the spec (the worked lines of 40_permutation.md, 41_aead.md and 42_hash_xof.md, the vectors
V<n> and the error rows E<n> of 95_test_vectors.md), and for each statement with hypotheses a witness that meets them. -/

namespace Sys2Proof.Tests

set_option Elab.async false

open Sys2Proof.Machine

/-! ## The states of the tests -/

/-- `n` bytes counting up from `first`. -/
def count (first n : Nat) : List Byte := (List.range n).map fun i => BitVec.ofNat 8 (first + i)

/-- The keys `K16`, `K20` and the nonce `N1` of 95_test_vectors.md. -/
def K16 : List Byte := count 0x00 16
def K20 : List Byte := count 0x00 20
def N1 : List Byte := count 0x10 16

/-- "ASCON", "ascon", and the result of encrypting the one with the other (41_aead.md section 7). -/
def ASCON : List Byte := [0x41, 0x53, 0x43, 0x4f, 0x4e]
def ascon : List Byte := [0x61, 0x73, 0x63, 0x6f, 0x6e]
def genuine : List Byte :=
  [0xcd, 0x82, 0x98, 0x6f, 0xad, 0x8e, 0xc7, 0x6f, 0xa8, 0x50, 0xc2, 0xeb, 0x0a, 0xbb, 0xb9, 0x93, 0x79, 0x34, 0xd1, 0x6b,
   0x54]

/-- The reset state of an implementation with small buffers. -/
def small : State := { State.reset with caps := ⟨16, 40, 56⟩ }

/-- That state with a key, a nonce, associated data and input data handed over by the host. -/
def loaded (K N A D : List Byte) : State :=
  { small with
    key := overwrite small.key 0 K, klen := BitVec.ofNat 8 K.length,
    nonce := overwrite small.nonce 0 N, nlen := BitVec.ofNat 8 N.length,
    ad := Memory.cells 0 A, adlen := BitVec.ofNat 32 A.length,
    din := Memory.cells 0 D, dlen := BitVec.ofNat 32 D.length }

/-- The event to come. -/
def facing (e : Event) (s : State) : State := { s with agenda := [e] }

/-- An outcome is a next state with a property. -/
def after (o : Host.Outcome State Fault Refusal) (p : State → Bool) : Bool :=
  match o with
  | .next t => p t
  | .fault _ => false
  | .refused _ => false

theorem exists_of_after {o : Host.Outcome State Fault Refusal} {p : State → Bool} (h : after o p = true) :
    ∃ t, o = .next t ∧ p t = true := by
  cases o with
  | next t => exact ⟨t, rfl, h⟩
  | fault _ => cases h
  | refused _ => cases h

def encrypting : State := loaded K16 N1 ASCON ascon
def decrypting : State := loaded K16 N1 ASCON genuine
def forging : State := { decrypting with din := Memory.writeBytes decrypting.din 20 [0x55] }
def hashing : State := loaded [] [] [] ascon

/-- An `ENCRYPT` in progress, 20 moves after its acceptance. -/
def midway : State := blockMoves 20 (beginInstr (.encrypt 0) encrypting)

/-! ## Well-formed commands (30_encoding.md R91) -/

theorem test_ill_formed_encrypt : Instr.wellFormed (.encrypt 3) = false ∧ Instr.wellFormed (.encrypt 2) = true := by decide
theorem test_ill_formed_decrypt : Instr.wellFormed (.decrypt 3) = false ∧ Instr.wellFormed (.decrypt 2) = true := by decide
theorem test_ill_formed_hash : Instr.wellFormed (.hash 4) = false ∧ Instr.wellFormed (.hash 3) = true := by decide
theorem test_ill_formed_permute :
    Instr.wellFormed (.permute 0) = false ∧ Instr.wellFormed (.permute 13) = false
      ∧ Instr.wellFormed (.permute 1) = true ∧ Instr.wellFormed (.permute 12) = true := by decide

/-! ## Decoding: bytes written out bit by bit from the table of 30_encoding.md R94 -/

theorem test_decode_encrypt : decode [0b00010010] = .command (.encrypt 2) [] := by decide
theorem test_decode_decrypt : decode [0b00100001] = .command (.decrypt 1) [] := by decide
theorem test_decode_hash : decode [0b00110011] = .command (.hash 3) [] := by decide
theorem test_decode_permute : decode [0b01001100] = .command (.permute 12) [] := by decide
theorem test_decode_illegal_arg : decode [0b00010011] = .command (.encrypt 3) [] := by decide
theorem test_decode_reserved :
    decode [0b00000001] = .rejected (.reservedOp 0) ∧ decode [0b01010000] = .rejected (.reservedOp 5)
      ∧ decode [] = .rejected .noByte := by decide
theorem test_decode_table_word : decodeTableWord 8 0x40 = some (.permute 0) ∧ decodeTableWord 8 0x90 = none := by decide

/-! ## Bytes and words (95_test_vectors.md V10 to V18, V20 to V28) -/

theorem test_be64 : be64 (count 1 8) = 0x0102030405060708 := by decide +kernel
theorem test_bytes8 : bytes8 0x8000000000000001 = [0x80, 0, 0, 0, 0, 0, 0, 1] := by decide +kernel
theorem test_rotr64 :
    rotr64 1 1 = 0x8000000000000000 ∧ rotr64 0x8000000000000000 63 = 1
      ∧ rotr64 0x0123456789abcdef 19 = 0x79bde02468acf135 := by decide +kernel
theorem test_pad_full_block : pad (count 0 8) .r8 = count 0 8 ++ [0x80, 0, 0, 0, 0, 0, 0, 0] := by decide +kernel
theorem test_pad_short : pad ascon .r8 = ascon ++ [0x80, 0, 0] := by decide +kernel
/-- V20 to V24: one round on `X`. -/
theorem test_round :
    round 0 ⟨0x0001020304050607, 0x08090a0b0c0d0e0f, 0x1011121314151617, 0x18191a1b1c1d1e1f, 0x2021222324252627⟩
      = ⟨0xe08f8d7324554647, 0x8989898849898e69, 0xfb3b3b3b3b3b3bb0, 0x0682ba7b3dfdbd8c, 0x47cb4acc49c544c2⟩ := by
  decide +kernel
/-- V28. -/
theorem test_diffuse :
    diffuse ⟨0x8000000000000000, 0x8000000000000000, 0x8000000000000000, 0x8000000000000000, 0x8000000000000000⟩
      = ⟨0x8000100800000000, 0x8000000001000004, 0xc200000000000000, 0x8020400000000000, 0x8100000000400000⟩ := by
  decide +kernel

/-! ## The commands -/

/-- 40_permutation.md R128, worked lines. -/
theorem test_permute :
    after (exec (.permute 1) small) (fun t => decide
      (t.S = ⟨0x000964b00000004b, 0x0000000096000213, 0x53ffffffffffff90, 0x12e580000000004b, 0⟩)) = true
      ∧ after (exec (.permute 12) small) (fun t => decide
        (t.S = ⟨0x78ea7ae5cfebb108, 0x9b9bfb8513b560f7, 0x6937f83e03d11a50, 0x3fe53f36f2c1178c, 0x045d648e4def12c9⟩)
          && decide (t.status = 0x02)) = true := by
  decide +kernel

/-- 41_aead.md section 7: the worked run. -/
theorem test_encrypt :
    after (exec (.encrypt 0) encrypting)
      (fun t => decide (hostBytes t .dout 21 = genuine ∧ t.olen = 21 ∧ t.status = 0x02)) = true := by
  decide +kernel

/-- V34: Ascon-80pq, the long key. -/
theorem test_encrypt_long_key :
    after (exec (.encrypt 2) (loaded K20 N1 [] (count 0x40 9)))
      (fun t => decide (hostBytes t .dout 25 =
        [0x28, 0x4b, 0x16, 0x31, 0x58, 0x52, 0xd8, 0x6e, 0x10, 0xfb, 0x77, 0x57, 0x42, 0x0d, 0x2c, 0x2e, 0x61, 0xc0, 0x65,
         0x6c, 0x7e, 0x7e, 0xae, 0xfa, 0x62])) = true := by
  decide +kernel

/-- V35a. -/
theorem test_decrypt :
    after (exec (.decrypt 0) decrypting)
      (fun t => decide (hostBytes t .dout 5 = ascon ∧ t.olen = 5 ∧ t.status = 0x02)) = true := by
  decide +kernel

/-- V35c: the last tag byte flipped; nothing is released although the candidate plaintext is right. -/
theorem test_decrypt_forged :
    after (exec (.decrypt 0) forging)
      (fun t => decide (hostBytes t .dout 5 = zeros 5 ∧ t.olen = 0 ∧ t.status = 0x72 ∧ t.S = zeroWords)) = true := by
  decide +kernel

/-- V1: the digest the source itself gives. -/
theorem test_hash :
    after (exec (.hash 0) hashing)
      (fun t => decide (hostBytes t .dout 32 =
        [0x02, 0xc8, 0x95, 0xcb, 0x92, 0xd7, 0x9f, 0x19, 0x5e, 0xd9, 0xe3, 0xe2, 0xaf, 0x89, 0xae, 0x30, 0x70, 0x59, 0x10,
         0x4a, 0xaa, 0x81, 0x9b, 0x9a, 0x98, 0x7a, 0x76, 0xcf, 0x7c, 0xf5, 0x1e, 0x6e])) = true := by
  decide +kernel

/-- V42: Ascon-Xofa, 9 bytes; and a wanted length of 0. -/
theorem test_hash_variable_length :
    after (exec (.hash 3) { hashing with hlen := 9 })
      (fun t => decide (hostBytes t .dout 10 = [0x19, 0x48, 0xe5, 0xfe, 0xdc, 0x1e, 0x01, 0x6f, 0x5a, 0x00])) = true
      ∧ after (exec (.hash 2) { hashing with hlen := 0 }) (fun t => decide (t.olen = 0 ∧ t.status = 0x02)) = true := by
  decide +kernel

/-! ## Errors (95_test_vectors.md section 3) -/

/-- The `STATUS` a command byte leaves. -/
def report (b : Byte) (s : State) (st : BitVec 8) : Bool := after (hostAction (.command b) s) fun t => decide (t.status = st)

/-- E1 to E5, V29e. -/
theorem test_argument_errors :
    report 0x00 small 0x82 = true ∧ report 0xff small 0x82 = true ∧ report 0x13 encrypting 0x12 = true
      ∧ report 0x2f decrypting 0x12 = true ∧ report 0x34 small 0x22 = true ∧ report 0x40 small 0x92 = true
      ∧ report 0x4d small 0x92 = true := by
  decide +kernel

/-- E6 to E9: the key lengths. -/
theorem test_key_length :
    report 0x10 State.reset 0x32 = true ∧ report 0x12 (loaded K16 N1 [] []) 0x32 = true
      ∧ report 0x11 (loaded K20 N1 [] []) 0x32 = true ∧ report 0x12 (loaded K20 N1 [] []) 0x02 = true := by
  decide +kernel

/-- E10 to E14: nonce, ciphertext, hash lengths. -/
theorem test_other_lengths :
    report 0x10 { encrypting with nlen := 12 } 0x42 = true ∧ report 0x21 { decrypting with nlen := 17 } 0x42 = true
      ∧ report 0x20 { decrypting with dlen := 15 } 0x62 = true ∧ report 0x20 { decrypting with dlen := 0 } 0x62 = true
      ∧ report 0x30 { hashing with hlen := 31 } 0x52 = true := by
  decide +kernel

/-- 60_exceptions.md R235: one byte more than a buffer holds, for each buffer. -/
theorem test_capacity :
    report 0x10 { encrypting with adlen := 17 } 0xA2 = true ∧ report 0x30 { hashing with dlen := 41 } 0xA2 = true
      ∧ report 0x32 { hashing with hlen := 57 } 0xA2 = true := by
  decide +kernel

/-- 70_reset_and_hazards.md R278 at the fine grain: 20 moves into an `ENCRYPT` a `CMD` write is ignored. -/
theorem test_busy_ignores_commands : report 0x41 midway 0x01 = true := by decide +kernel

/-- 10_state.md R28, R23: what a read at rest returns, the byte last written to `CMD` and a word of `S`. -/
theorem test_read_at_rest :
    after (step (facing (.host (.rd8 .cmd)) { small with cmd := 0x41 })) (fun t => decide (t.observed = [.reg8 .cmd 0x41])) = true
      ∧ after (step (facing (.host (.rdWord 3)) { small with S := ⟨1, 2, 3, 4, 5⟩ }))
        (fun t => decide (t.observed = [.word 3 4])) = true := by
  decide +kernel

/-! ## Witnesses: for each statement with hypotheses, a case that meets them -/

/-- Both forms of the `CMD` write, idle and busy; at the fine grain a command that is ready, one that is not, and a reserved byte. -/
theorem witness_StepRunsTheCommand :
    (∀ a ∈ [HostAction.command 0x41, .wr8 .cmd 0x41],
      (facing (.host a) small).agenda = .host a :: [] ∧ (facing (.host a) small).busy = false
        ∧ (facing (.host a) midway).busy = true)
      ∧ decode [0x41] = .command (.permute 1) []
      ∧ (encrypting.busy = false ∧ decode [0x10] = .command (.encrypt 0) [] ∧ CommandReady (.encrypt 0) encrypting)
      ∧ (CommandReady (.permute 1) small ∧ CommandReady (.permute 12) small ∧ ¬CommandReady (.permute 13) small)
      ∧ (∀ i, decode [0x10] = .command i [] → ¬CommandReady i small)
      ∧ ∀ i, decode [0x50] = .command i [] → ¬CommandReady i small := by
  refine ⟨by decide +kernel, by decide, ⟨by decide +kernel, by decide, .ascon128, by decide +kernel⟩,
    ⟨?_, ?_, ?_⟩, ?_, ?_⟩
  · exact ⟨by decide, by decide⟩
  · exact ⟨by decide, by decide⟩
  · exact fun h => absurd h.2 (by decide)
  · rintro i h
    cases h
    rintro ⟨v, hv⟩
    have : ¬EncryptReady 0 v small := by revert v; intro v _; cases v <;> decide +kernel
    exact this hv
  · intro i h
    have hr : decode [0x50] = .rejected (.reservedOp 5) := by decide
    rw [hr] at h
    cases h

theorem witness_ReservedOpIsIllegalCommand :
    ∀ b ∈ [0x00#8, 0x0F#8, 0x50#8, 0xFF#8], ∀ a ∈ [HostAction.command b, .wr8 .cmd b],
      (facing (.host a) small).agenda = .host a :: []
        ∧ Idle (facing (.host a) small) ∧ opField b ∉ [1#4, 2#4, 3#4, 4#4] := by
  decide +kernel

theorem witness_IllegalArgumentsRaiseTheirError :
    Idle small ∧ 3 ≤ (3#4).toNat ∧ 3 ≤ (15#4).toNat ∧ 4 ≤ (4#4).toNat ∧ 4 ≤ (15#4).toNat ∧ (0#4).toNat = 0
      ∧ 13 ≤ (13#4).toNat ∧ 13 ≤ (15#4).toNat := by
  decide +kernel

/-- Each line of the order of checks is reached. -/
theorem witness_ValidationOrder :
    after (exec (.encrypt 3) small) (fun t => t.err = 1) = true
      ∧ after (exec (.encrypt 0) small) (fun t => t.err = 3) = true
      ∧ after (exec (.encrypt 0) { encrypting with nlen := 15 }) (fun t => t.err = 4) = true
      ∧ after (exec (.encrypt 0) { encrypting with dlen := 41 }) (fun t => t.err = 10) = true
      ∧ after (exec (.encrypt 0) encrypting) (fun t => t.err = 0) = true
      ∧ after (exec (.decrypt 0) { decrypting with dlen := 15 }) (fun t => t.err = 6) = true
      ∧ after (exec (.decrypt 0) { decrypting with adlen := 17 }) (fun t => t.err = 10) = true
      ∧ after (exec (.decrypt 0) forging) (fun t => t.err = 7) = true
      ∧ after (exec (.hash 4) small) (fun t => t.err = 2) = true
      ∧ after (exec (.hash 1) { hashing with hlen := 33 }) (fun t => t.err = 5) = true
      ∧ after (exec (.hash 2) { hashing with hlen := 57 }) (fun t => t.err = 10) = true
      ∧ after (exec (.hash 2) { hashing with hlen := 56 }) (fun t => t.err = 0) = true
      ∧ after (exec (.permute 13) small) (fun t => t.err = 9) = true
      ∧ after (exec (.permute 12) small) (fun t => t.err = 0) = true
      ∧ small.busy = false ∧ opField 0x50 ∉ [1#4, 2#4, 3#4, 4#4] := by
  decide +kernel

theorem witness_ValidationErrorChangesOnlyTheReport :
    ∀ b ∈ [0x10#8, 0x50#8],
      Idle small ∧ ∃ t, hostAction (.command b) small = .next t ∧ t.err ≠ 0 ∧ t.err ≠ 7 := by
  intro b hb
  have hb : after (hostAction (.command b) small) (fun t => t.err ≠ 0 ∧ t.err ≠ 7) = true := by
    revert b; decide +kernel
  obtain ⟨t, h, ht⟩ := exists_of_after hb
  exact ⟨by decide +kernel, t, h, of_decide_eq_true ht⟩

/-- A host write after a result, and a `WAIT` at rest. -/
theorem witness_ReportStaysUntilNextCommand :
    (∀ e ∈ [Event.host (.wr8 .klen 7), .host (.wrByte .dout 0 1), .host .wait, .block],
      Idle (facing e small) ∧ after (step (facing e small)) (fun _ => true) = true
        ∧ e ≠ .reset) ∧ ∀ a ∈ [HostAction.wr8 .klen 7, .wrByte .dout 0 1, .wait], isCommand a = false := by
  decide +kernel

/-- One state for each of the three cases, each facing each of the three reads. -/
theorem witness_NothingReleasedWithoutSuccess :
    ∀ a ∈ [HostAction.rdByte .dout 0, .rdBytes .dout 57, .rdResult],
      (StatusForm (facing (.host a) midway) ∧ (facing (.host a) midway).busy = true)
        ∧ (StatusForm (facing (.host a) small) ∧ (facing (.host a) small).done = false)
        ∧ after (exec (.encrypt 3) small)
          (fun t => decide (StatusForm (facing (.host a) t) ∧ (facing (.host a) t).err ≠ 0)) = true := by
  decide +kernel

theorem witness_AddConstantChangesWordTwo : 0 ≤ 11 ∧ 11 ≤ 11 := by decide

/-- The all-zero lane and the all-ones lane (V26, V27), at the first and at the last bit. -/
theorem witness_SubstitutionIsLaneByLane :
    substitute zeroWords = ⟨0, 0, 0xffffffffffffffff, 0, 0⟩
      ∧ substitute ⟨0xffffffffffffffff, 0xffffffffffffffff, 0xffffffffffffffff, 0xffffffffffffffff, 0xffffffffffffffff⟩
        = ⟨0xffffffffffffffff, 0, 0xffffffffffffffff, 0xffffffffffffffff, 0xffffffffffffffff⟩
      ∧ 0 < 64 ∧ 63 < 64 := by
  decide +kernel

/-- Bit 0 of `S[0]` goes to bits 0, 45 and 36 (40_permutation.md R124). -/
theorem witness_DiffusionBitByBit : diffuse ⟨1, 0, 0, 0, 0⟩ = ⟨0x0000201000000001, 0, 0, 0, 0⟩ ∧ 0 < 64 ∧ 63 < 64 := by
  decide +kernel

theorem witness_PermutationCountsFromTheEnd : (1 ≤ 1 ∧ 1 ≤ 12) ∧ 1 ≤ 12 ∧ 12 ≤ 12 := by decide

theorem witness_PermutationIsBijective : perm 1 zeroWords ≠ perm 1 ⟨1, 0, 0, 0, 0⟩ ∧ 1 ≤ 12 ∧ 0 ≤ 11 := by decide +kernel

theorem witness_PermuteRuns :
    Idle small ∧ (1 ≤ (1#4).toNat ∧ (1#4).toNat ≤ 12) ∧ (1 ≤ (12#4).toNat ∧ (12#4).toNat ≤ 12) ∧ (0#4).toNat = 0
      ∧ 13 ≤ (13#4).toNat := by
  decide +kernel

theorem witness_BigEndianConversions :
    (count 1 8).length = 8 ∧ (count 0 40).length = 40 ∧ 256 < 2 ^ 32 ∧ be32 256 = [0, 0, 1, 0] ∧ 0 < 8 ∧ 7 < 8 := by
  decide +kernel

/-- Index 6 is a zero byte between the marker and the end of the block. -/
theorem witness_PaddingAlwaysAddsAByte :
    ascon.length < 6 ∧ 6 < (pad ascon .r8).length ∧ (pad [] .r16).length = 16 := by decide +kernel

/-- A full block and a last block of the same 20 bytes; and the empty last block of 16 bytes. -/
theorem witness_LoadBlockPadsTheLastBlock :
    0 < 20 / rateLen .r16 ∧ 1 = 20 / rateLen .r16 ∧ 2 = 16 / rateLen .r8
      ∧ loadBlock (loaded [] [] [] (count 0 16)) .din 16 .r8 2 = [0x80, 0, 0, 0, 0, 0, 0, 0] := by
  decide +kernel

theorem witness_AeadInitialState : K16.length = 16 ∧ K20.length = 20 ∧ N1.length = 16 := by decide +kernel

/-- 41_aead.md section 7 and V34: the state after the key XOR. -/
theorem witness_AeadInitXorsTheKey :
    K16.length = (aeadParams .ascon128).klen ∧ K20.length = (aeadParams .ascon80pq).klen
      ∧ aeadInit (aeadParams .ascon128) K16 N1
        = ⟨0xcba43b0a331b0ae5, 0xd0b1251e0aae45b2, 0x38a513833140c3d8, 0x9a7e53e8fcfb3832, 0x51df9d8eccf77b4f⟩
      ∧ aeadInit (aeadParams .ascon80pq) K20 N1
        = ⟨0x680a54721c179e29, 0xebe2b861f6cb905c, 0xd500eb179eb3483e, 0xe950cdb359bd8344, 0xa4d2f9b5838a16f6⟩ := by
  decide +kernel

/-- 41_aead.md section 7: the state after the associated data. -/
theorem test_absorb :
    absorbAD 6 .r8 ASCON (aeadInit (aeadParams .ascon128) K16 N1)
      = ⟨0xacf1fb00c3141dcc, 0x1e04f16a0acadd30, 0x75f6996b9baefe47, 0x46c3b13b7ffc23de, 0x92078f96d4edfb1d⟩ := by
  decide +kernel

/-- 41_aead.md section 7, the decrypting row: `l = 5`; and the other boundaries of the tail. -/
theorem witness_DecryptTailInWordForm :
    setrate ⟨0xacf1fb00c3141dcc, 0, 0, 0, 0⟩ .r8
        (tailRate (ratebytes ⟨0xacf1fb00c3141dcc, 0, 0, 0, 0⟩ .r8) [0xcd, 0x82, 0x98, 0x6f, 0xad])
        = ⟨0xcd82986fad941dcc, 0, 0, 0, 0⟩
      ∧ (count 0 0).length < 8 ∧ (count 0 7).length < 8 ∧ (8 ≤ (count 0 8).length ∧ (count 0 8).length < 16)
      ∧ (8 ≤ (count 0 15).length ∧ (count 0 15).length < 16) := by
  decide +kernel

/-- 41_aead.md section 7 and V34: the state after the key injection. -/
theorem witness_FinalizeSpelledOut :
    K16.length = 16 ∧ K20.length = 20
      ∧ injectKey .r8 K16
          ⟨0xcd82986fad941dcc, 0x1e04f16a0acadd30, 0x75f6996b9baefe47, 0x46c3b13b7ffc23de, 0x92078f96d4edfb1d⟩
        = ⟨0xcd82986fad941dcc, 0x1e05f3690ecfdb37, 0x7dff936097a3f048, 0x46c3b13b7ffc23de, 0x92078f96d4edfb1d⟩
      ∧ injectKey .r8 K20
          ⟨0x10749dbf26dbdb0f, 0x2d3277425bfbd67d, 0x16bdea920c4e03b0, 0x1afe80d0f503ca34, 0x76b64d1c35ef6387⟩
        = ⟨0x10749dbf26dbdb0f, 0x2d3375415ffed07a, 0x1eb4e09900430dbf, 0x0aef92c3f503ca34, 0x76b64d1c35ef6387⟩ := by
  decide +kernel

/-- Full buffers, and empty ones. -/
theorem witness_EncryptRuns :
    Idle encrypting ∧ encrypting.caps.Legal ∧ EncryptReady 0 .ascon128 encrypting
      ∧ EncryptReady 1 .ascon128a (loaded K16 N1 (count 0 16) (count 0 40))
      ∧ EncryptReady 2 .ascon80pq (loaded K20 N1 [] []) := by
  decide +kernel

theorem witness_DecryptReleasesAuthenticPlaintext :
    Idle decrypting ∧ decrypting.caps.Legal ∧ DecryptReady 0 .ascon128 decrypting
      ∧ (aeadDecrypt .ascon128 (memRead decrypting .key 0 16) (memRead decrypting .nonce 0 16)
          (memRead decrypting .ad 0 decrypting.adlen.toNat) (memRead decrypting .din 0 (decrypting.dlen.toNat - 16))).2
        = memRead decrypting .din (decrypting.dlen.toNat - 16) 16 := by
  decide +kernel

theorem witness_DecryptRejectsForgedInput :
    Idle forging ∧ DecryptReady 0 .ascon128 forging
      ∧ (aeadDecrypt .ascon128 (memRead forging .key 0 16) (memRead forging .nonce 0 16)
          (memRead forging .ad 0 forging.adlen.toNat) (memRead forging .din 0 (forging.dlen.toNat - 16))).2
        ≠ memRead forging .din (forging.dlen.toNat - 16) 16 := by
  decide +kernel

theorem witness_AnyOtherTagFails :
    DecryptReady 0 .ascon128 decrypting
      ∧ (∃ t, exec (.decrypt 0) decrypting = .next t ∧ t.err = 0)
      ∧ (∀ i, i < decrypting.dlen.toNat - 16 →
          storedByte { decrypting with din := forging.din } .din i = storedByte decrypting .din i)
      ∧ ∃ i, decrypting.dlen.toNat - 16 ≤ i ∧ i < decrypting.dlen.toNat
          ∧ storedByte { decrypting with din := forging.din } .din i ≠ storedByte decrypting .din i := by
  refine ⟨by decide +kernel, ?_, by decide +kernel, 20, by decide +kernel⟩
  obtain ⟨t, h, ht⟩ := exists_of_after (o := exec (.decrypt 0) decrypting) (p := fun t => t.err = 0) (by decide +kernel)
  exact ⟨t, h, of_decide_eq_true ht⟩

/-- The same inputs in a block whose other state differs. -/
def elsewhere : State :=
  { encrypting with S := ⟨1, 2, 3, 4, 5⟩, hlen := 7, dout := [(3, 9)], din := Memory.writeBytes encrypting.din 9 [1], epoch := 4 }

theorem witness_EncryptReadsOnlyItsInputs :
    EncryptReady 0 .ascon128 encrypting ∧ EncryptReady 0 .ascon128 elsewhere ∧ encrypting ≠ elsewhere
      ∧ encrypting.adlen = elsewhere.adlen ∧ encrypting.dlen = elsewhere.dlen
      ∧ (∀ i, i < (aeadParams .ascon128).klen → storedByte encrypting .key i = storedByte elsewhere .key i)
      ∧ (∀ i, i < 16 → storedByte encrypting .nonce i = storedByte elsewhere .nonce i)
      ∧ (∀ i, i < encrypting.adlen.toNat → storedByte encrypting .ad i = storedByte elsewhere .ad i)
      ∧ (∀ i, i < encrypting.dlen.toNat → storedByte encrypting .din i = storedByte elsewhere .din i) := by
  decide +kernel

theorem witness_HostScriptsDeliverTheirResults :
    Idle small ∧ small.caps.Legal ∧ K16.length = (aeadParams .ascon128).klen ∧ N1.length = 16
      ∧ (∀ a ∈ some ASCON, a.length ≤ small.caps.ad) ∧ ascon.length + 16 ≤ small.caps.din
      ∧ (count 0 24).length + 16 ≤ small.caps.din := by
  decide +kernel

/-- The script of `hash`: a full message, a variable length of 0 and of all of `DOUT`, and a fixed length of 31. -/
theorem witness_HostScriptsDeliverTheirResults_hash :
    (count 0 40).length ≤ small.caps.din ∧ (HashVariant.hash = .hash ∧ 32 ≤ small.caps.dout)
      ∧ (¬(HashVariant.xof = .hash ∨ HashVariant.xof = .hasha) ∧ 0 ≤ small.caps.dout ∧ 56 ≤ small.caps.dout)
      ∧ (HashVariant.hasha = .hash ∨ HashVariant.hasha = .hasha) ∧ 31 ≠ 32 := by
  decide +kernel

theorem witness_AbsentAndEmptyAssociatedDataAgree : Idle small := by decide +kernel

/-- A key one byte short, and one longer than `KEY`. -/
theorem witness_WrongKeyLengthFailsTheScript :
    Idle small ∧ (count 0 15).length ≠ (aeadParams .ascon128).klen ∧ (count 0 21).length ≠ (aeadParams .ascon80pq).klen := by
  decide +kernel

theorem witness_SqueezeEmitsWordZero : 0 < 9 ∧ 8 < 9 := by decide

theorem witness_XofPrefix : (HashVariant.xofa = .xof ∨ HashVariant.xofa = .xofa) ∧ 8 ≤ 9 := by decide

theorem witness_HashRuns :
    Idle hashing ∧ hashing.caps.Legal ∧ HashReady 0 .hash hashing ∧ HashReady 1 .hasha hashing
      ∧ HashReady 2 .xof { hashing with hlen := 0 } ∧ HashReady 3 .xofa { hashing with hlen := 56 } := by
  decide +kernel

theorem witness_HashReadsOnlyItsInputs :
    HashReady 2 .xof hashing ∧ HashReady 2 .xof { elsewhere with hlen := 32 }
      ∧ hashing ≠ { elsewhere with hlen := 32 } ∧ hashing.dlen = elsewhere.dlen
      ∧ hashing.hlen = ({ elsewhere with hlen := 32 } : State).hlen
      ∧ ∀ i, i < hashing.dlen.toNat → storedByte hashing .din i = storedByte { elsewhere with hlen := 32 } .din i := by
  decide +kernel

theorem witness_DoutIsGatedByOlen :
    ∀ a ∈ [HostAction.rdByte .dout 5, .rdBytes .dout 6],
      Idle (facing (.host a) small) ∧ (facing (.host a) small).agenda = .host a :: [] := by
  decide +kernel

/-- A write, and a read of each kind. -/
theorem witness_BusyLocksTheHostOut :
    ∀ a ∈ [HostAction.wrWord 0 1, .wr8 .cmd 0x41, .rd8 .klen, .rd8 .status, .rd32 .olen, .rdWord 4, .rdByte .din 40, .rdBytes .key 21],
      (facing (.host a) midway).busy = true ∧ (facing (.host a) midway).agenda = .host a :: [] ∧ a ≠ .wait
        ∧ a ≠ .rdResult := by
  decide +kernel

/-- A read of each kind at rest, bytes up to the last one of their space. -/
theorem witness_ReadsReturnTheirValueAndChangeNothing :
    (∀ a ∈ [HostAction.rd8 .cmd, .rd32 .hlen, .rdWord 4, .rdByte .key 19, .rdBytes .nonce 16, .rdByte .dout 99, .rdResult],
      (facing (.host a) small).agenda = .host a :: [] ∧ isHostRead a = true ∧ (facing (.host a) small).busy = false
        ∧ after (step (facing (.host a) small)) (fun _ => true) = true)
      ∧ readExists small (.rdByte .key 19) ∧ readExists small (.rdBytes .nonce 16) ∧ readExists small (.rdByte .dout 99)
      ∧ readExists small .rdResult := by
  refine ⟨by decide +kernel, .inr (by decide), .inr (by decide), .inl rfl, trivial⟩

/-- A command is an event that is neither a host write nor a reset. -/
theorem witness_InputsChangeOnlyByHostOrReset :
    (∃ t, step (facing (.host (.command 0x10)) encrypting) = .next t)
      ∧ ∀ e ∈ (facing (.host (.command 0x10)) encrypting).agenda.head?,
          e ≠ .reset ∧ ∀ a, e = .host a → isHostWrite a = false := by
  refine ⟨?_, ?_⟩
  · obtain ⟨t, h, -⟩ :=
      exists_of_after (o := step (facing (.host (.command 0x10)) encrypting)) (p := fun _ => true) (by decide +kernel)
    exact ⟨t, h⟩
  · rintro e he
    cases he
    exact ⟨by decide, fun a ha => by cases ha; rfl⟩

theorem witness_RegisterWritesReachTheirRegister : Idle small := by decide +kernel

/-- Each space to its last byte, and one byte too many. -/
theorem witness_HostBytesReadBack :
    Idle small ∧ Space.key ≠ .dout ∧ K20.length ≤ spaceSize small .key ∧ N1.length ≤ spaceSize small .nonce
      ∧ (count 0 16).length ≤ spaceSize small .ad ∧ (count 0 40).length ≤ spaceSize small .din
      ∧ 19 < spaceSize small .key ∧ 15 < spaceSize small .nonce ∧ 15 < spaceSize small .ad ∧ 39 < spaceSize small .din
      ∧ spaceSize small .key < (count 0 21).length ∧ 55 < spaceSize small .dout := by
  decide +kernel

theorem witness_ResetAbandonsEverything : (facing .reset midway).agenda = .reset :: [] := by decide +kernel

/-- At rest, and a `WAIT` before and after the end of a command. -/
theorem witness_AtRestNothingChanges :
    (small.agenda = [] ∧ small.job = none)
      ∧ ((facing (.host .wait) midway).agenda = .host .wait :: [] ∧ (facing (.host .wait) midway).done = false)
      ∧ after (exec (.permute 1) small) (fun t => (facing (.host .wait) t).done) = true := by
  decide +kernel

/-- A stop of each of the three shapes, each at the first byte that is absent. -/
theorem witness_OnlyAbsentBytesStop :
    step (facing (.host (.wrByte .dout 56 0)) small) = .fault (.noSuchByte .dout 56)
      ∧ step (facing (.host (.rdByte .key 20)) small) = .fault (.noSuchByte .key 20)
      ∧ step (facing (.host (.rdBytes .nonce 17)) small) = .fault (.noSuchByte .nonce 16) :=
  ⟨rfl, rfl, rfl⟩

theorem witness_CapacitiesNeverChange : ∃ t, step midway = .next t := ⟨_, rfl⟩

theorem witness_MemoryFormKept : MemoryForm midway ∧ ∃ t, step midway = .next t := ⟨by decide +kernel, _, rfl⟩

theorem witness_StatusFormKept : StatusForm midway ∧ ∃ t, step midway = .next t := ⟨by decide +kernel, _, rfl⟩

/-- With a command in progress. -/
theorem witness_SoundKept : Sound midway ∧ midway.job.isSome = true ∧ ∃ t, step midway = .next t :=
  ⟨by decide +kernel, by decide +kernel, _, rfl⟩

theorem witness_CommandInProgressCompletes : midway.job.isSome = true := by decide +kernel

/-- The same `ENCRYPT` with its tag made and not yet stored. -/
def tagged : State := blockMoves 38 (beginInstr (.encrypt 0) encrypting)

/-- Inside the chain, and before the move that enters `Finalized`. -/
theorem witness_PhasesAdvanceInOrder :
    (JobForm midway ∧ midway.job.isSome = true)
      ∧ JobForm tagged ∧ tagged.job.isSome = true ∧ tagged.phase ≠ .finalized ∧ (blockMove tagged).phase = .finalized := by
  decide +kernel

/-- 10_state.md R40, R42, 41_aead.md section 7: the candidate tag stands in `tagc` while `phase` is still `Duplexing`. -/
theorem test_tag_before_finalized :
    tagged.phase = .duplexing ∧ tagged.tagc.toList = genuine.drop 5 ∧ tagged.busy = true := by
  decide +kernel

/-- 10_state.md R20 on one command: six rounds and the completion at the fine grain, and the state the atomic step gives. -/
theorem test_fine_grain :
    after (exec (.permute 6) small) (fun t => decide (blockMoves 7 (beginInstr (.permute 6) small) = t)) = true
      ∧ (blockMoves 6 (beginInstr (.permute 6) small)).busy = true := by
  decide +kernel

end Sys2Proof.Tests
end

section
/-! SUPPORT. The laws of the big-endian conversions (00_scope.md R13), of the padding (R16) and of the capacities (R10), and the three
statements they settle. -/

namespace Sys2Proof.Machine

/-! ## The value of a big-endian byte sequence (00_scope.md R13) -/

/-- The number a byte sequence of any length stands for, its first byte the most significant: the one reading of `be64` and
of `be32` (`be64_toNat`, `beValue_be32`). -/
def beValue (b : List Byte) : Nat := b.foldl (fun acc x => acc * 256 + x.toNat) 0

theorem beValue_concat (b : List Byte) (x : Byte) : beValue (b ++ [x]) = beValue b * 256 + x.toNat := by
  simp [beValue]

/-- A byte sequence is determined by its length and its value. -/
theorem beValue_injective {x y : List Byte} (hlen : x.length = y.length) (h : beValue x = beValue y) : x = y := by
  induction x using List.reverseRecOn generalizing y with
  | nil => exact (List.length_eq_zero_iff.mp hlen.symm).symm
  | append_singleton xs a ih =>
    obtain rfl | ⟨ys, b, rfl⟩ := List.eq_nil_or_concat y
    · simp at hlen
    · rw [List.concat_eq_append] at hlen h ⊢
      rw [beValue_concat, beValue_concat] at h
      have hab : a = b := BitVec.eq_of_toNat_eq (by omega)
      have hxy : xs = ys := ih (by simpa using hlen) (by omega)
      rw [hab, hxy]

/-- One more byte below a word that leaves room for it. -/
theorem shiftInByte_toNat {w : Word} (x : Byte) (h : w.toNat < 2 ^ 56) :
    ((w <<< 8) ||| x.setWidth 64).toNat = w.toNat * 256 + x.toNat := by
  have hx : x.toNat < 2 ^ 8 := x.isLt
  have hshift : w.toNat <<< 8 % 2 ^ 64 = w.toNat <<< 8 := by
    rw [Nat.shiftLeft_eq]
    omega
  rw [BitVec.toNat_or, BitVec.toNat_shiftLeft, hshift, BitVec.toNat_setWidth, Nat.mod_eq_of_lt (by omega),
    ← Nat.shiftLeft_add_eq_or_of_lt hx, Nat.shiftLeft_eq]

/-- The words `be64` goes through, as long as no byte is shifted out. -/
theorem shiftInBytes_toNat (b : List Byte) {w : Word} (h : (w.toNat + 1) * 256 ^ b.length ≤ 2 ^ 64) :
    (b.foldl (fun (w : Word) x => (w <<< 8) ||| x.setWidth 64) w).toNat =
      b.foldl (fun acc x => acc * 256 + x.toNat) w.toNat := by
  induction b generalizing w with
  | nil => rfl
  | cons x xs ih =>
    have hpos : 1 ≤ 256 ^ xs.length := Nat.one_le_pow _ _ (by decide)
    have hroom : (w.toNat + 1) * 256 * 256 ^ xs.length ≤ 2 ^ 64 := by
      rw [List.length_cons, Nat.pow_succ] at h
      linarith
    have hw : (w.toNat + 1) * 256 ≤ 2 ^ 64 := (Nat.le_mul_of_pos_right _ hpos).trans hroom
    have hstep := shiftInByte_toNat x (w := w) (by omega)
    have hle : w.toNat * 256 + x.toNat + 1 ≤ (w.toNat + 1) * 256 := by omega
    rw [List.foldl_cons, List.foldl_cons, ih (hstep ▸ (Nat.mul_le_mul_right _ hle).trans hroom), hstep]

/-- `be64` loses nothing of a sequence that fits a word. -/
theorem be64_toNat {b : List Byte} (h : b.length ≤ 8) : (be64 b).toNat = beValue b :=
  shiftInBytes_toNat b (w := 0) <| calc
    ((0 : Word).toNat + 1) * 256 ^ b.length = 256 ^ b.length := by simp
    _ ≤ 256 ^ 8 := Nat.pow_le_pow_right (by decide) h

theorem beValue_cons (x : Byte) (xs : List Byte) : beValue (x :: xs) = x.toNat * 256 ^ xs.length + beValue xs := by
  induction xs using List.reverseRecOn with
  | nil => simp [beValue]
  | append_singleton xs a ih =>
    rw [← List.cons_append, beValue_concat, ih, beValue_concat, List.length_append, List.length_singleton, Nat.pow_succ]
    ring

/-- Each byte counts with the weight of its place. -/
theorem beValue_eq_sum (b : List Byte) :
    beValue b = ((List.range b.length).map fun j => (b.getD j 0).toNat * 2 ^ (8 * (b.length - 1 - j))).sum := by
  induction b with
  | nil => rfl
  | cons x xs ih =>
    rw [beValue_cons, ih, List.length_cons, List.range_succ_eq_map]
    simp [Function.comp_def, pow_mul, Nat.sub_sub, Nat.add_comm 1]

/-- `bytes8` takes a word apart into its digits to base 256. -/
theorem beValue_bytes8 (w : Word) : beValue (bytes8 w) = w.toNat := by
  have hw : w.toNat < 2 ^ 64 := w.isLt
  simp only [beValue, bytes8, List.range_succ, List.range_zero, List.nil_append, List.cons_append, List.map_cons,
    List.map_nil, List.foldl_cons, List.foldl_nil, BitVec.extractLsb'_toNat, Nat.shiftRight_eq_div_pow]
  omega

@[simp] theorem be64_bytes8 (w : Word) : be64 (bytes8 w) = w :=
  BitVec.eq_of_toNat_eq <| by rw [be64_toNat (by simp), beValue_bytes8]

theorem bytes8_be64 {b : List Byte} (h : b.length = 8) : bytes8 (be64 b) = b :=
  beValue_injective (by simp [h]) <| by rw [beValue_bytes8, be64_toNat h.le]

/-- Byte `j` of a word is `w[63-8j : 56-8j]`. -/
theorem bytes8_getElem? (w : Word) {j : Nat} (hj : j < 8) :
    (bytes8 w)[j]? = some ((w.extractLsb (63 - 8 * j) (56 - 8 * j)).setWidth 8) := by
  have hwidth : 63 - 8 * j - (56 - 8 * j) + 1 = 8 := by omega
  have hbyte : w.extractLsb' (56 - 8 * j) 8 = (w.extractLsb (63 - 8 * j) (56 - 8 * j)).setWidth 8 :=
    BitVec.eq_of_toNat_eq <| by
      rw [BitVec.toNat_setWidth, BitVec.extractLsb_toNat, BitVec.extractLsb'_toNat, hwidth, Nat.mod_mod]
  simp [bytes8, hj, hbyte]

/-- Word `i` of `words5` is the `be64` of bytes `8i .. 8i+7`. -/
theorem wordAt_words5 (b : List Byte) (i : Fin 5) : wordAt (words5 b) i = be64 ((b.drop (8 * i)).take 8) := by
  fin_cases i <;> rfl

@[simp] theorem be32_length (n : Nat) : (be32 n).length = 4 := by simp [be32]

theorem beValue_be32 {n : Nat} (h : n < 2 ^ 32) : beValue (be32 n) = n := by
  simp only [beValue, be32, List.range_succ, List.range_zero, List.nil_append, List.cons_append, List.map_cons,
    List.map_nil, List.foldl_cons, List.foldl_nil, BitVec.toNat_ofNat]
  omega

/-! ## The padding (00_scope.md R16) -/

/-- The padded sequence is one block longer than the full blocks of the sequence. -/
theorem pad_length (b : List Byte) (rate : Rate) :
    (pad b rate).length = (b.length / rateLen rate + 1) * rateLen rate := by
  have hmod : b.length % rateLen rate < rateLen rate := Nat.mod_lt _ (rateLen_pos rate)
  have hdiv : b.length / rateLen rate * rateLen rate + b.length % rateLen rate = b.length := Nat.div_add_mod' _ _
  simp only [pad, List.length_append, List.length_cons, zeros_length, Nat.add_mul]
  omega

theorem length_lt_pad_length (b : List Byte) (rate : Rate) : b.length < (pad b rate).length := by
  simp [pad]

theorem pad_length_le (b : List Byte) (rate : Rate) : (pad b rate).length ≤ b.length + rateLen rate := by
  rw [pad_length, Nat.add_mul, Nat.one_mul]
  exact Nat.add_le_add_right (Nat.div_mul_le_self _ _) _

theorem pad_take_length (b : List Byte) (rate : Rate) : (pad b rate).take b.length = b :=
  List.take_left

theorem pad_getElem?_length (b : List Byte) (rate : Rate) : (pad b rate)[b.length]? = some 0x80 := by
  simp [pad]

/-- After the byte 0x80 come zeros alone. -/
theorem pad_getElem?_of_lt {b : List Byte} {rate : Rate} {i : Nat} (hlo : b.length < i)
    (hhi : i < (pad b rate).length) : (pad b rate)[i]? = some 0 := by
  obtain ⟨k, rfl⟩ : ∃ k, i = b.length + (k + 1) := ⟨i - b.length - 1, by omega⟩
  have hk : k < rateLen rate - b.length % rateLen rate - 1 := by
    simp only [pad, List.length_append, List.length_cons, zeros_length] at hhi
    omega
  rw [pad, List.getElem?_append_right (by omega), Nat.add_sub_cancel_left, List.getElem?_cons_succ, zeros,
    List.getElem?_replicate_of_lt hk]

/-! ## The capacities (00_scope.md R10, log 5): every operation keeps them -/

@[simp] theorem finishEngine_caps (n : Nat) (s : State) : (finishEngine n s).caps = s.caps := rfl
@[simp] theorem rejectPlaintext_caps (n : Nat) (s : State) : (rejectPlaintext n s).caps = s.caps := rfl
@[simp] theorem finishPermute_caps (s : State) : (finishPermute s).caps = s.caps := rfl
@[simp] theorem illegalCommand_caps (b : Byte) (s : State) : (illegalCommand b s).caps = s.caps := rfl

@[simp] theorem roundMove_caps (t : Task) (s : State) : (roundMove t s).caps = s.caps := by
  unfold roundMove
  split <;> rfl

@[simp] theorem encryptMove_caps (v : AeadVariant) (s : State) : (encryptMove v s).caps = s.caps := by
  simp only [encryptMove]
  split <;> simp

@[simp] theorem decryptMove_caps (v : AeadVariant) (s : State) : (decryptMove v s).caps = s.caps := by
  simp only [decryptMove]
  split <;> simp

@[simp] theorem aeadMove_caps (dir : Direction) (v : AeadVariant) (stage : AeadStage) (s : State) :
    (aeadMove dir v stage s).caps = s.caps := by
  cases stage with
  | load => rfl
  | keyXor => rfl
  | absorb => simp only [aeadMove]; split <;> rfl
  | domain => rfl
  | duplex =>
    cases dir with
    | encrypt => exact encryptMove_caps v s
    | decrypt => exact decryptMove_caps v s
  | inject => rfl
  | tag => rfl
  | finish =>
    cases dir with
    | encrypt => rfl
    | decrypt => simp only [aeadMove]; split <;> rfl

@[simp] theorem hashMove_caps (v : HashVariant) (stage : HashStage) (s : State) :
    (hashMove v stage s).caps = s.caps := by
  cases stage with
  | load => rfl
  | ready => rfl
  | absorb => simp only [hashMove]; split <;> rfl
  | squeeze => simp only [hashMove]; split <;> rfl
  | finish => rfl

@[simp] theorem blockMove_caps (s : State) : (blockMove s).caps = s.caps := by
  unfold blockMove
  split <;> simp

theorem exec_caps {i : Instr} {s t : State} (h : exec i s = .next t) : t.caps = s.caps := by
  cases i with
  | encrypt arg =>
    obtain ⟨e, -, he⟩ | ⟨v, -, he⟩ := execEncrypt_cases arg s <;>
      cases he.symm.trans h <;> rfl
  | decrypt arg =>
    obtain ⟨e, -, he⟩ | ⟨v, -, r, -, ⟨-, he⟩ | ⟨-, he⟩⟩ := execDecrypt_cases arg s <;>
      cases he.symm.trans h <;> rfl
  | hash arg =>
    obtain ⟨e, -, he⟩ | ⟨v, -, he⟩ := execHash_cases arg s <;>
      cases he.symm.trans h <;> rfl
  | permute n =>
    obtain ⟨-, he⟩ | ⟨-, -, he⟩ := execPermute_cases n s <;>
      cases he.symm.trans h <;> rfl

@[simp] theorem beginInstr_caps (i : Instr) (s : State) : (beginInstr i s).caps = s.caps := by
  obtain ⟨-, -, e, -, he⟩ | ⟨-, ⟨t, he⟩ | ⟨n, -, he⟩⟩ := beginInstr_cases i s
  · simp [he]
  · simp [he]
  · simp [he]

theorem commandWrite_caps {b : Byte} {s t : State} (h : commandWrite b s = .next t) : t.caps = s.caps := by
  obtain ⟨-, rfl⟩ | ⟨-, ⟨i, -, he⟩ | ⟨-, rfl⟩⟩ := commandWrite_cases h
  · rfl
  · exact exec_caps he
  · rfl

@[simp] theorem beginWrite_caps (b : Byte) (s : State) : (beginWrite b s).caps = s.caps := by
  obtain ⟨-, he⟩ | ⟨-, ⟨i, -, he⟩ | ⟨-, he⟩⟩ := beginWrite_cases b s
  · rw [he]
  · rw [he, beginInstr_caps]
  · rw [he, illegalCommand_caps]

@[simp] theorem waitDone_caps (s : State) : (waitDone s).caps = s.caps := by
  unfold waitDone
  split <;> simp

theorem HostStore.caps_eq {s t : State} (h : HostStore s t) : t.caps = s.caps := by
  cases h with
  | reg8 r v => cases r <;> rfl
  | reg32 r v => cases r <;> rfl
  | word i v => rfl
  | bytes sp i bs _ => rw [storeBytes_eq]

theorem hostAction_caps {a : HostAction} {s t : State} (h : hostAction a s = .next t) : t.caps = s.caps := by
  obtain ⟨b, -, hb⟩ | ⟨b, -, rfl⟩ | ⟨-, rfl⟩ | ⟨-, o, rfl⟩ | ⟨-, ⟨-, rfl⟩ | ⟨-, hs⟩⟩ := hostAction_cases h
  · exact commandWrite_caps hb
  · exact beginWrite_caps b s
  · exact waitDone_caps s
  · rfl
  · rfl
  · exact hs.caps_eq

theorem step_caps {s t : State} (h : step s = .next t) : t.caps = s.caps := by
  obtain ⟨-, rfl⟩ | ⟨rest, ⟨-, rfl⟩ | ⟨-, rfl⟩ | ⟨a, -, ha⟩⟩ := step_cases h
  · exact blockMove_caps s
  · exact blockMove_caps _
  · rfl
  · exact (hostAction_caps ha).trans rfl

end Sys2Proof.Machine

namespace Sys2Proof.Proofs.Scope

open Sys2Proof.Machine

/-- Settles O18: `be64` reads the value of its bytes (`be64_toNat`), `bytes8` writes the digits of that value
(`beValue_bytes8`), and eight bytes are determined by their value. -/
theorem bigEndianConversions : Obligations.BigEndianConversions := by
  unfold Obligations.BigEndianConversions
  refine ⟨fun b hb => ⟨?_, bytes8_be64 hb⟩, fun w => ⟨bytes8_length w, be64_bytes8 w, fun j hj => bytes8_getElem? w hj⟩,
    fun b i _ => wordAt_words5 b i, fun n hn => ⟨be32_length n, beValue_be32 hn⟩⟩
  rw [be64_toNat hb.le, beValue_eq_sum, hb]

/-- Settles O19: the laws of `pad`, one for each clause. -/
theorem paddingAlwaysAddsAByte : Obligations.PaddingAlwaysAddsAByte := by
  unfold Obligations.PaddingAlwaysAddsAByte
  exact fun b rate => ⟨pad_length b rate, length_lt_pad_length b rate, pad_length_le b rate, pad_take_length b rate,
    pad_getElem?_length b rate, fun _ hlo hhi => pad_getElem?_of_lt hlo hhi⟩

/-- Settles O53, by the cases of a step: a move of the block, a reset, or a host action (`step_caps`). -/
theorem capacitiesNeverChange : Obligations.CapacitiesNeverChange := by
  unfold Obligations.CapacitiesNeverChange
  exact fun _ _ h => step_caps h

end Sys2Proof.Proofs.Scope
end

section
/-! SUPPORT. The two grains of 10_state.md R20 end in the same state: the loops of a command in progress, run move by move. -/

namespace Sys2Proof.Machine

/-! ## Lengths of the data (20_memory.md R66, 41_aead.md R157 to R161) -/

theorem blockAt_eq_take_drop (p : List Byte) (rate : Rate) (i : Nat) :
    blockAt p rate i = (p.drop (i * rateLen rate)).take (rateLen rate) := by
  rw [blockAt, slice, Nat.succ_mul, Nat.add_sub_cancel_left]

theorem blockAt_length {p : List Byte} {rate : Rate} {i : Nat} (h : i < p.length / rateLen rate) :
    (blockAt p rate i).length = rateLen rate := by
  have hroom : (i + 1) * rateLen rate ≤ p.length := (Nat.le_div_iff_mul_le (rateLen_pos rate)).mp h
  rw [Nat.succ_mul] at hroom
  rw [blockAt_eq_take_drop, List.length_take, List.length_drop]
  omega

/-- The block after the full ones is what is left (20_memory.md R66). -/
theorem blockAt_length_last (p : List Byte) (rate : Rate) :
    (blockAt p rate (p.length / rateLen rate)).length = p.length % rateLen rate := by
  rw [blockAt_eq_take_drop, List.length_take, List.length_drop, ← Nat.mod_eq_sub_div_mul,
    Nat.min_eq_right (Nat.mod_lt _ (rateLen_pos rate)).le]

theorem encryptBlocks_length (b : Nat) (rate : Rate) {l : Nat} (hl : l ≤ rateLen rate) (n : Nat) (p : List Byte)
    (S : Words5) : (encryptBlocks b rate l n p S).2.length = n * rateLen rate + l := by
  induction n generalizing p S with
  | zero => simp [encryptBlocks, hl]
  | succ n ih => simp [encryptBlocks, ih, Nat.succ_mul]; omega

/-- The ciphertext is as long as the plaintext (41_aead.md R158). -/
@[simp] theorem encryptData_length (b : Nat) (rate : Rate) (M : List Byte) (S : Words5) :
    (encryptData b rate M S).2.length = M.length := by
  rw [encryptData, encryptBlocks_length b rate (Nat.mod_lt _ (rateLen_pos rate)).le, Nat.div_add_mod']

@[simp] theorem tagOf_length (K : List Byte) (S : Words5) : (tagOf K S).length = 16 := by simp [tagOf]

/-- The permutations of the AEAD variants have a legal number of rounds (00_scope.md R8). -/
theorem aeadParams_rounds (v : AeadVariant) :
    (1 ≤ (aeadParams v).a ∧ (aeadParams v).a ≤ 12) ∧ 1 ≤ (aeadParams v).b ∧ (aeadParams v).b ≤ 12 := by
  cases v <;> decide

/-- The permutations of the hash variants have a legal number of rounds (00_scope.md R9). -/
theorem hashParams_rounds (v : HashVariant) :
    (1 ≤ (hashParams v).a ∧ (hashParams v).a ≤ 12) ∧ 1 ≤ (hashParams v).b ∧ (hashParams v).b ≤ 12 := by
  cases v <;> decide

/-! ## Moves in a row -/

/-- The block gets from `s` to `t` by moves of its own. -/
def Reaches (s t : State) : Prop := ∃ n, blockMoves n s = t

theorem Reaches.trans {s t u : State} (hst : Reaches s t) (htu : Reaches t u) : Reaches s u := by
  obtain ⟨m, rfl⟩ := hst
  obtain ⟨n, rfl⟩ := htu
  exact ⟨m + n, blockMoves_add m n s⟩

theorem reaches_blockMove {s t : State} (h : blockMove s = t) : Reaches s t := ⟨1, h⟩

/-- A command in progress between two permutations, as an update of the state in which it was accepted: its task, its
phase, the state words, the block index, the count of output bytes and `DOUT`. -/
def between (s : State) (t : Task) (ph : Phase) (S : Words5) (i c : Nat) (d : Memory) : State :=
  { s with S := S, phase := ph, blockIdx := i, outCount := c, dout := d, roundIdx := 0, job := some ⟨t, false⟩ }

/-- A move that starts `P(S, n)` leads to the end of that permutation (40_permutation.md R121). -/
theorem reaches_perm {x s : State} {n i c : Nat} {t t' : Task} {ph : Phase} {S : Words5} {d : Memory}
    (hn : 1 ≤ n ∧ n ≤ 12) (h : blockMove x = startPerm n t (between s t' ph S i c d)) :
    Reaches x (between s t ph (perm n S) i c d) :=
  (reaches_blockMove h).trans ⟨n, blockMoves_permutation hn.1 hn.2 rfl rfl⟩

section
variable (s : State) (dir : Direction) (v : AeadVariant) (ph : Phase) (S : Words5) (i c : Nat) (d : Memory)

/-! ## The AEAD commands (41_aead.md R150, R151) -/

/-- Load, permute, XOR the key in: `AeadInit` (41_aead.md R153, R154). -/
theorem reaches_aeadInit :
    Reaches (between s (.aead dir v .load) ph S i c d)
      (between s (.aead dir v .absorb) .initialized (aeadInit (aeadParams v) (keyOf s v) (nonceOf s)) 0 c d) := by
  have hload := reaches_perm (x := between s (.aead dir v .load) ph S i c d) (t := .aead dir v .keyXor)
    (t' := .aead dir v .load) (S := words5 (aeadBuffer (aeadParams v) (keyOf s v) (nonceOf s)))
    (aeadParams_rounds v).1 rfl
  exact hload.trans (reaches_blockMove rfl)

/-- Block `i` of the associated data (41_aead.md R155). -/
theorem blockMove_absorb (hpos : 0 < s.adlen.toNat) (hi : i ≤ s.adlen.toNat / rateLen (aeadParams v).rate) :
    blockMove (between s (.aead dir v .absorb) ph S i c d) =
      startPerm (aeadParams v).b (.aead dir v .absorb)
        (between s (.aead dir v .absorb) .absorbingAD
          (xorRate S (aeadParams v).rate (blockAt (pad (adOf s) (aeadParams v).rate) (aeadParams v).rate i))
          (i + 1) c d) :=
  if_pos ⟨hpos, hi⟩

/-- No block is left: the domain separation comes next (41_aead.md R155). -/
theorem blockMove_absorb_end (h : ¬(0 < s.adlen.toNat ∧ i ≤ s.adlen.toNat / rateLen (aeadParams v).rate)) :
    blockMove (between s (.aead dir v .absorb) ph S i c d) = between s (.aead dir v .domain) .absorbingAD S i c d :=
  if_neg h

/-- The associated-data loop with `k` blocks to go (41_aead.md R155). -/
theorem reaches_absorbBlocks {k : Nat} (hk : i + k = s.adlen.toNat / rateLen (aeadParams v).rate + 1)
    (hpos : 0 < s.adlen.toNat) :
    Reaches (between s (.aead dir v .absorb) ph S i c d)
      (between s (.aead dir v .domain) .absorbingAD
        (absorbBlocks (aeadParams v).b (aeadParams v).rate k
          ((pad (adOf s) (aeadParams v).rate).drop (i * rateLen (aeadParams v).rate)) S) (i + k) c d) := by
  induction k generalizing ph S i with
  | zero => exact reaches_blockMove (blockMove_absorb_end s dir v ph S i c d (by omega))
  | succ k ih =>
    have hmove := blockMove_absorb s dir v ph S i c d hpos (by omega)
    rw [blockAt_eq_take_drop] at hmove
    refine (reaches_perm (aeadParams_rounds v).2 hmove).trans ?_
    rw [absorbBlocks, List.drop_drop, ← Nat.succ_mul, ← Nat.add_assoc, Nat.add_right_comm]
    exact ih _ _ (i + 1) (by omega)

/-- All of the associated data and the domain separation: `AbsorbAD` (41_aead.md R155, R156). -/
theorem reaches_absorbAD :
    Reaches (between s (.aead dir v .absorb) ph S 0 c d)
      (between s (.aead dir v .duplex) .duplexing (absorbAD (aeadParams v).b (aeadParams v).rate (adOf s) S) 0 0 d) := by
  have hlen : (adOf s).length = s.adlen.toNat := memRead_length ..
  unfold absorbAD
  split
  · next hpos =>
    have hloop := reaches_absorbBlocks s dir v ph S 0 c d (Nat.zero_add _) (hlen ▸ hpos)
    rw [Nat.zero_mul, List.drop_zero, ← hlen] at hloop
    exact hloop.trans (reaches_blockMove rfl)
  · next hnil =>
    exact (reaches_blockMove (blockMove_absorb_end s dir v ph S 0 c d (by omega))).trans (reaches_blockMove rfl)

/-- An interior block of `EncryptData` (41_aead.md R157). -/
theorem blockMove_encrypt (hi : i < s.dlen.toNat / rateLen (aeadParams v).rate) {T : Words5}
    (hT : xorRate S (aeadParams v).rate (blockAt (pad (dataOf s) (aeadParams v).rate) (aeadParams v).rate i) = T) :
    blockMove (between s (.aead .encrypt v .duplex) ph S i c d) =
      startPerm (aeadParams v).b (.aead .encrypt v .duplex)
        (between s (.aead .encrypt v .duplex) ph T (i + 1) (c + rateLen (aeadParams v).rate)
          (Memory.writeBytes d c (ratebytes T (aeadParams v).rate))) :=
  hT ▸ if_pos hi

/-- The last block of `EncryptData` (41_aead.md R157, R158). -/
theorem blockMove_encrypt_last (hi : ¬i < s.dlen.toNat / rateLen (aeadParams v).rate) {T : Words5}
    (hT : xorRate S (aeadParams v).rate (blockAt (pad (dataOf s) (aeadParams v).rate) (aeadParams v).rate i) = T) :
    blockMove (between s (.aead .encrypt v .duplex) ph S i c d) =
      between s (.aead .encrypt v .inject) ph T i (c + s.dlen.toNat % rateLen (aeadParams v).rate)
        (Memory.writeBytes d c ((ratebytes T (aeadParams v).rate).take (s.dlen.toNat % rateLen (aeadParams v).rate))) :=
  hT ▸ if_neg hi

/-- The loop of `EncryptData` with `k` interior blocks to go (41_aead.md R157, R158). -/
theorem reaches_encryptBlocks {k : Nat} (hk : i + k = s.dlen.toNat / rateLen (aeadParams v).rate)
    {e : Words5 × List Byte}
    (he : e = encryptBlocks (aeadParams v).b (aeadParams v).rate (s.dlen.toNat % rateLen (aeadParams v).rate) k
      ((pad (dataOf s) (aeadParams v).rate).drop (i * rateLen (aeadParams v).rate)) S) :
    Reaches (between s (.aead .encrypt v .duplex) ph S i c d)
      (between s (.aead .encrypt v .inject) ph e.1 (i + k) (c + e.2.length) (Memory.writeBytes d c e.2)) := by
  induction k generalizing S i c d e with
  | zero =>
    have hmod := Nat.mod_lt s.dlen.toNat (rateLen_pos (aeadParams v).rate)
    have hmove := blockMove_encrypt_last s v ph S i c d (by omega) rfl
    rw [blockAt_eq_take_drop] at hmove
    simpa [he, encryptBlocks, hmod.le] using reaches_blockMove hmove
  | succ k ih =>
    obtain ⟨T, hT⟩ : ∃ T, xorRate S (aeadParams v).rate
      (blockAt (pad (dataOf s) (aeadParams v).rate) (aeadParams v).rate i) = T := ⟨_, rfl⟩
    have hrest := ih (perm (aeadParams v).b T) (i + 1) (c + rateLen (aeadParams v).rate)
      (Memory.writeBytes d c (ratebytes T (aeadParams v).rate)) (by omega) rfl
    rw [encryptBlocks, List.drop_drop, ← Nat.succ_mul, ← blockAt_eq_take_drop, hT] at he
    refine (reaches_perm (aeadParams_rounds v).2 (blockMove_encrypt s v ph S i c d (by omega) hT)).trans ?_
    rw [← ratebytes_length T (aeadParams v).rate, Memory.writeBytes_writeBytes] at hrest
    simpa [he, Nat.add_assoc, Nat.add_comm 1 k] using hrest

/-- An interior block of `DecryptData` (41_aead.md R159). -/
theorem blockMove_decrypt (hi : i < (s.dlen.toNat - tagBytes) / rateLen (aeadParams v).rate) {C : List Byte}
    (hC : blockAt (ciphertextOf s) (aeadParams v).rate i = C) :
    blockMove (between s (.aead .decrypt v .duplex) ph S i c d) =
      startPerm (aeadParams v).b (.aead .decrypt v .duplex)
        (between s (.aead .decrypt v .duplex) ph (setrate S (aeadParams v).rate C) (i + 1)
          (c + rateLen (aeadParams v).rate) (Memory.writeBytes d c (xorBytes (ratebytes S (aeadParams v).rate) C))) :=
  hC ▸ if_pos hi

/-- The tail of `DecryptData` (41_aead.md R161, R162). -/
theorem blockMove_decrypt_last (hi : ¬i < (s.dlen.toNat - tagBytes) / rateLen (aeadParams v).rate) {C : List Byte}
    (hC : blockAt (ciphertextOf s) (aeadParams v).rate i = C) :
    blockMove (between s (.aead .decrypt v .duplex) ph S i c d) =
      between s (.aead .decrypt v .inject) ph
        (setrate S (aeadParams v).rate (tailRate (ratebytes S (aeadParams v).rate) C)) i
        (c + (s.dlen.toNat - tagBytes) % rateLen (aeadParams v).rate)
        (Memory.writeBytes d c (xorBytes (ratebytes S (aeadParams v).rate) C)) :=
  hC ▸ if_neg hi

/-- The loop of `DecryptData` with `k` interior blocks to go (41_aead.md R159 to R162). -/
theorem reaches_decryptBlocks {k : Nat} (hk : i + k = (s.dlen.toNat - tagBytes) / rateLen (aeadParams v).rate)
    {e : Words5 × List Byte}
    (he : e = decryptBlocks (aeadParams v).b (aeadParams v).rate k
      ((ciphertextOf s).drop (i * rateLen (aeadParams v).rate)) S) :
    Reaches (between s (.aead .decrypt v .duplex) ph S i c d)
      (between s (.aead .decrypt v .inject) ph e.1 (i + k) (c + e.2.length) (Memory.writeBytes d c e.2)) := by
  have hlen : (ciphertextOf s).length = s.dlen.toNat - tagBytes := memRead_length ..
  induction k generalizing S i c d e with
  | zero =>
    have hi : i = (s.dlen.toNat - tagBytes) / rateLen (aeadParams v).rate := hk
    have htail : ((ciphertextOf s).drop (i * rateLen (aeadParams v).rate)).length =
        (s.dlen.toNat - tagBytes) % rateLen (aeadParams v).rate := by
      rw [List.length_drop, hlen, hi, Nat.mod_eq_sub_div_mul]
    have hmod := (Nat.mod_lt (s.dlen.toNat - tagBytes) (rateLen_pos (aeadParams v).rate)).le
    have hmove := blockMove_decrypt_last s v ph S i c d (by omega) rfl
    rw [blockAt_eq_take_drop, List.take_of_length_le (htail ▸ hmod), ← htail] at hmove
    simpa [he, decryptBlocks, htail, hmod] using reaches_blockMove hmove
  | succ k ih =>
    obtain ⟨C, hC⟩ : ∃ C, blockAt (ciphertextOf s) (aeadParams v).rate i = C := ⟨_, rfl⟩
    have hrest := ih (perm (aeadParams v).b (setrate S (aeadParams v).rate C)) (i + 1) (c + rateLen (aeadParams v).rate)
      (Memory.writeBytes d c (xorBytes (ratebytes S (aeadParams v).rate) C)) (by omega) rfl
    rw [decryptBlocks, List.drop_drop, ← Nat.succ_mul, ← blockAt_eq_take_drop, hC] at he
    refine (reaches_perm (aeadParams_rounds v).2 (blockMove_decrypt s v ph S i c d (by omega) hC)).trans ?_
    have hxor : (xorBytes (ratebytes S (aeadParams v).rate) C).length = rateLen (aeadParams v).rate := by
      rw [xorBytes_length, ← hC, blockAt_length (hlen ▸ by omega), ratebytes_length, Nat.min_self]
    rw [← hxor, Memory.writeBytes_writeBytes, hxor] at hrest
    simpa [he, hxor, Nat.add_assoc, Nat.add_comm 1 k] using hrest

/-- Key injection, permutation and candidate tag: `Finalize` (41_aead.md R164, R165). -/
theorem reaches_finalize :
    Reaches (between s (.aead dir v .inject) ph S i c d)
      (between { s with tagc := tagOfBytes (finalize (aeadParams v) (keyOf s v) S).2 } (.aead dir v .finish) ph
        (finalize (aeadParams v) (keyOf s v) S).1 i c d) := by
  have hinject := reaches_perm (x := between s (.aead dir v .inject) ph S i c d) (t := .aead dir v .tag)
    (t' := .aead dir v .inject) (S := injectKey (aeadParams v).rate (keyOf s v) S) (aeadParams_rounds v).1 rfl
  exact hinject.trans (reaches_blockMove rfl)

/-- The last move of `ENCRYPT` stores the tag behind the ciphertext (41_aead.md R150, R166). -/
theorem blockMove_encrypt_finish {T : List Byte} (hT : T.length = 16) :
    blockMove (between { s with tagc := tagOfBytes T } (.aead .encrypt v .finish) ph S i c d) =
      finishEngine (s.dlen.toNat + tagBytes) { s with dout := Memory.writeBytes d s.dlen.toNat T } := by
  have hmove : blockMove (between { s with tagc := tagOfBytes T } (.aead .encrypt v .finish) ph S i c d) =
      finishEngine (s.dlen.toNat + tagBytes)
        { s with dout := Memory.writeBytes d s.dlen.toNat (tagOfBytes T).toList } := rfl
  rw [hmove, tagOfBytes_toList hT]

/-- The last move of `DECRYPT` compares the tags (41_aead.md R151, R167). -/
theorem blockMove_decrypt_finish {T : List Byte} (hT : T.length = 16) :
    blockMove (between { s with tagc := tagOfBytes T } (.aead .decrypt v .finish) ph S i c d) =
      if T = receivedTag s then finishEngine (s.dlen.toNat - tagBytes) { s with dout := d }
      else rejectPlaintext (s.dlen.toNat - tagBytes) { s with dout := d } := by
  have hmove : blockMove (between { s with tagc := tagOfBytes T } (.aead .decrypt v .finish) ph S i c d) =
      if (tagOfBytes T).toList = receivedTag s then finishEngine (s.dlen.toNat - tagBytes) { s with dout := d }
      else rejectPlaintext (s.dlen.toNat - tagBytes) { s with dout := d } := rfl
  rw [hmove, tagOfBytes_toList hT]

/-- An `ENCRYPT` in progress ends as the atomic step does (41_aead.md R150). -/
theorem reaches_encrypt :
    Reaches (startEngine (.aead .encrypt v .load) s)
      (finishEngine (s.dlen.toNat + tagBytes)
        (writeDout s 0 (aeadEncrypt v (keyOf s v) (nonceOf s) (adOf s) (dataOf s)))) := by
  obtain ⟨T, hT⟩ : ∃ T, absorbAD (aeadParams v).b (aeadParams v).rate (adOf s)
    (aeadInit (aeadParams v) (keyOf s v) (nonceOf s)) = T := ⟨_, rfl⟩
  obtain ⟨e, he⟩ : ∃ e, e = encryptData (aeadParams v).b (aeadParams v).rate (dataOf s) T := ⟨_, rfl⟩
  have hlen : (dataOf s).length = s.dlen.toNat := memRead_length ..
  have hcount : 0 + e.2.length = s.dlen.toNat := by rw [he, encryptData_length, hlen, Nat.zero_add]
  have hinit := (reaches_aeadInit s .encrypt v .uninitialized s.S 0 0 s.dout).trans (reaches_absorbAD ..)
  have hduplex := reaches_encryptBlocks s v .duplexing T 0 0 s.dout (Nat.zero_add _) (e := e)
    (by rw [he, encryptData, hlen, Nat.zero_mul, List.drop_zero])
  refine (((hT ▸ hinit).trans hduplex).trans (reaches_finalize ..)).trans (reaches_blockMove ?_)
  rw [blockMove_encrypt_finish s v _ _ _ _ _ (T := (finalize (aeadParams v) (keyOf s v) e.1).2) (tagOf_length ..),
    ← hcount, Memory.writeBytes_writeBytes, hcount, he, ← hT]
  rfl

/-- A `DECRYPT` in progress ends as the atomic step does (41_aead.md R151, R167). -/
theorem reaches_decrypt {r : List Byte × List Byte}
    (hr : r = aeadDecrypt v (keyOf s v) (nonceOf s) (adOf s) (ciphertextOf s)) :
    Reaches (startEngine (.aead .decrypt v .load) s)
      (if r.2 = receivedTag s then finishEngine (s.dlen.toNat - tagBytes) (writeDout s 0 r.1)
        else rejectPlaintext (s.dlen.toNat - tagBytes) (writeDout s 0 r.1)) := by
  obtain ⟨T, hT⟩ : ∃ T, absorbAD (aeadParams v).b (aeadParams v).rate (adOf s)
    (aeadInit (aeadParams v) (keyOf s v) (nonceOf s)) = T := ⟨_, rfl⟩
  obtain ⟨e, he⟩ : ∃ e, e = decryptData (aeadParams v).b (aeadParams v).rate (ciphertextOf s) T := ⟨_, rfl⟩
  have hlen : (ciphertextOf s).length = s.dlen.toNat - tagBytes := memRead_length ..
  have hinit := (reaches_aeadInit s .decrypt v .uninitialized s.S 0 0 s.dout).trans (reaches_absorbAD ..)
  have hduplex := reaches_decryptBlocks s v .duplexing T 0 0 s.dout (Nat.zero_add _) (e := e)
    (by rw [he, decryptData, hlen, Nat.zero_mul, List.drop_zero])
  refine (((hT ▸ hinit).trans hduplex).trans (reaches_finalize ..)).trans (reaches_blockMove ?_)
  have hres : r = (e.2, (finalize (aeadParams v) (keyOf s v) e.1).2) := by rw [hr, he, ← hT]; rfl
  rw [blockMove_decrypt_finish s v _ _ _ _ _ (T := (finalize (aeadParams v) (keyOf s v) e.1).2) (tagOf_length ..), hres]
  rfl
end

section
variable (s : State) (v : HashVariant) (ph : Phase) (S : Words5) (i c : Nat) (d : Memory)

/-! ## The hash commands (42_hash_xof.md R200) -/

/-- `HashInit` (42_hash_xof.md R201, R202). -/
theorem reaches_hashInit :
    Reaches (between s (.hash v .load) ph S i c d)
      (between s (.hash v .absorb) .initialized (hashInit (hashParams v)) 0 c d) := by
  have hload := reaches_perm (x := between s (.hash v .load) ph S i c d) (t := .hash v .ready)
    (t' := .hash v .load) (S := words5 (hashBuffer (hashParams v))) (hashParams_rounds v).1 rfl
  exact hload.trans (reaches_blockMove rfl)

/-- A message block that is not the last (42_hash_xof.md R203). -/
theorem blockMove_absorbMessage (hi : i < s.dlen.toNat / 8) :
    blockMove (between s (.hash v .absorb) ph S i c d) =
      startPerm (hashParams v).b (.hash v .absorb)
        (between s (.hash v .absorb) .absorbingMessage (xorRate S .r8 (blockAt (pad (dataOf s) .r8) .r8 i))
          (i + 1) c d) :=
  if_pos hi

/-- The last message block (42_hash_xof.md R203). -/
theorem blockMove_absorbMessage_last (hi : ¬i < s.dlen.toNat / 8) :
    blockMove (between s (.hash v .absorb) ph S i c d) =
      startPerm (hashParams v).a (.hash v .squeeze)
        (between s (.hash v .absorb) .absorbingMessage (xorRate S .r8 (blockAt (pad (dataOf s) .r8) .r8 i)) 0 0 d) :=
  if_neg hi

/-- The loop of `AbsorbMessage` with `k` blocks before the last to go (42_hash_xof.md R203). -/
theorem reaches_absorbMessageBlocks {k : Nat} (hk : i + k = s.dlen.toNat / 8) :
    Reaches (between s (.hash v .absorb) ph S i c d)
      (between s (.hash v .squeeze) .absorbingMessage
        (absorbMessageBlocks (hashParams v) k ((pad (dataOf s) .r8).drop (i * 8)) S) 0 0 d) := by
  have hblock : blockAt (pad (dataOf s) .r8) .r8 i = ((pad (dataOf s) .r8).drop (i * 8)).take 8 :=
    blockAt_eq_take_drop ..
  induction k generalizing ph S i with
  | zero =>
    rw [absorbMessageBlocks, ← hblock]
    exact reaches_perm (hashParams_rounds v).1 (blockMove_absorbMessage_last s v ph S i c d (by omega))
  | succ k ih =>
    rw [absorbMessageBlocks, ← hblock, List.drop_drop, ← Nat.succ_mul]
    exact (reaches_perm (hashParams_rounds v).2 (blockMove_absorbMessage s v ph S i c d (by omega))).trans
      (ih _ _ (i + 1) (by omega) (blockAt_eq_take_drop ..))

/-- One block of output, then the rest (42_hash_xof.md R204). -/
theorem squeeze_eq_append {b n : Nat} (hn : 0 < n) (S : Words5) :
    squeeze b n S = (bytes8 S.s0).take n ++ squeeze b (n - 8) (perm b S) := by
  obtain ⟨k, hk⟩ : ∃ k, (n + 7) / 8 = k + 1 := ⟨(n + 7) / 8 - 1, by omega⟩
  have hrest : (n - 8 + 7) / 8 = k := by omega
  rw [squeeze, hk, squeezeBlocks, List.take_append, bytes8_length, squeeze, hrest]

/-- An output block that is still wanted (42_hash_xof.md R204). -/
theorem blockMove_squeeze (hc : c < digestLen s v) {x : List Byte} (hx : (bytes8 S.s0).take (digestLen s v - c) = x) :
    blockMove (between s (.hash v .squeeze) ph S i c d) =
      startPerm (hashParams v).b (.hash v .squeeze)
        (between s (.hash v .squeeze) .squeezing S (i + 1) (c + x.length) (Memory.writeBytes d c x)) :=
  hx ▸ if_pos hc

/-- No output is wanted after `x` (42_hash_xof.md R200, R204). -/
theorem reaches_squeezed {x : List Byte} (hx : digestLen s v ≤ x.length) :
    Reaches (between s (.hash v .squeeze) ph S i x.length (Memory.writeBytes d 0 x))
      (finishEngine (digestLen s v)
        { s with dout := Memory.writeBytes d 0 (x ++ squeeze (hashParams v).b (digestLen s v - x.length) S) }) := by
  rw [Nat.sub_eq_zero_of_le hx, squeeze, List.take_zero, List.append_nil]
  have hmove : blockMove (between s (.hash v .squeeze) ph S i x.length (Memory.writeBytes d 0 x)) =
      between s (.hash v .finish) .squeezing S i x.length (Memory.writeBytes d 0 x) := if_neg (Nat.not_lt.mpr hx)
  exact (reaches_blockMove hmove).trans (reaches_blockMove rfl)

/-- The loop of `Squeeze` with at most `k` blocks to go, after the output `x` (42_hash_xof.md R204). -/
theorem reaches_squeeze {k : Nat} {x : List Byte} (hk : digestLen s v ≤ x.length + 8 * k) :
    Reaches (between s (.hash v .squeeze) ph S i x.length (Memory.writeBytes d 0 x))
      (finishEngine (digestLen s v)
        { s with dout := Memory.writeBytes d 0 (x ++ squeeze (hashParams v).b (digestLen s v - x.length) S) }) := by
  induction k generalizing ph S i x with
  | zero => exact reaches_squeezed s v ph S i d hk
  | succ k ih =>
    by_cases hc : x.length < digestLen s v
    · obtain ⟨y, hy⟩ : ∃ y, (bytes8 S.s0).take (digestLen s v - x.length) = y := ⟨_, rfl⟩
      have hylen : y.length = min (digestLen s v - x.length) 8 := by rw [← hy, List.length_take, bytes8_length]
      have hleft : digestLen s v - (x ++ y).length = digestLen s v - x.length - 8 := by
        rw [List.length_append]; omega
      have hrest := ih .squeezing (perm (hashParams v).b S) (i + 1) (x := x ++ y) (by rw [List.length_append]; omega)
      have hmove := blockMove_squeeze s v ph S i x.length (Memory.writeBytes d 0 x) hc hy
      rw [← Nat.zero_add x.length, Memory.writeBytes_writeBytes, Nat.zero_add, ← List.length_append] at hmove
      rw [squeeze_eq_append (by omega), hy, ← List.append_assoc, ← hleft]
      exact (reaches_perm (hashParams_rounds v).2 hmove).trans hrest
    · exact reaches_squeezed s v ph S i d (Nat.not_lt.mp hc)
end

/-! ## The commands (10_state.md R20) -/

/-- A `HASH` in progress ends as the atomic step does (42_hash_xof.md R200). -/
theorem reaches_hash (s : State) (v : HashVariant) :
    Reaches (startEngine (.hash v .load) s)
      (finishEngine (digestLen s v) (writeDout s 0 (digest v (digestLen s v) (dataOf s)))) := by
  have hlen : (dataOf s).length = s.dlen.toNat := memRead_length ..
  have habsorb := reaches_absorbMessageBlocks s v .initialized (hashInit (hashParams v)) 0 0 s.dout (Nat.zero_add _)
  rw [Nat.zero_mul, List.drop_zero, ← hlen] at habsorb
  have hsqueeze := reaches_squeeze s v .absorbingMessage
    (absorbMessage (hashParams v) (dataOf s) (hashInit (hashParams v))) 0 s.dout (k := digestLen s v) (x := []) (by simp; omega)
  rw [Memory.writeBytes_nil] at hsqueeze
  exact ((reaches_hashInit s v .uninitialized s.S 0 0 s.dout).trans habsorb).trans hsqueeze

/-- A `PERMUTE` in progress ends as the atomic step does (40_permutation.md R128). -/
theorem reaches_permute {n : Nat} (hn : 1 ≤ n ∧ n ≤ 12) (s : State) :
    Reaches (startPerm n .permute s) (finishPermute { s with S := perm n s.S }) :=
  Reaches.trans ⟨n, blockMoves_permutation hn.1 hn.2 rfl rfl⟩ (reaches_blockMove rfl)

/-- A legal number of rounds passes the validation of `PERMUTE` (30_encoding.md R96). -/
theorem validateRounds_eq_ok {n : BitVec 4} (hlo : 1 ≤ n.toNat) (hhi : n.toNat ≤ 12) : validateRounds n = .ok n.toNat :=
  if_neg (by omega)

/-- The two grains end in the same state (10_state.md R20). -/
theorem exec_eq_reached (i : Instr) (s : State) : ∃ t, exec i s = .next t ∧ Reaches (beginInstr i s) t := by
  cases i with
  | encrypt arg =>
    obtain ⟨e, hv, he⟩ | ⟨v, hv, he⟩ := execEncrypt_cases arg s
    · exact ⟨_, he, 0, by simp only [blockMoves, beginInstr, hv]⟩
    · exact ⟨_, he, by simp only [beginInstr, hv]; exact reaches_encrypt ..⟩
  | decrypt arg =>
    obtain ⟨e, hv, he⟩ | ⟨v, hv, r, hr, hends⟩ := execDecrypt_cases arg s
    · exact ⟨_, he, 0, by simp only [blockMoves, beginInstr, hv]⟩
    · have hreach : Reaches _ (if r.2 = receivedTag s then _ else _) :=
        reaches_decrypt (accept (encodeByte (.decrypt arg)) s) v hr
      simp only [beginInstr, hv]
      obtain ⟨ht, he⟩ | ⟨ht, he⟩ := hends
      · rw [if_pos ht] at hreach
        exact ⟨_, he, hreach⟩
      · rw [if_neg ht] at hreach
        exact ⟨_, he, hreach⟩
  | hash arg =>
    obtain ⟨e, hv, he⟩ | ⟨v, hv, he⟩ := execHash_cases arg s
    · exact ⟨_, he, 0, by simp only [blockMoves, beginInstr, hv]⟩
    · exact ⟨_, he, by simp only [beginInstr, hv]; exact reaches_hash ..⟩
  | permute n =>
    obtain ⟨hn, he⟩ | ⟨hlo, hhi, he⟩ := execPermute_cases n s
    · exact ⟨_, he, 0, by simp only [blockMoves, beginInstr, validateRounds, ge_iff_le, hn, if_true]⟩
    · refine ⟨_, he, ?_⟩
      simp only [beginInstr, validateRounds_eq_ok hlo hhi]
      exact reaches_permute ⟨hlo, hhi⟩ _

/-- Whatever a command leaves, the same command leaves move by move (10_state.md R20). -/
theorem reaches_of_exec {i : Instr} {s t : State} (h : exec i s = .next t) : Reaches (beginInstr i s) t := by
  obtain ⟨u, hu, hreach⟩ := exec_eq_reached i s
  cases h.symm.trans hu
  exact hreach

end Sys2Proof.Machine

namespace Sys2Proof.Proofs.State

open Sys2Proof.Machine

/-- Settles O58: each loop of a command in progress computes the recursion of the atomic step (`reaches_encrypt`,
`reaches_decrypt`, `reaches_hash`, `reaches_permute`). -/
theorem fineGrainAgreesWithAtomic : Obligations.FineGrainAgreesWithAtomic := by
  unfold Obligations.FineGrainAgreesWithAtomic
  intro i s
  obtain ⟨t, ht, n, hn⟩ := exec_eq_reached i s
  exact ⟨n, t, ht, hn⟩

end Sys2Proof.Proofs.State
end

section
/-! SUPPORT. What a move of the block and each event leave alone, an induction over the events of a step, and the statements about
`STATUS`, the inputs and `phase`. -/

namespace Sys2Proof.Machine

/-! ## What the block leaves alone (20_memory.md R60, R62) -/

/-- `t` differs from `s` in nothing but the block's own registers and `DOUT`: no input, no length that the host sets, no
capacity, nothing of the host. -/
def BlockOnly (s t : State) : Prop :=
  t = { s with
    S := t.S, cmd := t.cmd, status := t.status, olen := t.olen, dout := t.dout, phase := t.phase, tagc := t.tagc,
    roundIdx := t.roundIdx, blockIdx := t.blockIdx, outCount := t.outCount, job := t.job }

theorem BlockOnly.trans {s t u : State} (hst : BlockOnly s t) (htu : BlockOnly t u) : BlockOnly s u := by
  unfold BlockOnly at *
  rw [htu, hst]

/-! ## What a move of the block can do (10_state.md R40, R41) -/

/-- The phase after a move of an AEAD command between two permutations. -/
def aeadPhase : AeadStage → Phase → Phase
  | .load, ph => ph
  | .keyXor, _ => .initialized
  | .absorb, _ => .absorbingAD
  | .domain, _ => .duplexing
  | .duplex, ph => ph
  | .inject, ph => ph
  | .tag, ph => ph
  | .finish, _ => .finalized

/-- The phase after a move of a `HASH` between two permutations. -/
def hashPhase : HashStage → Phase → Phase
  | .load, ph => ph
  | .ready, _ => .initialized
  | .absorb, _ => .absorbingMessage
  | .squeeze, _ => .squeezing
  | .finish, _ => .finalized

/-- The phase after a move of a command in progress. -/
def phaseAfter : Job → Phase → Phase
  | ⟨_, true⟩, ph => ph
  | ⟨.aead _ _ stage, false⟩, ph => aeadPhase stage ph
  | ⟨.hash _ stage, false⟩, ph => hashPhase stage ph
  | ⟨.permute, false⟩, ph => ph

/-- The moves of a command in progress into a phase: it goes on, and not into `Finalized`, or it ends, as an engine command
with or without a result or as a `PERMUTE`. -/
inductive Moves (s : State) : Phase → State → Prop
  | goesOn {ph : Phase} (h : ph = .finalized → s.phase = .finalized) (S : Words5) (d : Memory) (T : Vector Byte 16)
    (r i c : Nat) (j : Job) :
    Moves s ph
      { s with S := S, phase := ph, dout := d, tagc := T, roundIdx := r, blockIdx := i, outCount := c, job := some j }
  | finishes (n : Nat) (d : Memory) : Moves s .finalized (finishEngine n { s with dout := d })
  | rejects (n : Nat) (d : Memory) : Moves s .finalized (rejectPlaintext n { s with dout := d })
  | permuted : Moves s s.phase (finishPermute s)

theorem aeadMove_moves (dir : Direction) (v : AeadVariant) (stage : AeadStage) (s : State) :
    Moves s (aeadPhase stage s.phase) (aeadMove dir v stage s) := by
  cases stage with
  | load => exact .goesOn id ..
  | keyXor => exact .goesOn (by nofun) ..
  | absorb => simp only [aeadMove]; split <;> exact .goesOn (by nofun) ..
  | domain => exact .goesOn (by nofun) ..
  | duplex =>
    cases dir with
    | encrypt => simp only [aeadMove, encryptMove]; split <;> exact .goesOn id ..
    | decrypt => simp only [aeadMove, decryptMove]; split <;> exact .goesOn id ..
  | inject => exact .goesOn id ..
  | tag => exact .goesOn id ..
  | finish =>
    cases dir with
    | encrypt => exact .finishes ..
    | decrypt =>
      simp only [aeadMove]
      split
      · exact .finishes _ s.dout
      · exact .rejects _ s.dout

theorem hashMove_moves (v : HashVariant) (stage : HashStage) (s : State) :
    Moves s (hashPhase stage s.phase) (hashMove v stage s) := by
  cases stage with
  | load => exact .goesOn id ..
  | ready => exact .goesOn (by nofun) ..
  | absorb => simp only [hashMove]; split <;> exact .goesOn (by nofun) ..
  | squeeze => simp only [hashMove]; split <;> exact .goesOn (by nofun) ..
  | finish => exact .finishes _ s.dout

theorem phaseAfter_permuting (t : Task) (ph : Phase) : phaseAfter ⟨t, true⟩ ph = ph := by cases t <;> rfl

theorem blockMove_moves {s : State} {j : Job} (h : s.job = some j) : Moves s (phaseAfter j s.phase) (blockMove s) := by
  obtain ⟨t, _ | _⟩ := j
  · cases t with
    | aead dir v stage => simpa only [blockMove, h] using! aeadMove_moves dir v stage s
    | hash v stage => simpa only [blockMove, h] using! hashMove_moves v stage s
    | permute => simpa only [blockMove, h] using! Moves.permuted
  · rw [blockMove_permuting h, phaseAfter_permuting]
    split
    · have hgo := Moves.goesOn (s := s) id (round s.roundIdx s.S) s.dout s.tagc (s.roundIdx + 1) s.blockIdx
        s.outCount ⟨t, true⟩
      rwa [← h] at hgo
    · exact .goesOn id ..

theorem Moves.phase_eq {s t : State} {ph : Phase} (h : Moves s ph t) : t.phase = ph := by cases h <;> rfl

theorem Moves.blockOnly {s t : State} {ph : Phase} (h : Moves s ph t) : BlockOnly s t := by cases h <;> rfl

theorem blockMove_blockOnly (s : State) : BlockOnly s (blockMove s) := by
  cases h : s.job with
  | none => rw [blockMove_none h]; rfl
  | some j => exact (blockMove_moves h).blockOnly

theorem beginInstr_blockOnly (i : Instr) (s : State) : BlockOnly s (beginInstr i s) := by
  obtain ⟨-, -, e, -, he⟩ | ⟨-, ⟨t, he⟩ | ⟨n, -, he⟩⟩ := beginInstr_cases i s <;> rw [he] <;> rfl

theorem Reaches.blockOnly {s t : State} (h : Reaches s t) : BlockOnly s t := by
  obtain ⟨n, rfl⟩ := h
  induction n generalizing s with
  | zero => rfl
  | succ n ih => exact (blockMove_blockOnly s).trans ih

theorem exec_blockOnly {i : Instr} {s t : State} (h : exec i s = .next t) : BlockOnly s t :=
  (beginInstr_blockOnly i s).trans (reaches_of_exec h).blockOnly

theorem commandWrite_blockOnly {b : Byte} {s t : State} (h : commandWrite b s = .next t) : BlockOnly s t := by
  obtain ⟨-, rfl⟩ | ⟨-, ⟨i, -, he⟩ | ⟨-, rfl⟩⟩ := commandWrite_cases h
  · rfl
  · exact exec_blockOnly he
  · rfl

theorem beginWrite_blockOnly (b : Byte) (s : State) : BlockOnly s (beginWrite b s) := by
  obtain ⟨-, he⟩ | ⟨-, ⟨i, -, he⟩ | ⟨-, he⟩⟩ := beginWrite_cases b s <;> rw [he]
  · rfl
  · exact beginInstr_blockOnly i s
  · rfl

/-- The registers and buffers of a command's input (10_state.md R25, R26, R30 to R34, R36). -/
abbrev SameInputs (s t : State) : Prop :=
  t.key = s.key ∧ t.nonce = s.nonce ∧ t.ad = s.ad ∧ t.din = s.din ∧ t.klen = s.klen ∧ t.nlen = s.nlen
    ∧ t.adlen = s.adlen ∧ t.dlen = s.dlen ∧ t.hlen = s.hlen

theorem BlockOnly.sameInputs {s t : State} (h : BlockOnly s t) : SameInputs s t := by
  unfold BlockOnly at h
  rw [h]
  exact ⟨rfl, rfl, rfl, rfl, rfl, rfl, rfl, rfl, rfl⟩

theorem BlockOnly.agenda_eq {s t : State} (h : BlockOnly s t) : t.agenda = s.agenda := by
  unfold BlockOnly at h
  rw [h]

/-- A host action that is no write leaves the inputs alone (10_state.md R38). -/
theorem hostAction_sameInputs {a : HostAction} {s t : State} (ha : isHostWrite a = false)
    (h : hostAction a s = .next t) : SameInputs s t := by
  obtain ⟨b, -, hb⟩ | ⟨b, -, rfl⟩ | ⟨-, rfl⟩ | ⟨-, o, rfl⟩ | ⟨hw, -⟩ := hostAction_cases h
  · exact (commandWrite_blockOnly hb).sameInputs
  · exact (beginWrite_blockOnly b s).sameInputs
  · unfold waitDone
    split
    · exact ⟨rfl, rfl, rfl, rfl, rfl, rfl, rfl, rfl, rfl⟩
    · exact (blockMove_blockOnly _).sameInputs
  · exact ⟨rfl, rfl, rfl, rfl, rfl, rfl, rfl, rfl, rfl⟩
  · rw [ha] at hw
    cases hw

/-! ## Invariants of a step -/

/-- A property of the block that each event keeps, the atomic grain of a command left out: it ends where the fine grain
does (10_state.md R20). -/
structure KeptByEvents (P : State → Prop) : Prop where
  host : ∀ {s : State} (es : List Event) (os : List Observation), P s → P { s with agenda := es, observed := os }
  store : ∀ {s t : State}, P s → s.busy = false → HostStore s t → P t
  reset : ∀ {s : State}, P s → P (resetBlock s)
  begin : ∀ {s : State} (i : Instr), P s → s.busy = false → P (beginInstr i s)
  illegal : ∀ {s : State} (b : Byte), P s → s.busy = false → P (illegalCommand b s)
  move : ∀ {s : State}, P s → P (blockMove s)

namespace KeptByEvents
variable {P : State → Prop} (h : KeptByEvents P) {s t : State}
include h

theorem reaches (hs : P s) (hst : Reaches s t) : P t := by
  obtain ⟨n, rfl⟩ := hst
  induction n generalizing s with
  | zero => exact hs
  | succ n ih => exact ih (h.move hs)

theorem commandWrite {b : Byte} (hs : P s) (ht : commandWrite b s = .next t) : P t := by
  obtain ⟨-, rfl⟩ | ⟨hb, ⟨i, -, he⟩ | ⟨-, rfl⟩⟩ := commandWrite_cases ht
  · exact hs
  · exact h.reaches (h.begin i hs hb) (reaches_of_exec he)
  · exact h.illegal b hs hb

theorem beginWrite (b : Byte) (hs : P s) : P (beginWrite b s) := by
  obtain ⟨-, he⟩ | ⟨hb, ⟨i, -, he⟩ | ⟨-, he⟩⟩ := beginWrite_cases b s <;> rw [he]
  · exact hs
  · exact h.begin i hs hb
  · exact h.illegal b hs hb

theorem hostAction {a : HostAction} (hs : P s) (ht : hostAction a s = .next t) : P t := by
  obtain ⟨b, -, hb⟩ | ⟨b, -, rfl⟩ | ⟨-, rfl⟩ | ⟨-, o, rfl⟩ | ⟨-, ⟨-, rfl⟩ | ⟨hb, hst⟩⟩ := hostAction_cases ht
  · exact h.commandWrite hs hb
  · exact h.beginWrite b hs
  · unfold waitDone
    split
    · exact hs
    · exact h.move (h.host _ s.observed hs)
  · exact h.host s.agenda _ hs
  · exact hs
  · exact h.store hs hb hst

/-- Every step keeps a property that each event keeps. -/
theorem step (hs : P s) (ht : step s = .next t) : P t := by
  obtain ⟨-, rfl⟩ | ⟨rest, hcase⟩ := step_cases ht
  · exact h.move hs
  · have hrest : P { s with agenda := rest } := h.host rest s.observed hs
    obtain ⟨-, rfl⟩ | ⟨-, rfl⟩ | ⟨a, -, ha⟩ := hcase
    · exact h.move hrest
    · exact h.reset hrest
    · exact h.hostAction hrest ha

end KeptByEvents

/-! ## The form of `STATUS` (10_state.md R29) -/

/-- A host write leaves the block's own registers alone but for `S` (10_state.md section 4). -/
theorem HostStore.eq {s t : State} (h : HostStore s t) :
    t = { s with
      S := t.S, key := t.key, nonce := t.nonce, klen := t.klen, nlen := t.nlen, adlen := t.adlen, dlen := t.dlen,
      hlen := t.hlen, ad := t.ad, din := t.din } := by
  cases h with
  | reg8 r v => cases r <;> rfl
  | reg32 r v => cases r <;> rfl
  | word i v => rfl
  | bytes sp i bs _ => cases sp <;> rfl

/-- The form speaks of `STATUS`, of `OLEN` and of whether a command is in progress. -/
theorem StatusForm.of_eq {s t : State} (h : StatusForm s) (hst : t.status = s.status) (ho : t.olen = s.olen)
    (hj : t.job.isSome = s.job.isSome) : StatusForm t := by
  unfold StatusForm State.busy State.done State.err at *
  rwa [hst, ho, hj]

theorem statusForm_raiseError (e : ErrorKind) (s : State) : StatusForm (raiseError e s) :=
  ⟨statusByte_reserved .., by simp, by simpa using (errCode_range e).2, by simp, by simp, by simp⟩

theorem statusForm_complete (n : Nat) (s : State) : StatusForm (complete n s) :=
  ⟨statusByte_reserved .., by simp, by simp, by simp, by simp, by simp⟩

/-- A command that has been accepted and is in progress (10_state.md R29, R35). -/
theorem statusForm_running {t : State} (hst : t.status = statusBusy) (ho : t.olen = 0) (hj : t.job.isSome = true) :
    StatusForm t := by
  have hbusy : t.busy = true := by rw [State.busy, hst, statusBusy, statusByte_busy]
  have hdone : t.done = false := by rw [State.done, hst, statusBusy, statusByte_done]
  have herr : t.err = 0#4 := by rw [State.err, hst, statusBusy, statusByte_err]; rfl
  exact ⟨hst ▸ statusByte_reserved .., by rw [hdone, Bool.and_false], by simp [herr], hbusy.trans hj.symm,
    fun _ => ⟨herr, ho⟩, fun _ => ho⟩

theorem StatusForm.of_moves {s t : State} {ph : Phase} (h : StatusForm s) (hj : s.job.isSome = true)
    (ht : Moves s ph t) : StatusForm t := by
  cases ht with
  | goesOn => exact h.of_eq rfl rfl hj.symm
  | finishes => exact statusForm_complete ..
  | rejects => exact statusForm_raiseError ..
  | permuted => exact statusForm_complete ..

theorem StatusForm.blockMove {s : State} (h : StatusForm s) : StatusForm (blockMove s) := by
  cases hj : s.job with
  | none => rwa [blockMove_none hj]
  | some j => exact h.of_moves (hj ▸ rfl) (blockMove_moves hj)

theorem statusForm_reset : StatusForm State.reset := by decide

theorem statusForm_beginInstr (i : Instr) (s : State) : StatusForm (beginInstr i s) := by
  obtain ⟨-, -, e, -, he⟩ | ⟨-, ⟨t, he⟩ | ⟨n, -, he⟩⟩ := beginInstr_cases i s <;> rw [he]
  · exact statusForm_raiseError ..
  · exact statusForm_running rfl rfl rfl
  · exact statusForm_running rfl rfl rfl

theorem statusForm_keptByEvents : KeptByEvents StatusForm where
  host _ _ h := h
  store h _ hst := by rw [hst.eq]; exact h
  reset _ := statusForm_reset
  begin i _ _ := statusForm_beginInstr i _
  illegal b _ _ := statusForm_raiseError ..
  move h := h.blockMove

/-! ## The phase (10_state.md R40) -/

/-- The steps of the chain of 10_state.md R40. -/
def phaseSteps : List (Phase × Phase) :=
  [(.uninitialized, .initialized), (.initialized, .absorbingAD), (.initialized, .absorbingMessage),
    (.absorbingAD, .duplexing), (.absorbingMessage, .squeezing), (.duplexing, .finalized), (.squeezing, .finalized)]

theorem aeadPhase_steps {dir : Direction} {v : AeadVariant} {stage : AeadStage} {ph : Phase}
    (h : phaseFits (.aead dir v stage) ph = true) :
    aeadPhase stage ph = ph ∨ (ph, aeadPhase stage ph) ∈ phaseSteps := by
  cases stage with
  | load | duplex | inject | tag => exact .inl rfl
  | keyXor =>
    obtain rfl : ph = .uninitialized := by simpa [phaseFits] using h
    decide
  | absorb =>
    obtain rfl | rfl : ph = .initialized ∨ ph = .absorbingAD := by simpa [phaseFits] using h
    all_goals decide
  | domain =>
    obtain rfl : ph = .absorbingAD := by simpa [phaseFits] using h
    decide
  | finish =>
    obtain rfl : ph = .duplexing := by simpa [phaseFits] using h
    decide

theorem hashPhase_steps {v : HashVariant} {stage : HashStage} {ph : Phase} (h : phaseFits (.hash v stage) ph = true) :
    hashPhase stage ph = ph ∨ (ph, hashPhase stage ph) ∈ phaseSteps := by
  cases stage with
  | load => exact .inl rfl
  | ready =>
    obtain rfl : ph = .uninitialized := by simpa [phaseFits] using h
    decide
  | absorb =>
    obtain rfl | rfl : ph = .initialized ∨ ph = .absorbingMessage := by simpa [phaseFits] using h
    all_goals decide
  | squeeze =>
    obtain rfl | rfl : ph = .absorbingMessage ∨ ph = .squeezing := by simpa [phaseFits] using h
    all_goals decide
  | finish =>
    obtain rfl : ph = .squeezing := by simpa [phaseFits] using h
    decide

/-- In a phase that fits the task, a move stays or takes one step of the chain. -/
theorem phaseAfter_steps {j : Job} {ph : Phase} (h : phaseFits j.task ph = true) :
    phaseAfter j ph = ph ∨ (ph, phaseAfter j ph) ∈ phaseSteps := by
  obtain ⟨t, _ | _⟩ := j
  · cases t with
    | aead dir v stage => exact aeadPhase_steps h
    | hash v stage => exact hashPhase_steps h
    | permute => exact .inl rfl
  · exact .inl (phaseAfter_permuting t ph)

/-- Only a move that ends a command leads into `Finalized`. -/
theorem Moves.done_of_finalized {s t : State} {ph : Phase} (h : Moves s ph t) (hph : ph = .finalized)
    (hs : s.phase ≠ .finalized) : t.done = true ∧ t.job = none := by
  cases h with
  | goesOn hgo => exact absurd (hgo hph) hs
  | finishes => exact ⟨done_complete .., rfl⟩
  | rejects => exact ⟨done_raiseError .., rfl⟩
  | permuted => exact absurd hph hs

end Sys2Proof.Machine

namespace Sys2Proof.Proofs.State

open Sys2Proof.Machine

/-- Settles O55: every event keeps the form of `STATUS` (`statusForm_keptByEvents`), and so every step does. -/
theorem statusFormKept : Obligations.StatusFormKept := by
  unfold Obligations.StatusFormKept
  exact fun _ _ => statusForm_keptByEvents.step

/-- Settles O46: the block's moves and the commands change the block's own registers alone (`BlockOnly`), and so do the
host's actions that are no writes. -/
theorem inputsChangeOnlyByHostOrReset : Obligations.InputsChangeOnlyByHostOrReset := by
  unfold Obligations.InputsChangeOnlyByHostOrReset
  intro s t ht hquiet
  obtain ⟨-, rfl⟩ | ⟨rest, ⟨-, rfl⟩ | ⟨hr, -⟩ | ⟨a, ha, ht⟩⟩ := step_cases ht
  · exact (blockMove_blockOnly s).sameInputs
  · exact (blockMove_blockOnly _).sameInputs
  · exact absurd rfl (hquiet .reset (by rw [hr]; rfl)).1
  · exact hostAction_sameInputs (s := { s with agenda := rest }) ((hquiet (.host a) (by rw [ha]; rfl)).2 a rfl) ht

/-- Settles O60: the phase after a move is a function of the task and the phase (`phaseAfter`), and only the moves that end
an engine command lead into `Finalized`. -/
theorem phasesAdvanceInOrder : Obligations.PhasesAdvanceInOrder := by
  unfold Obligations.PhasesAdvanceInOrder
  intro s hform hjob
  obtain ⟨j, hj⟩ := Option.isSome_iff_exists.mp hjob
  have hfits := (hform j hj).1
  have hmoves := blockMove_moves hj
  refine ⟨hmoves.phase_eq ▸ phaseAfter_steps hfits, fun hfin hne => ?_⟩
  exact hmoves.done_of_finalized (hmoves.phase_eq ▸ hfin) hne

end Sys2Proof.Proofs.State
end

section
/-! SUPPORT. The whole invariant of the machine (`Sound`): what a command in progress may count on, and that every event keeps it. -/

namespace Sys2Proof.Machine

/-! ## Written bytes and stored bytes (00_scope.md R10, 10_state.md R37) -/

/-- The first `n` bytes of a buffer have been written. -/
abbrev Written (d : Memory) (n : Nat) : Prop := ∀ i < n, (Memory.read? d i).isSome = true

theorem Written.mono {d : Memory} {m n : Nat} (h : Written d n) (hmn : m ≤ n) : Written d m :=
  fun i hi => h i (hi.trans_le hmn)

/-- A write behind the written bytes makes them longer. -/
theorem Written.append {d : Memory} {n : Nat} (h : Written d n) (x : List Byte) :
    Written (Memory.writeBytes d n x) (n + x.length) := by
  intro i hi
  rw [Memory.read?_writeBytes]
  split
  · next hin => rw [List.getElem?_eq_getElem (by omega)]; rfl
  · exact h i (by omega)

/-- The part of the invariant that speaks of the buffers: canonical forms, legal capacities, every byte inside its buffer. -/
def Stored (c : Capacities) (ad din dout : Memory) : Prop :=
  (Memory.wf ad ∧ Memory.wf din ∧ Memory.wf dout) ∧ c.Legal
    ∧ (∀ x ∈ ad, x.1 < c.ad) ∧ (∀ x ∈ din, x.1 < c.din) ∧ ∀ x ∈ dout, x.1 < c.dout

theorem Stored.legal {c : Capacities} {ad din dout : Memory} (h : Stored c ad din dout) : c.Legal := h.2.1

/-- A write of the block inside `DOUT`. -/
theorem Stored.writeBytes {c : Capacities} {ad din dout : Memory} (h : Stored c ad din dout) {a : Nat} {x : List Byte}
    (hroom : a + x.length ≤ c.dout) : Stored c ad din (Memory.writeBytes dout a x) := by
  obtain ⟨⟨had, hdin, hdout⟩, hlegal, bad, bdin, bdout⟩ := h
  exact ⟨⟨had, hdin, Memory.writeBytes_wf a x hdout⟩, hlegal, bad, bdin, Memory.writeBytes_bound bdout hroom⟩

theorem sound_iff (s : State) :
    Sound s ↔ Stored s.caps s.ad s.din s.dout ∧ StatusForm s ∧ RestForm s ∧ JobForm s ∧ s.olen.toNat ≤ s.caps.dout
      ∧ Written s.dout s.olen.toNat ∧ Written s.dout s.outCount := by
  unfold Sound Stored RoomForm OutputForm MemoryForm
  tauto

/-- The invariant of a state with no command in progress. -/
theorem sound_of_rest {s : State} (hjob : s.job = none) (hstored : Stored s.caps s.ad s.din s.dout)
    (hstatus : StatusForm s) (htagc : s.tagc = Vector.replicate 16 0)
    (hphase : s.phase = .uninitialized ∨ s.phase = .finalized)
    (hloops : s.roundIdx = 0 ∧ s.blockIdx = 0 ∧ s.outCount = 0) (hroom : s.olen.toNat ≤ s.caps.dout)
    (hwritten : Written s.dout s.olen.toNat) : Sound s :=
  (sound_iff s).mpr ⟨hstored, hstatus, ⟨fun _ => ⟨htagc, hphase⟩, fun _ => hloops⟩, by simp [JobForm, hjob], hroom,
    hwritten, fun i hi => absurd hi (by omega)⟩

/-- While a command runs there is no result (10_state.md R35). -/
theorem StatusForm.olen_eq_zero {s : State} (h : StatusForm s) (hjob : s.job.isSome = true) : s.olen = 0 := by
  obtain ⟨-, hboth, -, hbusy, hnone, -⟩ := h
  rw [hbusy, hjob, Bool.true_and] at hboth
  exact (hnone hboth).2

/-- The invariant of a state with a command in progress. -/
theorem sound_of_running {s : State} (hjob : s.job.isSome = true) (hstored : Stored s.caps s.ad s.din s.dout)
    (hstatus : StatusForm s)
    (hrest : outsideEngines s = true →
      s.tagc = Vector.replicate 16 0 ∧ (s.phase = .uninitialized ∨ s.phase = .finalized))
    (hform : JobForm s) (hwritten : Written s.dout s.outCount) : Sound s := by
  have holen : s.olen.toNat = 0 := by rw [hstatus.olen_eq_zero hjob]; rfl
  exact (sound_iff s).mpr ⟨hstored, hstatus, ⟨hrest, fun h => by simp [h] at hjob⟩, hform, by omega,
    fun i hi => by omega, hwritten⟩

/-! ## How commands end -/

theorem sound_finishEngine {n : Nat} {s : State} (hstored : Stored s.caps s.ad s.din s.dout)
    (hroom : n ≤ s.caps.dout) (hwritten : Written s.dout n) : Sound (finishEngine n s) := by
  have hlegal := hstored.legal
  have holen : (finishEngine n s).olen.toNat = n := Nat.mod_eq_of_lt (by omega)
  exact sound_of_rest rfl hstored (statusForm_complete ..) rfl (.inr rfl) ⟨rfl, rfl, rfl⟩ 
    (holen.trans_le hroom) (hwritten.mono holen.le)

theorem sound_rejectPlaintext {n : Nat} {s : State} (hstored : Stored s.caps s.ad s.din s.dout)
    (hroom : n ≤ s.caps.dout) : Sound (rejectPlaintext n s) :=
  sound_of_rest rfl (hstored.writeBytes (x := zeros n) (by simpa using hroom)) (statusForm_raiseError ..) rfl (.inr rfl)
    ⟨rfl, rfl, rfl⟩ (Nat.zero_le _) nofun

/-! ## What a command in progress may count on (10_state.md R40, R41, 60_exceptions.md R241) -/

/-- `JobForm` of a command in progress. -/
theorem jobForm_iff {s : State} {j : Job} (h : s.job = some j) :
    JobForm s ↔ phaseFits j.task s.phase = true ∧ lengthsFit s j.task = true ∧ progressFits s j.task = true
      ∧ (j.permuting = true → s.roundIdx ≤ 11) := by
  simp [JobForm, h]

/-- The lengths a command was validated with are inputs. -/
theorem lengthsFit_of_blockOnly {s t : State} (h : BlockOnly s t) (task : Task) :
    lengthsFit t task = lengthsFit s task := by
  unfold BlockOnly at h
  rw [h]
  cases task <;> rfl

theorem duplexLen_le (dir : Direction) (s : State) : duplexLen dir s ≤ s.dlen.toNat := by
  cases dir with
  | encrypt => exact le_rfl
  | decrypt => exact Nat.sub_le ..

theorem duplexLen_le_din {dir : Direction} {v : AeadVariant} {stage : AeadStage} {s : State}
    (h : lengthsFit s (.aead dir v stage) = true) : duplexLen dir s ≤ s.caps.din := by
  simp only [lengthsFit, Bool.and_eq_true, decide_eq_true_eq] at h
  exact (duplexLen_le dir s).trans h.1.2

theorem digestLen_le_dout {v : HashVariant} {stage : HashStage} {s : State} (h : lengthsFit s (.hash v stage) = true) :
    digestLen s v ≤ s.caps.dout := by
  simp only [lengthsFit, Bool.and_eq_true, decide_eq_true_eq] at h
  exact h.2

/-- The output of a command in progress fits into `DOUT`. -/
theorem outCount_le_dout {s : State} {t : Task} (hlegal : s.caps.Legal) (hl : lengthsFit s t = true)
    (hp : progressFits s t = true) : s.outCount ≤ s.caps.dout := by
  cases t with
  | aead dir v stage =>
    have hlen := duplexLen_le_din hl
    have hle : s.outCount ≤ duplexLen dir s := by
      cases stage with
      | duplex =>
        simp only [progressFits, Bool.and_eq_true, decide_eq_true_eq] at hp
        rw [hp.2]
        exact (Nat.mul_le_mul_right _ hp.1).trans (Nat.div_mul_le_self _ _)
      | load | keyXor | absorb | domain | inject | tag | finish =>
        simp only [progressFits, decide_eq_true_eq] at hp
        omega
    omega
  | hash v stage =>
    have hlen := digestLen_le_dout hl
    have hle : s.outCount ≤ digestLen s v := by
      cases stage <;> simp only [progressFits, decide_eq_true_eq] at hp <;> omega
    omega
  | permute => simp only [progressFits, decide_eq_true_eq] at hp; omega

/-- A move writes nothing, or writes `DOUT` behind the output so far and counts what it writes (20_memory.md R68). -/
def Emits (s t : State) : Prop :=
  (t.dout = s.dout ∧ t.outCount ≤ s.outCount)
    ∨ ∃ x, t.dout = Memory.writeBytes s.dout s.outCount x ∧ t.outCount = s.outCount + x.length

/-- What a move that does not end the command keeps up. -/
structure GoesOn (s t : State) : Prop where
  running : t.job.isSome = true
  rest : outsideEngines t = true → outsideEngines s = true ∧ t.tagc = s.tagc ∧ t.phase = s.phase
  form : JobForm t
  output : Emits s t

theorem BlockOnly.buffers {s t : State} (h : BlockOnly s t) : t.caps = s.caps ∧ t.ad = s.ad ∧ t.din = s.din := by
  unfold BlockOnly at h
  rw [h]
  exact ⟨rfl, rfl, rfl⟩

theorem Sound.of_goesOn {s t : State} (hs : Sound s) (hframe : BlockOnly s t) (hstatus : StatusForm t)
    (h : GoesOn s t) : Sound t := by
  obtain ⟨hstored, -, ⟨hrest, -⟩, -, -, -, hwritten⟩ := (sound_iff s).mp hs
  obtain ⟨hrunning, hkeeps, hform, houtput⟩ := h
  obtain ⟨hcaps, had, hdin⟩ := hframe.buffers
  obtain ⟨j, hj⟩ := Option.isSome_iff_exists.mp hrunning
  obtain ⟨-, hl, hp, -⟩ := (jobForm_iff hj).mp hform
  have hroom : t.outCount ≤ s.caps.dout := hcaps ▸ outCount_le_dout (hcaps ▸ hstored.legal) hl hp
  have hdout : Stored s.caps s.ad s.din t.dout ∧ Written t.dout t.outCount := by
    obtain ⟨hd, hc⟩ | ⟨x, hd, hc⟩ := houtput <;> rw [hd]
    · exact ⟨hstored, hwritten.mono hc⟩
    · exact ⟨hstored.writeBytes (hc ▸ hroom), hc ▸ hwritten.append x⟩
  refine sound_of_running hrunning (by rw [hcaps, had, hdin]; exact hdout.1) hstatus (fun hout => ?_) hform hdout.2
  obtain ⟨hs, htagc, hphase⟩ := hkeeps hout
  rw [htagc, hphase]
  exact hrest hs

theorem jobForm_goTo {t : Task} {s : State} (hph : phaseFits t s.phase = true) (hl : lengthsFit s t = true)
    (hp : progressFits (goTo t s) t = true) : JobForm (goTo t s) :=
  (jobForm_iff rfl).mpr ⟨hph, (lengthsFit_of_blockOnly (t := goTo t s) rfl t).trans hl, hp, nofun⟩

theorem jobForm_startPerm {n : Nat} {t : Task} {s : State} (hn : 1 ≤ n) (hph : phaseFits t s.phase = true)
    (hl : lengthsFit s t = true) (hp : progressFits (startPerm n t s) t = true) : JobForm (startPerm n t s) :=
  (jobForm_iff rfl).mpr ⟨hph, (lengthsFit_of_blockOnly (t := startPerm n t s) rfl t).trans hl, hp,
    fun _ => show 12 - n ≤ 11 by omega⟩

/-- Where the duplexing loop stands (10_state.md R41). -/
theorem progressFits_duplex {dir : Direction} {v : AeadVariant} {s : State} :
    progressFits s (.aead dir v .duplex) = true ↔
      s.blockIdx ≤ duplexLen dir s / rateLen (aeadParams v).rate
        ∧ s.outCount = s.blockIdx * rateLen (aeadParams v).rate := by
  simp [progressFits]

theorem progressFits_inject {dir : Direction} {v : AeadVariant} {s : State} :
    progressFits s (.aead dir v .inject) = true ↔ s.outCount = duplexLen dir s := by
  simp [progressFits]

theorem encryptMove_goesOn {v : AeadVariant} {s : State} (hph : phaseFits (.aead .encrypt v .duplex) s.phase = true)
    (hl : lengthsFit s (.aead .encrypt v .duplex) = true) (hp : progressFits s (.aead .encrypt v .duplex) = true) :
    GoesOn s (encryptMove v s) := by
  obtain ⟨hi, hc⟩ := progressFits_duplex.mp hp
  simp only [encryptMove]
  split
  · next hlt =>
    refine ⟨rfl, nofun, jobForm_startPerm (aeadParams_rounds v).2.1 hph hl ?_, .inr ⟨_, rfl, by simp⟩⟩
    exact progressFits_duplex.mpr ⟨hlt, by simp [hc, Nat.succ_mul]⟩
  · next hlast =>
    have hmod := (Nat.mod_lt (duplexLen .encrypt s) (rateLen_pos (aeadParams v).rate)).le
    refine ⟨rfl, nofun, jobForm_goTo hph hl ?_, .inr ⟨_, rfl, by simp [hmod]⟩⟩
    refine progressFits_inject.mpr ?_
    have hend : s.blockIdx = duplexLen .encrypt s / rateLen (aeadParams v).rate := by omega
    simpa [hc, hend] using! Nat.div_add_mod' _ _

theorem decryptMove_goesOn {v : AeadVariant} {s : State} (hph : phaseFits (.aead .decrypt v .duplex) s.phase = true)
    (hl : lengthsFit s (.aead .decrypt v .duplex) = true) (hp : progressFits s (.aead .decrypt v .duplex) = true) :
    GoesOn s (decryptMove v s) := by
  obtain ⟨hi, hc⟩ := progressFits_duplex.mp hp
  have hlen : (memRead s .din 0 (duplexLen .decrypt s)).length = duplexLen .decrypt s := memRead_length ..
  simp only [decryptMove]
  split
  · next hlt =>
    have hfull := blockAt_length (hlen.symm ▸ hlt)
    refine ⟨rfl, nofun, jobForm_startPerm (aeadParams_rounds v).2.1 hph hl ?_, .inr ⟨_, rfl, by simp [hfull]⟩⟩
    exact progressFits_duplex.mpr ⟨hlt, by simp [hc, Nat.succ_mul]⟩
  · next hlast =>
    have hend : s.blockIdx = duplexLen .decrypt s / rateLen (aeadParams v).rate := by omega
    have htail := blockAt_length_last (memRead s .din 0 (duplexLen .decrypt s)) (aeadParams v).rate
    rw [hlen, ← hend] at htail
    have hmod := (Nat.mod_lt (duplexLen .decrypt s) (rateLen_pos (aeadParams v).rate)).le
    refine ⟨rfl, nofun, jobForm_goTo hph hl ?_, .inr ⟨_, rfl, by simp [htail, hmod]⟩⟩
    refine progressFits_inject.mpr ?_
    simpa [hc, hend] using! Nat.div_add_mod' _ _

theorem aeadMove_goesOn {dir : Direction} {v : AeadVariant} {stage : AeadStage} {s : State} (hstage : stage ≠ .finish)
    (hph : phaseFits (.aead dir v stage) s.phase = true) (hl : lengthsFit s (.aead dir v stage) = true)
    (hp : progressFits s (.aead dir v stage) = true) : GoesOn s (aeadMove dir v stage s) := by
  cases stage with
  | load => exact ⟨rfl, nofun, jobForm_startPerm (aeadParams_rounds v).1.1 hph hl hp, .inl ⟨rfl, le_rfl⟩⟩
  | keyXor => exact ⟨rfl, nofun, jobForm_goTo rfl hl hp, .inl ⟨rfl, le_rfl⟩⟩
  | absorb =>
    simp only [aeadMove]
    split
    · exact ⟨rfl, nofun, jobForm_startPerm (aeadParams_rounds v).2.1 rfl hl hp, .inl ⟨rfl, le_rfl⟩⟩
    · exact ⟨rfl, nofun, jobForm_goTo rfl hl hp, .inl ⟨rfl, le_rfl⟩⟩
  | domain =>
    refine ⟨rfl, nofun, jobForm_goTo rfl hl ?_, .inl ⟨rfl, Nat.zero_le _⟩⟩
    exact progressFits_duplex.mpr ⟨Nat.zero_le _, (Nat.zero_mul _).symm⟩
  | duplex =>
    cases dir with
    | encrypt => exact encryptMove_goesOn hph hl hp
    | decrypt => exact decryptMove_goesOn hph hl hp
  | inject => exact ⟨rfl, nofun, jobForm_startPerm (aeadParams_rounds v).1.1 hph hl hp, .inl ⟨rfl, le_rfl⟩⟩
  | tag => exact ⟨rfl, nofun, jobForm_goTo hph hl hp, .inl ⟨rfl, le_rfl⟩⟩
  | finish => exact absurd rfl hstage

/-- Where the squeezing loop stands (10_state.md R41). -/
theorem progressFits_squeeze {v : HashVariant} {s : State} :
    progressFits s (.hash v .squeeze) = true ↔ s.outCount = min (digestLen s v) (8 * s.blockIdx) := by
  simp [progressFits]

theorem hashMove_goesOn {v : HashVariant} {stage : HashStage} {s : State} (hstage : stage ≠ .finish)
    (hph : phaseFits (.hash v stage) s.phase = true) (hl : lengthsFit s (.hash v stage) = true)
    (hp : progressFits s (.hash v stage) = true) : GoesOn s (hashMove v stage s) := by
  have hrounds := hashParams_rounds v
  cases stage with
  | load => exact ⟨rfl, nofun, jobForm_startPerm hrounds.1.1 hph hl hp, .inl ⟨rfl, le_rfl⟩⟩
  | ready => exact ⟨rfl, nofun, jobForm_goTo rfl hl hp, .inl ⟨rfl, le_rfl⟩⟩
  | absorb =>
    simp only [hashMove]
    split
    · exact ⟨rfl, nofun, jobForm_startPerm hrounds.2.1 rfl hl hp, .inl ⟨rfl, le_rfl⟩⟩
    · exact ⟨rfl, nofun, jobForm_startPerm hrounds.1.1 rfl hl (by simp [progressFits]), .inl ⟨rfl, Nat.zero_le _⟩⟩
  | squeeze =>
    have hc := progressFits_squeeze.mp hp
    simp only [hashMove]
    split
    · next hlt =>
      refine ⟨rfl, nofun, jobForm_startPerm hrounds.2.1 rfl hl ?_, .inr ⟨_, rfl, rfl⟩⟩
      refine progressFits_squeeze.mpr ?_
      show s.outCount + ((bytes8 s.S.s0).take (digestLen s v - s.outCount)).length =
        min (digestLen s v) (8 * (s.blockIdx + 1))
      rw [List.length_take, bytes8_length]
      omega
    · next hdone =>
      have hall : progressFits s (.hash v .finish) = true := by simp [progressFits]; omega
      exact ⟨rfl, nofun, jobForm_goTo rfl hl hall, .inl ⟨rfl, le_rfl⟩⟩
  | finish => exact absurd rfl hstage

/-- How far a command has come is a matter of its inputs and of two loop indices. -/
theorem progressFits_of_blockOnly {s t : State} (h : BlockOnly s t) (hi : t.blockIdx = s.blockIdx)
    (hc : t.outCount = s.outCount) (task : Task) : progressFits t task = progressFits s task := by
  unfold BlockOnly at h
  rw [hi, hc] at h
  rw [h]
  cases task with
  | aead dir v stage => cases dir <;> cases stage <;> rfl
  | hash v stage => cases stage <;> rfl
  | permute => rfl

theorem outsideEngines_eq {s : State} {j : Job} (h : s.job = some j) : outsideEngines s = decide (j.task = .permute) := by
  obtain ⟨t, b⟩ := j
  unfold outsideEngines
  rw [h]
  cases t <;> rfl

/-- A move that changes neither the task nor its phase nor how far it has come. -/
theorem JobForm.of_sameTask {s t : State} {j k : Job} (hs : JobForm s) (h : BlockOnly s t) (hj : s.job = some j)
    (hk : t.job = some k) (htask : k.task = j.task) (hph : t.phase = s.phase) (hi : t.blockIdx = s.blockIdx)
    (hc : t.outCount = s.outCount) (hr : k.permuting = true → t.roundIdx ≤ 11) : JobForm t := by
  obtain ⟨hfits, hl, hp, -⟩ := (jobForm_iff hj).mp hs
  refine (jobForm_iff hk).mpr ⟨?_, ?_, ?_, hr⟩
  · rwa [htask, hph]
  · rwa [htask, lengthsFit_of_blockOnly h]
  · rwa [htask, progressFits_of_blockOnly h hi hc]

/-- A round of a permutation, also the last (40_permutation.md R121). -/
theorem roundMove_goesOn {t : Task} {s : State} (hj : s.job = some ⟨t, true⟩) (hform : JobForm s) :
    GoesOn s (roundMove t s) := by
  unfold roundMove
  split
  · next hlt =>
    exact ⟨hj ▸ rfl, fun h => ⟨h, rfl, rfl⟩, hform.of_sameTask rfl hj hj rfl rfl rfl rfl fun _ => hlt,
      .inl ⟨rfl, le_rfl⟩⟩
  · next hlast =>
    refine ⟨rfl, fun h => ⟨?_, rfl, rfl⟩, hform.of_sameTask rfl hj rfl rfl rfl rfl rfl nofun, .inl ⟨rfl, le_rfl⟩⟩
    rw [outsideEngines_eq rfl] at h
    rw [outsideEngines_eq hj]
    exact h

/-! ## Every event keeps the invariant -/

theorem Sound.aead_finish {s : State} {dir : Direction} {v : AeadVariant} (hs : Sound s)
    (hl : lengthsFit s (.aead dir v .finish) = true) (hp : progressFits s (.aead dir v .finish) = true) :
    Sound (aeadMove dir v .finish s) := by
  obtain ⟨hstored, -, -, -, -, -, hwritten⟩ := (sound_iff s).mp hs
  have hc : s.outCount = duplexLen dir s := by simpa [progressFits] using hp
  have hlegal := hstored.legal
  have hlen := duplexLen_le_din hl
  rw [hc] at hwritten
  cases dir with
  | encrypt =>
    have hwritten' := hwritten.append s.tagc.toList
    rw [Vector.length_toList] at hwritten'
    exact sound_finishEngine (s := writeDout s _ s.tagc.toList)
      (hstored.writeBytes (by rw [Vector.length_toList]; omega))
      (show duplexLen .encrypt s + 16 ≤ s.caps.dout by omega) hwritten'
  | decrypt =>
    simp only [aeadMove]
    split
    · exact sound_finishEngine hstored (by omega) hwritten
    · exact sound_rejectPlaintext hstored (by omega)

theorem Sound.hash_finish {s : State} {v : HashVariant} (hs : Sound s)
    (hl : lengthsFit s (.hash v .finish) = true) (hp : progressFits s (.hash v .finish) = true) :
    Sound (hashMove v .finish s) := by
  obtain ⟨hstored, -, -, -, -, -, hwritten⟩ := (sound_iff s).mp hs
  have hc : s.outCount = digestLen s v := by simpa [progressFits] using hp
  exact sound_finishEngine hstored (digestLen_le_dout hl) (hc ▸ hwritten)

theorem Sound.finishPermute {s : State} (hs : Sound s) (hout : outsideEngines s = true) : Sound (finishPermute s) := by
  obtain ⟨hstored, -, ⟨hrest, -⟩, -⟩ := (sound_iff s).mp hs
  obtain ⟨htagc, hphase⟩ := hrest hout
  exact sound_of_rest rfl hstored (statusForm_complete ..) htagc hphase ⟨rfl, rfl, rfl⟩ (Nat.zero_le _) nofun

theorem Sound.moved {s : State} (hs : Sound s) : Sound (blockMove s) := by
  obtain ⟨-, hstatus, -, hform, -⟩ := (sound_iff s).mp hs
  have goesOn : GoesOn s (blockMove s) → Sound (blockMove s) := hs.of_goesOn (blockMove_blockOnly s) hstatus.blockMove
  cases hj : s.job with
  | none => rwa [blockMove_none hj]
  | some j =>
    obtain ⟨hph, hl, hp, -⟩ := (jobForm_iff hj).mp hform
    obtain ⟨t, _ | _⟩ := j
    · cases t with
      | aead dir v stage =>
        have hmove : blockMove s = aeadMove dir v stage s := by rw [blockMove, hj]
        rw [hmove] at goesOn ⊢
        by_cases hstage : stage = .finish
        · subst hstage
          exact hs.aead_finish hl hp
        · exact goesOn (aeadMove_goesOn hstage hph hl hp)
      | hash v stage =>
        have hmove : blockMove s = hashMove v stage s := by rw [blockMove, hj]
        rw [hmove] at goesOn ⊢
        by_cases hstage : stage = .finish
        · subst hstage
          exact hs.hash_finish hl hp
        · exact goesOn (hashMove_goesOn hstage hph hl hp)
      | permute =>
        have hmove : blockMove s = Machine.finishPermute s := by rw [blockMove, hj]
        rw [hmove]
        exact hs.finishPermute (by rw [outsideEngines_eq hj]; rfl)
    · have hmove : blockMove s = roundMove t s := by rw [blockMove, hj]
      rw [hmove] at goesOn ⊢
      exact goesOn (roundMove_goesOn hj hform)

/-! ## The acceptance of a command -/

/-- A command that ends as soon as it is accepted (60_exceptions.md R237). -/
theorem Sound.raiseError_accept {s : State} (hs : Sound s) (hjob : s.job = none) (e : ErrorKind) (b : Byte) :
    Sound (raiseError e (accept b s)) := by
  obtain ⟨hstored, -, ⟨hrest, hloops⟩, -⟩ := (sound_iff s).mp hs
  obtain ⟨htagc, hphase⟩ := hrest (by unfold outsideEngines; rw [hjob])
  exact sound_of_rest rfl hstored (statusForm_raiseError ..) htagc hphase (hloops hjob) (Nat.zero_le _) nofun

/-- An engine command starts (10_state.md R40). -/
theorem Sound.startEngine {s : State} (hs : Sound s) {t : Task} {b : Byte} (hph : phaseFits t .uninitialized = true)
    (hl : lengthsFit s t = true) (hp : progressFits (startEngine t (accept b s)) t = true) (ht : t ≠ .permute) :
    Sound (startEngine t (accept b s)) := by
  obtain ⟨hstored, -⟩ := (sound_iff s).mp hs
  refine sound_of_running rfl hstored (statusForm_running rfl rfl rfl) (fun hout => ?_)
    ((jobForm_iff rfl).mpr ⟨hph, (lengthsFit_of_blockOnly (s := s) (t := Machine.startEngine t (accept b s)) rfl t).trans hl,
      hp, nofun⟩) nofun
  rw [outsideEngines_eq rfl] at hout
  exact absurd (of_decide_eq_true hout) ht

/-- A permutation starts (40_permutation.md R128). -/
theorem Sound.startPermute {s : State} (hs : Sound s) (hjob : s.job = none) {n : Nat} (hn : 1 ≤ n) (b : Byte) :
    Sound (startPerm n .permute (accept b s)) := by
  obtain ⟨hstored, -, ⟨hrest, hloops⟩, -⟩ := (sound_iff s).mp hs
  obtain ⟨htagc, hphase⟩ := hrest (by unfold outsideEngines; rw [hjob])
  obtain ⟨-, -, hcount⟩ := hloops hjob
  refine sound_of_running rfl hstored (statusForm_running rfl rfl rfl) (fun _ => ⟨htagc, hphase⟩)
    (jobForm_startPerm hn ?_ rfl ?_) ?_
  · simp only [phaseFits, Bool.or_eq_true, decide_eq_true_eq]
    exact hphase
  · simp only [progressFits, decide_eq_true_eq]
    exact hcount
  · intro i hi
    simp [hcount] at hi

theorem Sound.beginInstr {s : State} (hs : Sound s) (hjob : s.job = none) (i : Instr) : Sound (beginInstr i s) := by
  have hlegal := ((sound_iff s).mp hs).1.legal
  cases i with
  | encrypt arg =>
    simp only [Machine.beginInstr]
    split
    · exact hs.raiseError_accept hjob ..
    · next v hv =>
      obtain ⟨-, hklen, hnlen, hadlen, hdlen⟩ := encryptReady_iff.mpr hv
      refine hs.startEngine rfl ?_ rfl nofun
      simp [lengthsFit, hklen, hnlen, hadlen, hdlen, nonceBytes]
  | decrypt arg =>
    simp only [Machine.beginInstr]
    split
    · exact hs.raiseError_accept hjob ..
    · next v hv =>
      obtain ⟨⟨-, hklen, hnlen, hadlen, hdlen⟩, htag⟩ := decryptReady_iff.mpr hv
      refine hs.startEngine rfl ?_ rfl nofun
      simp [lengthsFit, hklen, hnlen, hadlen, hdlen, htag, nonceBytes, tagBytes]
  | hash arg =>
    simp only [Machine.beginInstr]
    split
    · exact hs.raiseError_accept hjob ..
    · next v hv =>
      obtain ⟨-, hfixed, hfree, hdlen⟩ := hashReady_iff.mpr hv
      refine hs.startEngine rfl ?_ rfl nofun
      have hdigest : digestLen s v ≤ s.caps.dout := by
        unfold digestLen hashBytes
        split
        · omega
        · next h => exact hfree (by simpa using h)
      simp [lengthsFit, hdlen, hdigest]
  | permute n =>
    simp only [Machine.beginInstr]
    split
    · exact hs.raiseError_accept hjob ..
    · next k hk =>
      obtain ⟨rfl, hlo, -⟩ := validateRounds_ok hk
      exact hs.startPermute hjob hlo _

/-! ## The host -/

theorem Sound.job_eq_none {s : State} (hs : Sound s) (hb : s.busy = false) : s.job = none := by
  obtain ⟨-, ⟨-, -, -, hbusy, -⟩, -⟩ := (sound_iff s).mp hs
  rw [hb] at hbusy
  simpa using hbusy.symm

theorem HostStore.stored {s t : State} (h : HostStore s t) (hs : Stored s.caps s.ad s.din s.dout) :
    Stored t.caps t.ad t.din t.dout := by
  cases h with
  | reg8 r v => cases r <;> exact hs
  | reg32 r v => cases r <;> exact hs
  | word i v => exact hs
  | bytes sp i bs hroom =>
    obtain ⟨⟨had, hdin, hdout⟩, hlegal, bad, bdin, bdout⟩ := hs
    cases sp with
    | ad =>
      exact ⟨⟨Memory.writeBytes_wf i bs had, hdin, hdout⟩, hlegal, Memory.writeBytes_bound bad hroom, bdin, bdout⟩
    | din =>
      exact ⟨⟨had, Memory.writeBytes_wf i bs hdin, hdout⟩, hlegal, bad, Memory.writeBytes_bound bdin hroom, bdout⟩
    | key | nonce | dout => exact ⟨⟨had, hdin, hdout⟩, hlegal, bad, bdin, bdout⟩

theorem Sound.hostStore {s t : State} (hs : Sound s) (hb : s.busy = false) (h : HostStore s t) : Sound t := by
  obtain ⟨hstored, hstatus, ⟨hrest, hloops⟩, -, hroom, hwritten, -⟩ := (sound_iff s).mp hs
  have hjob := hs.job_eq_none hb
  obtain ⟨htagc, hphase⟩ := hrest (by unfold outsideEngines; rw [hjob])
  have hstored' := h.stored hstored
  rw [h.eq] at hstored' ⊢
  exact sound_of_rest hjob hstored' hstatus htagc hphase (hloops hjob) hroom hwritten

theorem sound_reset : Sound State.reset :=
  sound_of_rest rfl ⟨reset_memoryForm, by decide, nofun, nofun, nofun⟩ statusForm_reset rfl (.inl rfl)
    ⟨rfl, rfl, rfl⟩ (Nat.zero_le _) nofun

/-- A reset clears the buffers and keeps the capacities (70_reset_and_hazards.md R271). -/
theorem Sound.resetBlock {s : State} (hs : Sound s) : Sound (resetBlock s) :=
  sound_of_rest rfl ⟨reset_memoryForm, ((sound_iff s).mp hs).1.legal, nofun, nofun, nofun⟩ statusForm_reset rfl
    (.inl rfl) ⟨rfl, rfl, rfl⟩ (Nat.zero_le _) nofun

theorem sound_keptByEvents : KeptByEvents Sound where
  host _ _ hs := hs
  store hs hb hst := hs.hostStore hb hst
  reset hs := hs.resetBlock
  begin i hs hb := hs.beginInstr (hs.job_eq_none hb) i
  illegal b hs hb := hs.raiseError_accept (hs.job_eq_none hb) .illegalCommand b
  move hs := hs.moved

end Sys2Proof.Machine

namespace Sys2Proof.Proofs.State

open Sys2Proof.Machine

/-- Settles O56: every event keeps the invariant (`sound_keptByEvents`), a move of the block because it keeps the command in
progress within its loops (`GoesOn`) or ends it with all its output written. -/
theorem soundKept : Obligations.SoundKept := by
  unfold Obligations.SoundKept
  exact fun _ _ => sound_keptByEvents.step

/-- Settles O57, by the invariant of a state with no command in progress. -/
theorem soundAtReset : Obligations.SoundAtReset := by
  unfold Obligations.SoundAtReset
  exact sound_reset

end Sys2Proof.Proofs.State
end

section
/-! SUPPORT. The host's accesses at rest and while nothing is released, host scripts line by line, and the statements about them. -/

namespace Sys2Proof.Machine

/-! ## Reads of `DOUT` (10_state.md R37, 70_reset_and_hazards.md R278) -/

theorem hostAction_rdByte_dout (s : State) (i : Nat) :
    hostAction (.rdByte .dout i) s = .next (note (.bytes .dout i [if s.busy then 0 else byteAtRest s .dout i]) s) := by
  rw [← hostByte_eq]
  simp only [hostAction, readByte, true_or, if_true]
  split <;> rfl

theorem hostAction_rdBytes_dout (s : State) (n : Nat) :
    hostAction (.rdBytes .dout n) s =
      .next (note (.bytes .dout 0 (if s.busy then zeros n else (List.range n).map (byteAtRest s .dout))) s) := by
  rw [← funext (hostByte_eq s .dout)]
  simp only [hostAction, readFromStart, true_or, if_true]
  split <;> rfl

/-- Without a completed success nothing of `DOUT` can be read (60_exceptions.md R236). -/
theorem StatusForm.olen_eq_zero_of_noSuccess {s : State} (h : StatusForm s) (hnone : s.done = false ∨ s.err ≠ 0) :
    s.olen = 0 := by
  obtain ⟨-, -, -, -, hdone, herr⟩ := h
  exact hnone.elim (fun hd => (hdone hd).2) herr

theorem byteAtRest_dout_of_olen_eq_zero {s : State} (h : s.olen = 0) (i : Nat) : byteAtRest s .dout i = 0 := by
  simp [byteAtRest, h]

section
variable {s : State} (h : StatusForm s) (hnone : s.busy = true ∨ s.done = false ∨ s.err ≠ 0)
include h hnone

theorem StatusForm.rdByte_dout (i : Nat) : hostAction (.rdByte .dout i) s = .next (note (.bytes .dout i [0]) s) := by
  rw [hostAction_rdByte_dout]
  split
  · rfl
  · next hb => rw [byteAtRest_dout_of_olen_eq_zero (h.olen_eq_zero_of_noSuccess (hnone.resolve_left hb))]

theorem StatusForm.rdBytes_dout (n : Nat) :
    hostAction (.rdBytes .dout n) s = .next (note (.bytes .dout 0 (List.replicate n 0)) s) := by
  rw [hostAction_rdBytes_dout]
  split
  · rfl
  · next hb =>
    have holen := h.olen_eq_zero_of_noSuccess (hnone.resolve_left hb)
    rw [funext (byteAtRest_dout_of_olen_eq_zero holen), List.map_const', List.length_range]

theorem StatusForm.rdResult :
    hostAction .rdResult s =
      if s.busy = true ∨ s.err ≠ 0 then .next (note (.reg8 .status s.status) s)
      else .next (note (.bytes .dout 0 []) s) := by
  simp only [hostAction, readResult]
  split
  · rfl
  · next hs =>
    rw [h.olen_eq_zero_of_noSuccess (hnone.resolve_left fun hb => hs (.inl hb))]
    rfl

end

/-! ## Host scripts, line by line (30_encoding.md R97, R98) -/

/-- A step that answers a next state, at the head of a run. -/
theorem run_succ_of_next (M : Host.Core) {s t : M.State} (h : M.step s = .next t) (k : Nat) :
    M.run (k + 1) s = M.run k t := by
  rw [Host.Core.run, h]

theorem run_succ {s t : State} (h : step s = .next t) (k : Nat) : core.run (k + 1) s = core.run k t :=
  run_succ_of_next core h k

/-- A host script run to its end. -/
abbrev runScript (lines : List HostAction) (s : State) : Host.Outcome State Fault Refusal :=
  core.run lines.length (withScript lines s)

/-- One line of a script that does the same whatever the rest of the script is. -/
theorem runScript_cons {a : HostAction} {s u : State}
    (h : ∀ es, hostAction a { s with agenda := es } = .next { u with agenda := es }) (lines : List HostAction) :
    runScript (a :: lines) s = runScript lines u :=
  run_succ ((step_cons (s := withScript (a :: lines) s) rfl).trans (h _)) _

theorem hostAction_wrBytes {s : State} (hb : s.busy = false) (sp : Space) (bs : List Byte) (es : List Event) :
    hostAction (.wrBytes sp bs) { s with agenda := es } =
      .next { storeBytes sp 0 (bs.take (spaceSize s sp)) s with agenda := es } := by
  have hb' : State.busy { s with agenda := es } = false := hb
  simp only [hostAction, writeFromStart, hb']
  cases sp <;> rfl

theorem hostAction_wr8 {s : State} (hb : s.busy = false) {r : Reg8} (hr : r ≠ .cmd) (v : BitVec 8) (es : List Event) :
    hostAction (.wr8 r v) { s with agenda := es } = .next { setReg8 r v s with agenda := es } := by
  have hb' : State.busy { s with agenda := es } = false := hb
  cases r with
  | cmd => exact absurd rfl hr
  | status | klen | nlen => simp only [hostAction, hb']; rfl

theorem hostAction_wr32 {s : State} (hb : s.busy = false) (r : Reg32) (v : BitVec 32) (es : List Event) :
    hostAction (.wr32 r v) { s with agenda := es } = .next { setReg32 r v s with agenda := es } := by
  have hb' : State.busy { s with agenda := es } = false := hb
  simp only [hostAction, hb']
  cases r <;> rfl

/-- The lines that hand over the key and the nonce leave the block idle, whatever comes after them. -/
theorem run_keyAndNonce {s : State} (hb : s.busy = false) (K N : List Byte) (k n : BitVec 8) :
    ∃ u : State, u.busy = false ∧ ∀ lines : List HostAction,
      runScript (.wrBytes .key K :: .wr8 .klen k :: .wrBytes .nonce N :: .wr8 .nlen n :: lines) s = runScript lines u := by
  obtain ⟨s₁, h₁⟩ : ∃ s₁, s₁ = storeBytes .key 0 (K.take (spaceSize s .key)) s := ⟨_, rfl⟩
  obtain ⟨s₂, h₂⟩ : ∃ s₂, s₂ = setReg8 .klen k s₁ := ⟨_, rfl⟩
  obtain ⟨s₃, h₃⟩ : ∃ s₃, s₃ = storeBytes .nonce 0 (N.take (spaceSize s₂ .nonce)) s₂ := ⟨_, rfl⟩
  have hb₁ : s₁.busy = false := h₁ ▸ hb
  have hb₂ : s₂.busy = false := h₂ ▸ hb₁
  have hb₃ : s₃.busy = false := h₃ ▸ hb₂
  refine ⟨setReg8 .nlen n s₃, hb₃, fun lines => ?_⟩
  exact (runScript_cons (h₁ ▸ hostAction_wrBytes hb .key K) _).trans
    ((runScript_cons (h₂ ▸ hostAction_wr8 hb₁ (by decide) k) _).trans
      ((runScript_cons (h₃ ▸ hostAction_wrBytes hb₂ .nonce N) _).trans
        (runScript_cons (hostAction_wr8 hb₃ (by decide) n) _)))

/-- Every command ends with `DONE = 1` (70_reset_and_hazards.md R284). -/
theorem exec_done {i : Instr} {s t : State} (h : exec i s = .next t) : t.done = true := by
  cases i with
  | encrypt arg =>
    obtain ⟨e, -, he⟩ | ⟨v, -, he⟩ := execEncrypt_cases arg s <;> cases he.symm.trans h
    · exact done_raiseError ..
    · exact done_complete ..
  | decrypt arg =>
    obtain ⟨e, -, he⟩ | ⟨v, -, r, -, ⟨-, he⟩ | ⟨-, he⟩⟩ := execDecrypt_cases arg s <;> cases he.symm.trans h
    · exact done_raiseError ..
    · exact done_complete ..
    · exact done_raiseError ..
  | hash arg =>
    obtain ⟨e, -, he⟩ | ⟨v, -, he⟩ := execHash_cases arg s <;> cases he.symm.trans h
    · exact done_raiseError ..
    · exact done_complete ..
  | permute n =>
    obtain ⟨-, he⟩ | ⟨-, -, he⟩ := execPermute_cases n s <;> cases he.symm.trans h
    · exact done_raiseError ..
    · exact done_complete ..

theorem commandWrite_done {s : State} (hb : s.busy = false) (b : Byte) :
    ∃ t, commandWrite b s = .next t ∧ t.done = true ∧ t.agenda = s.agenda := by
  unfold commandWrite
  rw [hb]
  cases decodeByte b with
  | none => exact ⟨illegalCommand b s, rfl, done_raiseError .., rfl⟩
  | some i =>
    obtain ⟨t, ht, -⟩ := exec_eq_reached i s
    exact ⟨t, ht, exec_done ht, (exec_blockOnly ht).agenda_eq⟩

/-- The end of every script: a command on an idle block, `WAIT`, and the last line (30_encoding.md R98). -/
theorem run_commandLines {s : State} (hb : s.busy = false) (b : Byte) :
    ∃ t, runScript [.command b, .wait, .rdResult] s = .next t := by
  obtain ⟨t, ht, hdone, hagenda⟩ :=
    commandWrite_done (s := withScript [.wait, .rdResult] s) hb b
  have hcommand : step (withScript [.command b, .wait, .rdResult] s) = .next t :=
    (step_cons (s := withScript [.command b, .wait, .rdResult] s) rfl).trans ht
  have hwait : step t = .next { t with agenda := [.host .rdResult] } := by
    rw [step_cons hagenda]
    exact congrArg Host.Outcome.next (if_pos hdone)
  have hread : step { t with agenda := [.host .rdResult] } = .next (readResult { t with agenda := [] }) :=
    step_cons (s := { t with agenda := [.host .rdResult] }) rfl
  exact ⟨_, (run_succ hcommand 2).trans ((run_succ hwait 1).trans (run_succ hread 0))⟩

/-- An empty write leaves a buffer as it is. -/
theorem hostAction_wrBytes_ad_nil {s : State} (hb : s.busy = false) (es : List Event) :
    hostAction (.wrBytes .ad []) { s with agenda := es } = .next { s with agenda := es } := by
  rw [hostAction_wrBytes hb]
  simp [storeBytes]

/-! ## The acceptance of a command (10_state.md R28, R29, 30_encoding.md R94) -/

theorem decodeByte_of_decode {b : Byte} {i : Instr} (h : decode [b] = .command i []) : decodeByte b = some i := by
  cases hd : decodeByte b with
  | none => simp only [decode, hd, reduceCtorEq] at h
  | some j =>
    simp only [decode, hd, Decoded.command.injEq, and_true] at h
    rw [h]

theorem decode_of_decodeByte {b : Byte} {i : Instr} (h : decodeByte b = some i) : decode [b] = .command i [] := by
  simp only [decode, h]

/-- A byte that decodes to a command is the byte of that command. -/
theorem encodeByte_of_decodeByte {b : Byte} {i : Instr} (h : decodeByte b = some i) : encodeByte i = b := by
  have hall : ∀ b : BitVec 8, ∀ i ∈ decodeByte b, encodeByte i = b := by decide
  exact hall b i h

theorem commandWrite_of_decode {b : Byte} {i : Instr} (h : decode [b] = .command i []) (s : State) :
    commandWrite b s = if s.busy then .next s else exec i s := by
  simp only [commandWrite, decodeByte_of_decode h]

theorem beginWrite_of_decode {b : Byte} {i : Instr} (h : decode [b] = .command i []) (s : State) :
    beginWrite b s = if s.busy then s else beginInstr i s := by
  simp only [beginWrite, decodeByte_of_decode h]

/-- Whether a command is ready does not depend on the events to come. -/
theorem commandReady_agenda {i : Instr} {s : State} (es : List Event) :
    CommandReady i { s with agenda := es } ↔ CommandReady i s := by
  cases i <;> rfl

/-- A command that is ready starts: an engine command in `Uninitialized`, or the permutation (10_state.md R40). -/
theorem beginInstr_of_ready {i : Instr} {s : State} (h : CommandReady i s) :
    ((∀ n, i ≠ .permute n) ∧ ∃ t, beginInstr i s = startEngine t (accept (encodeByte i) s))
      ∨ ∃ n, i = .permute n ∧ beginInstr i s = startPerm n.toNat .permute (accept (encodeByte i) s) := by
  obtain ⟨hnot, -⟩ | ⟨-, ⟨t, ht⟩ | hperm⟩ := beginInstr_cases i s
  · exact absurd h hnot
  · cases i with
    | permute n =>
      obtain ⟨hlo, hhi⟩ : 1 ≤ n.toNat ∧ n.toNat ≤ 12 := h
      refine .inr ⟨n, rfl, ?_⟩
      simp only [beginInstr, validateRounds_eq_ok hlo hhi]
    | encrypt | decrypt | hash => exact .inl ⟨nofun, t, ht⟩
  · exact .inr hperm

/-- A byte that does not start a command ends alike at both grains (log 11). -/
theorem commandWrite_eq_beginWrite {b : Byte} {s : State} (h : ∀ i, decodeByte b = some i → ¬CommandReady i s) :
    commandWrite b s = .next (beginWrite b s) := by
  unfold commandWrite beginWrite
  split
  · rfl
  · cases hd : decodeByte b with
    | none => rfl
    | some i =>
      obtain ⟨-, he, -⟩ | ⟨hready, -⟩ := beginInstr_cases i s
      · exact he
      · exact absurd hready (h i hd)

/-- `withFetchWord` writes the byte on an idle block (log 2). -/
theorem step_withFetchWord (s : State) (b : Byte) :
    step (s.withFetchWord 8 b.toNat) = commandWrite b { s with status := statusIdle s.status, job := none } := by
  have hbyte : BitVec.ofNat 8 (b.toNat % 2 ^ 8) = b := by
    rw [Nat.mod_eq_of_lt b.isLt, BitVec.ofNat_toNat, BitVec.setWidth_eq]
  rw [State.withFetchWord, hbyte]
  exact step_cons (s := placeCommand b s) rfl

theorem busy_statusIdle (s : State) : State.busy { s with status := statusIdle s.status, job := none } = false := by
  simp [State.busy, statusIdle]

end Sys2Proof.Machine

namespace Sys2Proof.Proofs.State

open Sys2Proof.Machine

/-- Settles O11: without a completed success `OLEN` is 0 or `BUSY` is 1, and every read of `DOUT` gives zeros. -/
theorem nothingReleasedWithoutSuccess : Obligations.NothingReleasedWithoutSuccess := by
  unfold Obligations.NothingReleasedWithoutSuccess
  intro s a rest hform ha hnone
  refine ⟨?_, ?_, ?_⟩
  · rintro i rfl
    exact (step_cons ha).trans (StatusForm.rdByte_dout (s := { s with agenda := rest }) hform hnone i)
  · rintro n rfl
    exact (step_cons ha).trans (StatusForm.rdBytes_dout (s := { s with agenda := rest }) hform hnone n)
  · rintro rfl
    exact (step_cons ha).trans (StatusForm.rdResult (s := { s with agenda := rest }) hform hnone)

/-- Settles O35: after the key and the nonce the two scripts go on from one state, and the one line more of the empty
associated data changes nothing. -/
theorem absentAndEmptyAssociatedDataAgree : Obligations.AbsentAndEmptyAssociatedDataAgree := by
  unfold Obligations.AbsentAndEmptyAssociatedDataAgree
  rintro s v K N M ⟨hb, -⟩
  obtain ⟨u, hu, hrun⟩ := run_keyAndNonce hb K N (reportLength 8 K.length) (reportLength 8 N.length)
  obtain ⟨u₁, h₁⟩ : ∃ u₁, u₁ = setReg32 .adlen 0 u := ⟨_, rfl⟩
  obtain ⟨u₂, h₂⟩ : ∃ u₂, u₂ = storeBytes .din 0 (M.take (spaceSize u₁ .din)) u₁ := ⟨_, rfl⟩
  have hu₁ : u₁.busy = false := h₁ ▸ hu
  have hu₂ : u₂.busy = false := h₂ ▸ hu₁
  obtain ⟨t, ht⟩ := run_commandLines (s := setReg32 .dlen (reportLength 32 M.length) u₂) hu₂
    (encodeByte (.encrypt (aeadCode v)))
  have hdata := (runScript_cons (h₁ ▸ hostAction_wr32 hu .adlen 0) _).trans
    ((runScript_cons (h₂ ▸ hostAction_wrBytes hu₁ .din M) _).trans
      ((runScript_cons (hostAction_wr32 hu₂ .dlen (reportLength 32 M.length)) _).trans ht))
  have hempty := (runScript_cons (hostAction_wrBytes_ad_nil hu) _).trans hdata
  exact ⟨t, (hrun (_ :: _)).trans hdata, (hrun _).trans hempty⟩

/-- Settles O43: what a read of `DOUT` returns on an idle block. -/
theorem doutIsGatedByOlen : Obligations.DoutIsGatedByOlen := by
  unfold Obligations.DoutIsGatedByOlen
  rintro s a rest ⟨hb, -⟩ ha
  have hidle : State.busy { s with agenda := rest } = false := hb
  refine ⟨?_, ?_⟩
  · rintro i rfl
    have hread := hostAction_rdByte_dout { s with agenda := rest } i
    rw [hidle] at hread
    exact (step_cons ha).trans hread
  · rintro n rfl
    have hread := hostAction_rdBytes_dout { s with agenda := rest } n
    rw [hidle] at hread
    exact (step_cons ha).trans hread

/-- Settles O47: each register write on an idle block by its definition, the word write by the laws of `setWord`. -/
theorem registerWritesReachTheirRegister : Obligations.RegisterWritesReachTheirRegister := by
  unfold Obligations.RegisterWritesReachTheirRegister
  rintro s v w x i ⟨hb, -⟩
  have hword : writeWord i x s = { s with S := setWord s.S i x } := if_neg (Bool.not_eq_true _ ▸ hb)
  exact ⟨hostAction_wr8 hb (by decide) v s.agenda, hostAction_wr8 hb (by decide) v s.agenda,
    hostAction_wr8 hb (by decide) v s.agenda, hostAction_wr32 hb .olen w s.agenda, hostAction_wr32 hb .adlen w s.agenda,
    hostAction_wr32 hb .dlen w s.agenda, hostAction_wr32 hb .hlen w s.agenda, setWord s.S i x,
    congrArg Host.Outcome.next hword, wordAt_setWord .., fun j hj => wordAt_setWord_ne _ _ hj⟩

/-- Settles O49: the reset state field by field; no byte of a buffer is written there, and `OLEN` is 0. -/
theorem resetValues : Obligations.ResetValues := by
  unfold Obligations.ResetValues
  refine ⟨rfl, rfl, rfl, rfl, rfl, rfl, rfl, rfl, rfl, rfl, rfl, rfl, rfl, rfl, rfl, rfl, fun i => ⟨rfl, rfl, ?_⟩⟩
  rw [hostByte_eq]
  exact byteAtRest_dout_of_olen_eq_zero rfl i

/-- Settles O4: a step is what its event does (`step_cons`), a `CMD` write on an idle block is `exec` or the acceptance of the
command (`commandWrite_of_decode`, `beginInstr_of_ready`), and a byte that starts no command ends alike at both grains. -/
theorem stepRunsTheCommand : Obligations.StepRunsTheCommand := by
  unfold Obligations.StepRunsTheCommand
  refine ⟨fun s b a rest i ha hagenda hdecode => ?_, fun s b i hdecode => ?_, fun s b rest hagenda => ⟨?_, ?_, ?_⟩⟩
  · rw [step_cons hagenda]
    obtain rfl | rfl := ha
    · exact commandWrite_of_decode hdecode _
    · exact commandWrite_of_decode hdecode _
  · rw [step_withFetchWord, commandWrite_of_decode hdecode, busy_statusIdle]
    rfl
  · intro hb
    exact (step_cons hagenda).trans (congrArg Host.Outcome.next (if_pos hb))
  · intro i hb hdecode hready
    have hbyte := encodeByte_of_decodeByte (decodeByte_of_decode hdecode)
    have hbegin : beginWrite b { s with agenda := rest } = beginInstr i { s with agenda := rest } :=
      (beginWrite_of_decode hdecode _).trans (if_neg (Bool.not_eq_true _ ▸ hb))
    have hstep : step s = .next (beginInstr i { s with agenda := rest }) :=
      (step_cons hagenda).trans (congrArg Host.Outcome.next hbegin)
    obtain ⟨hengine, t, ht⟩ | ⟨n, rfl, ht⟩ := beginInstr_of_ready ((commandReady_agenda rest).mpr hready)
    · rw [ht, hbyte] at hstep
      refine ⟨_, hstep, rfl, ?_⟩
      cases i with
      | encrypt | decrypt | hash => rfl
      | permute n => exact absurd rfl (hengine n)
    · rw [ht, hbyte] at hstep
      exact ⟨_, hstep, rfl, rfl⟩
  · intro hb hnot
    rw [step_cons hagenda, step_cons (s := { s with agenda := .host (.command b) :: rest }) rfl]
    refine (commandWrite_eq_beginWrite (s := { s with agenda := rest }) fun i hi hready => ?_).symm
    exact hnot i (decode_of_decodeByte hi) ((commandReady_agenda rest).mp hready)

end Sys2Proof.Proofs.State
end

section
/-! SUPPORT. The canonical form of the three buffers, kept by every event. -/

namespace Sys2Proof.Machine

/-- `t` holds the bytes of `DOUT` that `s` held, but for one byte sequence, empty or not, stored over them. -/
def WritesDout (s t : State) : Prop := ∃ a x, t.dout = Memory.writeBytes s.dout a x

theorem WritesDout.of_eq {s t : State} (h : t.dout = s.dout) : WritesDout s t :=
  ⟨0, [], h.trans (Memory.writeBytes_nil _).symm⟩

theorem encryptMove_writesDout (v : AeadVariant) (s : State) : WritesDout s (encryptMove v s) := by
  simp only [encryptMove]
  split
  · exact ⟨_, _, rfl⟩
  · exact ⟨_, _, rfl⟩

theorem decryptMove_writesDout (v : AeadVariant) (s : State) : WritesDout s (decryptMove v s) := by
  simp only [decryptMove]
  split
  · exact ⟨_, _, rfl⟩
  · exact ⟨_, _, rfl⟩

theorem aeadMove_writesDout (dir : Direction) (v : AeadVariant) (stage : AeadStage) (s : State) :
    WritesDout s (aeadMove dir v stage s) := by
  cases stage with
  | load | keyXor | domain | inject | tag => exact .of_eq rfl
  | absorb => simp only [aeadMove]; split <;> exact .of_eq rfl
  | duplex =>
    cases dir with
    | encrypt => exact encryptMove_writesDout v s
    | decrypt => exact decryptMove_writesDout v s
  | finish =>
    cases dir with
    | encrypt => exact ⟨_, _, rfl⟩
    | decrypt =>
      simp only [aeadMove]
      split
      · exact .of_eq rfl
      · exact ⟨_, _, rfl⟩

theorem hashMove_writesDout (v : HashVariant) (stage : HashStage) (s : State) :
    WritesDout s (hashMove v stage s) := by
  cases stage with
  | load | ready | finish => exact .of_eq rfl
  | absorb => simp only [hashMove]; split <;> exact .of_eq rfl
  | squeeze =>
    simp only [hashMove]
    split
    · exact ⟨_, _, rfl⟩
    · exact .of_eq rfl

theorem roundMove_writesDout (t : Task) (s : State) : WritesDout s (roundMove t s) := by
  unfold roundMove
  split <;> exact .of_eq rfl

theorem blockMove_writesDout (s : State) : WritesDout s (blockMove s) := by
  unfold blockMove
  split
  · exact .of_eq rfl
  · exact roundMove_writesDout ..
  · exact aeadMove_writesDout ..
  · exact hashMove_writesDout ..
  · exact .of_eq rfl

/-- A move of the block stores through `Memory.writeBytes` alone, and only into `DOUT` (20_memory.md R60). -/
theorem memoryForm_blockMove {s : State} (h : MemoryForm s) : MemoryForm (blockMove s) := by
  obtain ⟨had, hdin, hdout⟩ := h
  obtain ⟨-, ead, edin⟩ := (blockMove_blockOnly s).buffers
  obtain ⟨a, x, edout⟩ := blockMove_writesDout s
  exact ⟨ead ▸ had, edin ▸ hdin, edout ▸ Memory.writeBytes_wf a x hdout⟩

theorem memoryForm_beginInstr {s : State} (i : Instr) (h : MemoryForm s) : MemoryForm (beginInstr i s) := by
  obtain ⟨-, -, e, -, he⟩ | ⟨-, ⟨t, he⟩ | ⟨n, -, he⟩⟩ := beginInstr_cases i s <;> rw [he] <;> exact h

theorem memoryForm_storeBytes {s : State} (sp : Space) (i : Nat) (bs : List Byte) (h : MemoryForm s) :
    MemoryForm (storeBytes sp i bs s) := by
  obtain ⟨had, hdin, hdout⟩ := h
  cases sp with
  | ad => exact ⟨Memory.writeBytes_wf i bs had, hdin, hdout⟩
  | din => exact ⟨had, Memory.writeBytes_wf i bs hdin, hdout⟩
  | key | nonce | dout => exact ⟨had, hdin, hdout⟩

theorem HostStore.memoryForm {s t : State} (h : HostStore s t) (hs : MemoryForm s) : MemoryForm t := by
  cases h with
  | reg8 r v => cases r <;> exact hs
  | reg32 r v => cases r <;> exact hs
  | word i v => exact hs
  | bytes sp i bs _ => exact memoryForm_storeBytes sp i bs hs

theorem memoryForm_keptByEvents : KeptByEvents MemoryForm where
  host _ _ h := h
  store h _ hst := hst.memoryForm h
  reset _ := reset_memoryForm
  begin i h _ := memoryForm_beginInstr i h
  illegal _ h _ := h
  move h := memoryForm_blockMove h

end Sys2Proof.Machine

namespace Sys2Proof.Proofs.Memory

open Sys2Proof.Machine

/-- Settles O54: every event keeps the canonical form (`memoryForm_keptByEvents`), for the block and the host store byte
sequences through `Memory.writeBytes` alone. -/
theorem memoryFormKept : Obligations.MemoryFormKept := by
  unfold Obligations.MemoryFormKept
  exact fun _ _ => memoryForm_keptByEvents.step

end Sys2Proof.Proofs.Memory
end

section
/-! SUPPORT. The blocks cut from a buffer (20_memory.md R66, R67), and what `ENCRYPT` reads and leaves (R62). -/

namespace Sys2Proof.Machine

/-! ## Block loads (20_memory.md R67) -/

/-- A full block of a padded sequence is a block of the sequence. -/
theorem blockAt_pad {b : List Byte} {rate : Rate} {i : Nat} (h : i < b.length / rateLen rate) :
    blockAt (pad b rate) rate i = (b.drop (i * rateLen rate)).take (rateLen rate) := by
  have hroom : (i + 1) * rateLen rate ≤ b.length := (Nat.le_div_iff_mul_le (rateLen_pos rate)).mp h
  rw [Nat.succ_mul] at hroom
  rw [blockAt_eq_take_drop, pad, List.drop_append_of_le_length (by omega),
    List.take_append_of_le_length (by rw [List.length_drop]; omega)]

/-- The last block of a padded sequence is what is left of the sequence, with the padding. -/
theorem blockAt_pad_last (b : List Byte) (rate : Rate) :
    blockAt (pad b rate) rate (b.length / rateLen rate) =
      b.drop (b.length / rateLen rate * rateLen rate) ++ 0x80 :: zeros (rateLen rate - b.length % rateLen rate - 1) := by
  have hmod : b.length % rateLen rate < rateLen rate := Nat.mod_lt _ (rateLen_pos rate)
  rw [blockAt_eq_take_drop, pad, List.drop_append_of_le_length (Nat.div_mul_le_self _ _)]
  refine List.take_of_length_le ?_
  rw [List.length_append, List.length_drop, ← Nat.mod_eq_sub_div_mul, List.length_cons, zeros_length]
  omega

/-- The bytes of a read from an index on are a read of their own. -/
theorem memRead_drop (s : State) (sp : Space) (addr n k : Nat) :
    (memRead s sp addr n).drop k = memRead s sp (addr + k) (n - k) := by
  refine List.ext_getElem? fun i => ?_
  rw [List.getElem?_drop, memRead_getElem?, memRead_getElem?, Nat.add_assoc]
  exact if_congr (by omega) rfl rfl

theorem memRead_take (s : State) (sp : Space) (addr : Nat) {n k : Nat} (h : k ≤ n) :
    (memRead s sp addr n).take k = memRead s sp addr k := by
  rw [memRead, ← List.map_take, List.take_range, Nat.min_eq_left h, memRead]

section
variable (s : State) (sp : Space) {len : Nat} {rate : Rate} {i : Nat}

theorem loadBlock_length (h : i ≤ len / rateLen rate) : (loadBlock s sp len rate i).length = rateLen rate := by
  refine blockAt_length ?_
  rw [pad_length, memRead_length, Nat.mul_div_cancel _ (rateLen_pos rate)]
  omega

theorem loadBlock_full (h : i < len / rateLen rate) :
    loadBlock s sp len rate i = memRead s sp (i * rateLen rate) (rateLen rate) := by
  have hroom : (i + 1) * rateLen rate ≤ len := (Nat.le_div_iff_mul_le (rateLen_pos rate)).mp h
  rw [Nat.succ_mul] at hroom
  rw [loadBlock, blockAt_pad (by rwa [memRead_length]), memRead_drop, Nat.zero_add, memRead_take _ _ _ (by omega)]

theorem loadBlock_last :
    loadBlock s sp len rate (len / rateLen rate) =
      memRead s sp (len / rateLen rate * rateLen rate) (len % rateLen rate)
        ++ 0x80 :: zeros (rateLen rate - len % rateLen rate - 1) := by
  have hlast := blockAt_pad_last (memRead s sp 0 len) rate
  rwa [memRead_length, memRead_drop, Nat.zero_add, ← Nat.mod_eq_sub_div_mul] at hlast

end

/-! ## What `ENCRYPT` reads and leaves (20_memory.md R62, 41_aead.md R150) -/

/-- An `ENCRYPT` that passes its checks completes with its result in `DOUT`. -/
theorem exec_encrypt_of_ready {arg : BitVec 4} {v : AeadVariant} {s : State} (h : EncryptReady arg v s) :
    exec (.encrypt arg) s =
      .next (finishEngine (s.dlen.toNat + tagBytes)
        (writeDout (accept (encodeByte (.encrypt arg)) s) 0
          (aeadEncrypt v (keyOf s v) (nonceOf s) (adOf s) (dataOf s)))) := by
  have hvalid := encryptReady_iff (b := encodeByte (.encrypt arg)).mp h
  obtain ⟨e, he, -⟩ | ⟨w, hw, hexec⟩ := execEncrypt_cases arg s
  · cases he.symm.trans hvalid
  · cases hw.symm.trans hvalid
    exact hexec

/-- The result is the ciphertext, as long as the plaintext, and 16 bytes of tag (10_state.md R35). -/
theorem aeadEncrypt_length (v : AeadVariant) (K N A M : List Byte) : (aeadEncrypt v K N A M).length = M.length + 16 := by
  simp only [aeadEncrypt, finalize, List.length_append, encryptData_length, tagOf_length]

theorem memRead_congr {s u : State} {sp : Space} {n : Nat} (h : ∀ i < n, storedByte s sp i = storedByte u sp i) :
    memRead s sp 0 n = memRead u sp 0 n :=
  (memRead_eq_iff s u sp 0 n).mpr fun i hi => by rw [Nat.zero_add]; exact h i hi

/-- Two buffers agree on a byte sequence stored into both of them. -/
theorem read?_writeBytes_congr (m k : Memory) (bs : List Byte) {i : Nat} (h : i < bs.length) :
    Memory.read? (Memory.writeBytes m 0 bs) i = Memory.read? (Memory.writeBytes k 0 bs) i := by
  rw [Memory.read?_writeBytes, Memory.read?_writeBytes, if_pos (by omega), if_pos (by omega)]

end Sys2Proof.Machine

namespace Sys2Proof.Proofs.Memory

open Sys2Proof.Machine

/-- Settles O20: a full block of the padded data lies inside the data (`loadBlock_full`), the last one is what is left of
them, with the padding (`loadBlock_last`). -/
theorem loadBlockPadsTheLastBlock : Obligations.LoadBlockPadsTheLastBlock := by
  unfold Obligations.LoadBlockPadsTheLastBlock
  intro s sp len rate i
  refine ⟨loadBlock_length s sp, loadBlock_full s sp, ?_⟩
  rintro rfl
  exact loadBlock_last s sp

/-- Settles O33: the key, the nonce, the associated data and the plaintext are four reads of the bytes the two states agree
on, and everything observed is a function of them and of `DLEN`. -/
theorem encryptReadsOnlyItsInputs : Obligations.EncryptReadsOnlyItsInputs := by
  unfold Obligations.EncryptReadsOnlyItsInputs
  intro s u arg v hs hu hadlen hdlen hkey hnonce had hdin
  have ekey : keyOf s v = keyOf u v := memRead_congr hkey
  have enonce : nonceOf s = nonceOf u := memRead_congr hnonce
  have ead : adOf s = adOf u := by rw [adOf, adOf, ← hadlen]; exact memRead_congr had
  have edata : dataOf s = dataOf u := by rw [dataOf, dataOf, ← hdlen]; exact memRead_congr hdin
  have hrun := exec_encrypt_of_ready hu
  rw [← ekey, ← enonce, ← ead, ← edata, ← hdlen] at hrun
  refine ⟨_, _, exec_encrypt_of_ready hs, hrun, rfl, rfl, rfl, fun i hi => ?_⟩
  exact read?_writeBytes_congr s.dout u.dout _ (by rwa [aeadEncrypt_length, dataOf, memRead_length])

end Sys2Proof.Proofs.Memory
end

section
/-! SUPPORT. The host's accesses to the spaces: what a read returns, what a write stores, and where the machine stops
(20_memory.md R60, R61, R69; 30_encoding.md R97). -/

namespace Sys2Proof.Machine

/-! ## Host reads (20_memory.md R69, 10_state.md R23, R28 to R37) -/

theorem not_write_command_wait_of_isHostRead {a : HostAction} (h : isHostRead a = true) :
    isHostWrite a = false ∧ isCommand a = false ∧ a ≠ .wait := by
  cases a with
  | rd8 | rd32 | rdWord | rdByte | rdBytes | rdResult => exact ⟨rfl, rfl, nofun⟩
  | wr8 | wr32 | wrWord | wrByte | wrBytes | command | begin | wait => cases h

theorem hostAction_read {a : HostAction} {s t : State} (ha : isHostRead a = true) (h : hostAction a s = .next t) :
    ∃ o, t = note o s := by
  obtain ⟨hwrite, hcommand, hwait⟩ := not_write_command_wait_of_isHostRead ha
  obtain ⟨b, rfl | rfl, -⟩ | ⟨b, rfl, -⟩ | ⟨rfl, -⟩ | ⟨-, hnote⟩ | ⟨hw, -⟩ := hostAction_cases h
  · cases hcommand
  · cases hcommand
  · cases hcommand
  · exact absurd rfl hwait
  · exact hnote
  · rw [hwrite] at hw
    cases hw

section
variable {s : State} (hb : s.busy = false)
include hb

theorem readByte_of_idle {sp : Space} {i : Nat} (h : sp = .dout ∨ i < spaceSize s sp) :
    readByte sp i s = .next (note (.bytes sp i [byteAtRest s sp i]) s) := by
  have hexists : sp = .dout ∨ byteExists s sp i = true := h.imp_right decide_eq_true
  rw [readByte, hb, if_neg Bool.false_ne_true, if_pos hexists, hostByte_eq]

theorem readFromStart_of_idle {sp : Space} {n : Nat} (h : sp = .dout ∨ n ≤ spaceSize s sp) :
    readFromStart sp n s = .next (note (.bytes sp 0 ((List.range n).map (byteAtRest s sp))) s) := by
  rw [readFromStart, hb, if_neg Bool.false_ne_true, if_pos h, hostBytes, funext (hostByte_eq s sp)]

/-- The bytes of the result lie below `OLEN`, and none of them is gated. -/
theorem readResult_of_idle :
    readResult s =
      if s.err = 0 then note (.bytes .dout 0 ((List.range s.olen.toNat).map (storedByte s .dout))) s
      else note (.reg8 .status s.status) s := by
  have hbytes : hostBytes s .dout s.olen.toNat = (List.range s.olen.toNat).map (storedByte s .dout) :=
    List.map_congr_left fun i hi => by rw [hostByte_eq]; exact if_pos (List.mem_range.mp hi)
  rw [readResult, hb, hbytes]
  by_cases herr : s.err = 0 <;> simp [herr]

theorem hostAction_read_of_idle {a : HostAction} (ha : isHostRead a = true) (h : readExists s a) :
    hostAction a s = .next { s with observed := seenAtRest s a ++ s.observed } := by
  cases a with
  | rd8 r => simp only [hostAction, readReg8, hb]; cases r <;> rfl
  | rd32 r => simp only [hostAction, readReg32, hb]; cases r <;> rfl
  | rdWord i => simp only [hostAction, readWord, hb]; rfl
  | rdByte sp i => exact readByte_of_idle hb h
  | rdBytes sp n => exact readFromStart_of_idle hb h
  | rdResult =>
    simp only [hostAction, readResult_of_idle hb, seenAtRest]
    split <;> rfl
  | wr8 | wr32 | wrWord | wrByte | wrBytes | command | begin | wait => cases ha

end

/-! ## Where the machine stops (20_memory.md R60; log 6) -/

/-- The host action asks for a byte that the space does not have; every byte of `DOUT` can be read (10_state.md R37). -/
inductive AsksAbsent (s : State) : HostAction → Space → Nat → Prop
  | wrByte {sp : Space} {i : Nat} (v : Byte) (h : spaceSize s sp ≤ i) : AsksAbsent s (.wrByte sp i v) sp i
  | rdByte {sp : Space} {i : Nat} (hsp : sp ≠ .dout) (h : spaceSize s sp ≤ i) : AsksAbsent s (.rdByte sp i) sp i
  | rdBytes {sp : Space} {n : Nat} (hsp : sp ≠ .dout) (h : spaceSize s sp < n) :
    AsksAbsent s (.rdBytes sp n) sp (spaceSize s sp)

theorem commandWrite_next (b : Byte) (s : State) : ∃ t, commandWrite b s = .next t := by
  unfold commandWrite
  split
  · exact ⟨s, rfl⟩
  · split
    · next i _ => exact (exec_eq_reached i s).imp fun _ h => h.1
    · exact ⟨_, rfl⟩

/-- A host action answers a next state, or the block is idle and the action asks for an absent byte. -/
theorem hostAction_next_or_fault (a : HostAction) (s : State) :
    (∃ t, hostAction a s = .next t)
      ∨ s.busy = false ∧ ∃ sp i, hostAction a s = .fault (.noSuchByte sp i) ∧ AsksAbsent s a sp i := by
  cases a with
  | wr8 r v =>
    cases r with
    | cmd => exact .inl (commandWrite_next v s)
    | status | klen | nlen => exact .inl ⟨_, rfl⟩
  | command b => exact .inl (commandWrite_next b s)
  | wr32 | wrWord | wrBytes | begin | wait | rd8 | rd32 | rdWord | rdResult => exact .inl ⟨_, rfl⟩
  | wrByte sp i v =>
    simp only [hostAction, writeByte, byteExists, decide_eq_true_eq]
    split_ifs with hb hi
    · exact .inl ⟨_, rfl⟩
    · exact .inl ⟨_, rfl⟩
    · exact .inr ⟨Bool.not_eq_true _ ▸ hb, sp, i, rfl, .wrByte v (Nat.not_lt.mp hi)⟩
  | rdByte sp i =>
    simp only [hostAction, readByte, byteExists, decide_eq_true_eq]
    split_ifs with hb hi
    · exact .inl ⟨_, rfl⟩
    · exact .inl ⟨_, rfl⟩
    · obtain ⟨hsp, hi⟩ := not_or.mp hi
      exact .inr ⟨Bool.not_eq_true _ ▸ hb, sp, i, rfl, .rdByte hsp (Nat.not_lt.mp hi)⟩
  | rdBytes sp n =>
    simp only [hostAction, readFromStart]
    split_ifs with hb hn
    · exact .inl ⟨_, rfl⟩
    · exact .inl ⟨_, rfl⟩
    · obtain ⟨hsp, hn⟩ := not_or.mp hn
      exact .inr ⟨Bool.not_eq_true _ ▸ hb, sp, _, rfl, .rdBytes hsp (Nat.not_le.mp hn)⟩

/-- A step answers a next state, or an idle block's host asks for an absent byte. -/
theorem step_next_or_fault (s : State) :
    (∃ t, step s = .next t)
      ∨ s.busy = false ∧ ∃ a sp i, s.agenda.head? = some (.host a) ∧ step s = .fault (.noSuchByte sp i)
          ∧ AsksAbsent s a sp i := by
  cases hs : s.agenda with
  | nil => exact .inl ⟨_, step_nil hs⟩
  | cons e rest =>
    rw [step_cons hs]
    cases e with
    | block => exact .inl ⟨_, rfl⟩
    | reset => exact .inl ⟨_, rfl⟩
    | host a =>
      obtain hnext | ⟨hb, sp, i, hfault, hasks⟩ := hostAction_next_or_fault a { s with agenda := rest }
      · exact .inl hnext
      · refine .inr ⟨hb, a, sp, i, rfl, hfault, ?_⟩
        cases hasks with
        | wrByte v h => exact .wrByte v h
        | rdByte hsp h => exact .rdByte hsp h
        | rdBytes hsp h => exact .rdBytes (s := s) hsp h

end Sys2Proof.Machine

namespace Sys2Proof.Proofs.Memory

open Sys2Proof.Machine

/-- Settles O45: a read that answers a next state is recorded and does nothing else (`hostAction_read`), and on an idle block
it answers one with the value it names (`hostAction_read_of_idle`). -/
theorem readsReturnTheirValueAndChangeNothing : Obligations.ReadsReturnTheirValueAndChangeNothing := by
  unfold Obligations.ReadsReturnTheirValueAndChangeNothing
  intro s a rest hagenda ha
  rw [step_cons hagenda]
  refine ⟨fun t ht => hostAction_read ha ht, fun hb hexists => ?_⟩
  have hexists' : readExists { s with agenda := rest } a := by cases a <;> exact hexists
  refine (hostAction_read_of_idle (s := { s with agenda := rest }) hb ha hexists').trans ?_
  cases a <;> rfl

/-- Settles O52: a command completes (`exec_eq_reached`), and a step that answers no next state is the access of an idle
block's host to an absent byte (`step_next_or_fault`). -/
theorem onlyAbsentBytesStop : Obligations.OnlyAbsentBytesStop := by
  unfold Obligations.OnlyAbsentBytesStop
  intro s
  refine ⟨?_, fun i => (exec_eq_reached i s).imp fun _ h => h.1, ?_⟩
  · intro r hr
    obtain ⟨t, ht⟩ | ⟨-, a, sp, i, -, hfault, -⟩ := step_next_or_fault s
    · cases ht.symm.trans hr
    · cases hfault.symm.trans hr
  · intro f hf
    obtain ⟨t, ht⟩ | ⟨hb, a, sp, i, ha, hfault, hasks⟩ := step_next_or_fault s
    · cases ht.symm.trans hf
    · cases hfault.symm.trans hf
      refine ⟨hb, sp, i, rfl, ?_⟩
      cases hasks with
      | wrByte v h => exact ⟨h, .inl ⟨v, ha⟩⟩
      | rdByte hsp h => exact ⟨h, .inr ⟨hsp, .inl ha⟩⟩
      | rdBytes hsp h => exact ⟨le_rfl, .inr ⟨hsp, .inr ⟨_, rfl, h, ha⟩⟩⟩

end Sys2Proof.Proofs.Memory
end

section
/-! SUPPORT. What a host write stores, and that it reads back (20_memory.md R60, R61, 30_encoding.md R97). -/

namespace Sys2Proof.Machine

/-- Bytes stored inside a register file: the stored byte inside the range, the old byte outside. -/
theorem overwrite_getElem? {n : Nat} {v : Vector Byte n} {i : Nat} {bs : List Byte} (h : i + bs.length ≤ n) (j : Nat) :
    (overwrite v i bs)[j]? = if i ≤ j ∧ j < i + bs.length then bs[j - i]? else v[j]? := by
  induction bs generalizing v i with
  | nil => rw [overwrite, if_neg (by simp)]
  | cons b rest ih =>
    rw [List.length_cons] at h ⊢
    rw [overwrite, ih (by omega), Vector.getElem?_setIfInBounds]
    by_cases hij : i = j
    · subst hij
      rw [if_neg (by omega), if_pos rfl, if_pos (by omega), if_pos (by omega), Nat.sub_self, List.getElem?_cons_zero]
    · rw [if_neg hij]
      by_cases hin : i + 1 ≤ j ∧ j < i + 1 + rest.length
      · rw [if_pos hin, if_pos (by omega), show j - i = j - (i + 1) + 1 by omega, List.getElem?_cons_succ]
      · rw [if_neg hin, if_neg (by omega)]

/-- Inside the stored range there is a byte at every index, and the default does not matter. -/
theorem getD_stored {i j : Nat} {bs : List Byte} {o : Option Byte} (d : Byte) :
    (if i ≤ j ∧ j < i + bs.length then bs[j - i]? else o).getD d =
      if i ≤ j ∧ j < i + bs.length then bs.getD (j - i) 0 else o.getD d := by
  split
  · rw [List.getD_eq_getElem?_getD, List.getElem?_eq_getElem (by omega)]
    rfl
  · rfl

theorem overwrite_getD {n : Nat} {v : Vector Byte n} {i : Nat} {bs : List Byte} (h : i + bs.length ≤ n) (j : Nat) :
    (overwrite v i bs).toList.getD j 0 =
      if i ≤ j ∧ j < i + bs.length then bs.getD (j - i) 0 else v.toList.getD j 0 := by
  have hread (w : Vector Byte n) : w.toList.getD j 0 = w[j]?.getD 0 := by
    rw [List.getD_eq_getElem?_getD, Vector.getElem?_toList]
  rw [hread, hread, overwrite_getElem? h, getD_stored]

theorem writeBytes_getD (m : Memory) (i : Nat) (bs : List Byte) (j : Nat) (d : Byte) :
    (Memory.read? (Memory.writeBytes m i bs) j).getD d =
      if i ≤ j ∧ j < i + bs.length then bs.getD (j - i) 0 else (Memory.read? m j).getD d := by
  rw [Memory.read?_writeBytes, getD_stored]

section
variable {s : State} {sp : Space} {i : Nat} {bs : List Byte}

/-- A read of a space after a store into it. -/
theorem storedByte_storeBytes_same (hsp : sp ≠ .dout) (h : i + bs.length ≤ spaceSize s sp) (j : Nat) :
    storedByte (storeBytes sp i bs s) sp j =
      if i ≤ j ∧ j < i + bs.length then bs.getD (j - i) 0 else storedByte s sp j := by
  cases sp with
  | key | nonce => exact overwrite_getD h j
  | ad | din => exact writeBytes_getD ..
  | dout => exact absurd rfl hsp

/-- A read of another space. -/
theorem storedByte_storeBytes_other {sp' : Space} (hsp : sp' ≠ sp) (j : Nat) :
    storedByte (storeBytes sp i bs s) sp' j = storedByte s sp' j := by
  cases sp with
  | key =>
    cases sp' with
    | key => exact absurd rfl hsp
    | nonce | ad | din | dout => rfl
  | nonce =>
    cases sp' with
    | nonce => exact absurd rfl hsp
    | key | ad | din | dout => rfl
  | ad =>
    cases sp' with
    | ad => exact absurd rfl hsp
    | key | nonce | din | dout => rfl
  | din =>
    cases sp' with
    | din => exact absurd rfl hsp
    | key | nonce | ad | dout => rfl
  | dout => rfl

/-- Outside the stored range every byte of every space reads as before (20_memory.md R60). -/
theorem hostByte_storeBytes_outside (hsp : sp ≠ .dout) (h : i + bs.length ≤ spaceSize s sp) {sp' : Space} {j : Nat}
    (hout : sp' ≠ sp ∨ ¬(i ≤ j ∧ j < i + bs.length)) :
    hostByte (storeBytes sp i bs s) sp' j = hostByte s sp' j := by
  have holen : (storeBytes sp i bs s).olen = s.olen := by rw [storeBytes_eq]
  have hstored : storedByte (storeBytes sp i bs s) sp' j = storedByte s sp' j := by
    by_cases hsame : sp' = sp
    · subst hsame
      rw [storedByte_storeBytes_same hsp h, if_neg (hout.resolve_left (· rfl))]
    · exact storedByte_storeBytes_other hsame j
  rw [hostByte, hostByte, hstored, holen]

/-- Inside the stored range the stored bytes are read back. -/
theorem hostByte_storeBytes_inside (hsp : sp ≠ .dout) (h : i + bs.length ≤ spaceSize s sp) {j : Nat}
    (hin : j < bs.length) : hostByte (storeBytes sp i bs s) sp (i + j) = bs[j] := by
  rw [hostByte, if_neg fun hd => hsp hd.1, storedByte_storeBytes_same hsp h, if_pos (by omega), Nat.add_sub_cancel_left,
    List.getD_eq_getElem?_getD, List.getElem?_eq_getElem hin]
  rfl

theorem hostBytes_storeBytes (hsp : sp ≠ .dout) (h : bs.length ≤ spaceSize s sp) :
    hostBytes (storeBytes sp 0 bs s) sp bs.length = bs := by
  refine List.ext_getElem (by simp [hostBytes]) fun j _ hj => ?_
  have hread := hostByte_storeBytes_inside (s := s) (i := 0) hsp ((Nat.zero_add _).trans_le h) hj
  rw [Nat.zero_add] at hread
  simpa [hostBytes] using hread

end

/-! ## Host writes on an idle block -/

section
variable {s : State} (hb : s.busy = false)
include hb

theorem hostAction_wrBytes_of_idle (sp : Space) (bs : List Byte) :
    hostAction (.wrBytes sp bs) s = .next (storeBytes sp 0 (bs.take (spaceSize s sp)) s) := by
  rw [hostAction, writeFromStart, hb]
  rfl

theorem hostAction_wrByte_of_idle {sp : Space} {i : Nat} (h : i < spaceSize s sp) (v : Byte) :
    hostAction (.wrByte sp i v) s = .next (storeBytes sp i [v] s) := by
  have hexists : byteExists s sp i = true := decide_eq_true h
  rw [hostAction, writeByte, hb, hexists]
  rfl

end

end Sys2Proof.Machine

namespace Sys2Proof.Proofs.Memory

open Sys2Proof.Machine

/-- Settles O48: on an idle block a host write is a store (`storeBytes`) of as many bytes as the space has, the stored bytes
are read back (`hostByte_storeBytes_inside`) and no other byte is touched (`hostByte_storeBytes_outside`). -/
theorem hostBytesReadBack : Obligations.HostBytesReadBack := by
  unfold Obligations.HostBytesReadBack
  rintro s sp ⟨hb, -⟩
  refine ⟨fun bs hsp hfits => ?_, fun i v hsp hi => ?_, fun bs _ => ?_, ?_⟩
  · have hroom : 0 + bs.length ≤ spaceSize s sp := (Nat.zero_add _).trans_le hfits
    refine ⟨storeBytes sp 0 bs s, ?_, hostBytes_storeBytes hsp hfits, fun sp' i hout => ?_, storeBytes_eq ..⟩
    · rw [hostAction_wrBytes_of_idle hb, List.take_of_length_le hfits]
    · exact hostByte_storeBytes_outside hsp hroom (hout.imp_right (by omega))
  · have hroom : i + [v].length ≤ spaceSize s sp := hi
    refine ⟨storeBytes sp i [v] s, hostAction_wrByte_of_idle hb hi v, ?_, fun sp' j hout => ?_, storeBytes_eq ..⟩
    · exact hostByte_storeBytes_inside (j := 0) hsp hroom Nat.zero_lt_one
    · exact hostByte_storeBytes_outside hsp hroom (hout.imp_right fun hj => by rw [List.length_singleton]; omega)
  · rw [hostAction_wrBytes_of_idle hb, hostAction_wrBytes_of_idle hb, List.take_take, Nat.min_self]
  · rintro rfl
    exact ⟨hostAction_wrBytes_of_idle hb .dout, fun i v hi => hostAction_wrByte_of_idle hb hi v⟩

end Sys2Proof.Proofs.Memory
end

section
/-! SUPPORT. The decoder against the encoder (30_encoding.md R90 to R95), and the bytes that are rejected: a reserved `OP` and an
illegal `ARG` (R95, R96). -/

namespace Sys2Proof.Machine

/-! ## The fields of the command byte (30_encoding.md R90, R91) -/

@[simp] theorem opField_encodeByte (i : Instr) : opField (encodeByte i) = opCode i := by
  cases i with
  | encrypt arg => exact (Laws.CommandByte.encrypt arg).1
  | decrypt arg => exact (Laws.CommandByte.decrypt arg).1
  | hash arg => exact (Laws.CommandByte.hash arg).1
  | permute n => exact (Laws.CommandByte.permute n).1

@[simp] theorem argField_encodeByte (i : Instr) : argField (encodeByte i) = argCode i := by
  cases i with
  | encrypt arg => exact (Laws.CommandByte.encrypt arg).2.1
  | decrypt arg => exact (Laws.CommandByte.decrypt arg).2.1
  | hash arg => exact (Laws.CommandByte.hash arg).2.1
  | permute n => exact (Laws.CommandByte.permute n).2.1

@[simp] theorem decodeByte_encodeByte (i : Instr) : decodeByte (encodeByte i) = some i := by
  rw [decodeByte, opField_encodeByte, argField_encodeByte]
  cases i <;> rfl

theorem opCode_mem (i : Instr) : opCode i ∈ [1#4, 2#4, 3#4, 4#4] := by
  cases i <;> simp [opCode]

/-- A byte selects no command exactly when its `OP` is reserved (30_encoding.md R95). -/
theorem decodeByte_eq_none_iff {b : Byte} : decodeByte b = none ↔ opField b ∉ [1#4, 2#4, 3#4, 4#4] := by
  constructor
  · intro h
    simp only [decodeByte] at h
    split_ifs at h with h1 h2 h3 h4
    simp [h1, h2, h3, h4]
  · intro h
    cases hd : decodeByte b with
    | none => rfl
    | some i =>
      rw [← encodeByte_of_decodeByte hd, opField_encodeByte] at h
      exact absurd (opCode_mem i) h

/-! ## Commands that are rejected (30_encoding.md R95, R96) -/

/-- On an idle block an error changes the report and the stored byte alone (60_exceptions.md R236, R237). -/
theorem raiseError_accept_of_idle {s : State} (h : s.job = none) (e : ErrorKind) (b : Byte) :
    raiseError e (accept b s) = { s with cmd := b, status := errCode e ++ 0x2#4, olen := 0 } := by
  rw [raiseError_accept, statusError_eq, ← h]

theorem commandWrite_of_reserved {b : Byte} {s : State} (hb : s.busy = false) (h : opField b ∉ [1#4, 2#4, 3#4, 4#4]) :
    commandWrite b s = .next (illegalCommand b s) := by
  rw [commandWrite, hb, decodeByte_eq_none_iff.mpr h]
  rfl

theorem validateAead_of_illegal {arg : BitVec 4} (h : 3 ≤ arg.toNat) (dir : Direction) (s : State) :
    validateAead dir arg s = .error .invalidVariant := by
  rw [validateAead, aeadVariant?_none.mpr h]

theorem validateHash_of_illegal {arg : BitVec 4} (h : 4 ≤ arg.toNat) (s : State) :
    validateHash arg s = .error .invalidHashVariant := by
  rw [validateHash, hashVariant?_none.mpr h]

section
variable {arg : BitVec 4} {s : State} {e : ErrorKind}

/-- A command whose validation fails raises that error. -/
theorem exec_encrypt_of_error (h : validateAead .encrypt arg (accept (encodeByte (.encrypt arg)) s) = .error e) :
    exec (.encrypt arg) s = .next (raiseError e (accept (encodeByte (.encrypt arg)) s)) := by
  obtain ⟨e', he, hexec⟩ | ⟨v, hv, -⟩ := execEncrypt_cases arg s
  · cases he.symm.trans h
    exact hexec
  · cases hv.symm.trans h

theorem exec_decrypt_of_error (h : validateAead .decrypt arg (accept (encodeByte (.decrypt arg)) s) = .error e) :
    exec (.decrypt arg) s = .next (raiseError e (accept (encodeByte (.decrypt arg)) s)) := by
  obtain ⟨e', he, hexec⟩ | ⟨v, hv, -⟩ := execDecrypt_cases arg s
  · cases he.symm.trans h
    exact hexec
  · cases hv.symm.trans h

theorem exec_hash_of_error (h : validateHash arg (accept (encodeByte (.hash arg)) s) = .error e) :
    exec (.hash arg) s = .next (raiseError e (accept (encodeByte (.hash arg)) s)) := by
  obtain ⟨e', he, hexec⟩ | ⟨v, hv, -⟩ := execHash_cases arg s
  · cases he.symm.trans h
    exact hexec
  · cases hv.symm.trans h

end

theorem exec_permute_of_illegal {n : BitVec 4} (h : n.toNat = 0 ∨ 13 ≤ n.toNat) (s : State) :
    exec (.permute n) s = .next (raiseError .invalidRounds (accept (encodeByte (.permute n)) s)) := by
  obtain ⟨-, hexec⟩ | ⟨hlo, hhi, -⟩ := execPermute_cases n s
  · exact hexec
  · omega

end Sys2Proof.Machine

namespace Sys2Proof.Proofs.Encoding

open Sys2Proof.Machine

/-- Settles O1: the fields of a command's byte are its `OP` and its `ARG` (`decodeByte_encodeByte`). -/
theorem decodeOfEncode : Obligations.DecodeOfEncode := by
  unfold Obligations.DecodeOfEncode
  intro i rest
  simp only [encode, List.singleton_append, decode, decodeByte_encodeByte]

/-- Settles O2: a byte that decodes is the byte of its command (`encodeByte_of_decodeByte`); one that does not has a
reserved `OP` (`decodeByte_eq_none_iff`). -/
theorem everyByteHasOneReading : Obligations.EveryByteHasOneReading := by
  unfold Obligations.EveryByteHasOneReading
  intro b rest
  cases hd : decodeByte b with
  | none => exact .inr ⟨decodeByte_eq_none_iff.mp hd, by simp only [decode, hd]⟩
  | some i =>
    have hbyte := encodeByte_of_decodeByte hd
    refine .inl ⟨?_, i, by simp only [decode, hd], hbyte⟩
    rw [← hbyte, opField_encodeByte]
    exact opCode_mem i

/-- Settles O3: the decoder run on each of the ten bytes. -/
theorem tableBytesDecode : Obligations.TableBytesDecode := by
  unfold Obligations.TableBytesDecode
  decide

/-- Settles O5: a byte with a reserved `OP` selects no command, and the error changes the report and `CMD` alone. -/
theorem reservedOpIsIllegalCommand : Obligations.ReservedOpIsIllegalCommand := by
  unfold Obligations.ReservedOpIsIllegalCommand
  rintro s b a rest ha hagenda ⟨hb, hjob⟩ hop
  have hwrite : commandWrite b { s with agenda := rest } = .next (illegalCommand b { s with agenda := rest }) :=
    commandWrite_of_reserved hb hop
  rw [illegalCommand, raiseError_accept_of_idle (s := { s with agenda := rest }) hjob] at hwrite
  rw [step_cons hagenda]
  obtain rfl | rfl := ha
  · exact hwrite
  · exact hwrite

/-- Settles O6: an illegal `ARG` fails the first check of its command, and the error changes the report and `CMD` alone. -/
theorem illegalArgumentsRaiseTheirError : Obligations.IllegalArgumentsRaiseTheirError := by
  unfold Obligations.IllegalArgumentsRaiseTheirError
  rintro s arg ⟨-, hjob⟩
  refine ⟨fun h => ⟨?_, ?_⟩, fun h => ?_, fun h => ?_⟩
  · rw [exec_encrypt_of_error (validateAead_of_illegal h _ _), raiseError_accept_of_idle hjob]
    rfl
  · rw [exec_decrypt_of_error (validateAead_of_illegal h _ _), raiseError_accept_of_idle hjob]
    rfl
  · rw [exec_hash_of_error (validateHash_of_illegal h _), raiseError_accept_of_idle hjob]
    rfl
  · rw [exec_permute_of_illegal h, raiseError_accept_of_idle hjob]
    rfl

end Sys2Proof.Proofs.Encoding
end

section
/-! SUPPORT. `DecryptData` inverts `EncryptData` (41_aead.md R157 to R163), and so `DECRYPT` inverts `ENCRYPT` (R167). -/

namespace Sys2Proof.Machine

theorem bytes8_xor (x y : Word) : bytes8 (x ^^^ y) = xorBytes (bytes8 x) (bytes8 y) := by
  simp [bytes8, xorBytes, List.zipWith_map, List.zipWith_self, BitVec.extractLsb'_xor]

theorem xorBytes_append {x y : List Byte} (h : x.length = y.length) (x' y' : List Byte) :
    xorBytes (x ++ x') (y ++ y') = xorBytes x y ++ xorBytes x' y' :=
  List.zipWith_append h

theorem xorBytes_xorBytes {R v : List Byte} (h : v.length ≤ R.length) : xorBytes R (xorBytes R v) = v := by
  refine List.ext_getElem (by simp [h]) fun i _ _ => ?_
  simp only [xorBytes, List.getElem_zipWith, ← BitVec.xor_assoc, BitVec.xor_self, BitVec.zero_xor]

theorem xorBytes_take (R v : List Byte) (l : Nat) : (xorBytes R v).take l = xorBytes R (v.take l) := by
  refine List.ext_getElem? fun i => ?_
  simp only [xorBytes, List.getElem?_take, List.getElem?_zipWith]
  split <;> simp

theorem xorBytes_zeros (x : List Byte) : xorBytes x (zeros x.length) = x :=
  List.ext_getElem (by simp) fun i _ _ => by simp [xorBytes, zeros]

/-- The rate bytes after a block is XORed in (41_aead.md R157). -/
theorem ratebytes_xorRate (S : Words5) {rate : Rate} {v : List Byte} (h : v.length = rateLen rate) :
    ratebytes (xorRate S rate v) rate = xorBytes (ratebytes S rate) v := by
  cases rate with
  | r8 =>
    have hv : slice v 0 8 = v := List.take_of_length_le h.le
    simp only [ratebytes, xorRate, hv, bytes8_xor]
    rw [bytes8_be64 h]
  | r16 =>
    have hv : slice v 0 8 ++ slice v 8 16 = v := by
      rw [slice, slice, List.drop_zero, List.take_of_length_le (l := v.drop 8) (by simp [h, rateLen])]
      exact List.take_append_drop 8 v
    conv_rhs => rw [← hv]
    simp only [ratebytes, xorRate, bytes8_xor]
    rw [xorBytes_append (by simp [h, rateLen]), bytes8_be64 (by simp [h, rateLen]), bytes8_be64 (by simp [h, rateLen])]

/-- Storing the rate bytes of a state with a block XORed in is XORing it in. -/
theorem setrate_ratebytes_xorRate (S : Words5) (rate : Rate) (v : List Byte) :
    setrate S rate (ratebytes (xorRate S rate v) rate) = xorRate S rate v := by
  cases rate <;> simp [setrate, ratebytes, slice, xorRate, List.take_of_length_le]

/-- The tail's rate bytes are the old ones with the padded last block XORed in (41_aead.md R162). -/
theorem tailRate_xorBytes {R M : List Byte} {rate : Rate} (hR : R.length = rateLen rate) (hM : M.length < rateLen rate) :
    tailRate R (xorBytes R M) = xorBytes R (pad M rate) := by
  obtain ⟨x, y, z, rfl, hx⟩ : ∃ x y z, R = x ++ y :: z ∧ x.length = M.length :=
    ⟨R.take M.length, R[M.length], R.drop (M.length + 1), by simp, by simp [hR, hM.le]⟩
  have hz : rateLen rate - M.length % rateLen rate - 1 = z.length := by
    rw [Nat.mod_eq_of_lt hM, ← hR, List.length_append, List.length_cons, hx]
    omega
  have hxor : xorBytes (x ++ y :: z) M = xorBytes x M := by
    rw [← List.append_nil M, xorBytes_append hx, List.append_nil]
    exact List.append_nil _
  have hlen : (xorBytes x M).length = x.length := by rw [xorBytes_length, ← hx, Nat.min_self]
  calc tailRate (x ++ y :: z) (xorBytes (x ++ y :: z) M)
      = xorBytes x M ++ (y ^^^ 0x80) :: z := by simp [hxor, tailRate, hlen, List.drop_append]
    _ = xorBytes x M ++ xorBytes (y :: z) (0x80 :: zeros z.length) := by
      conv_lhs => rw [← xorBytes_zeros z]
      rfl
    _ = xorBytes (x ++ y :: z) (pad M rate) := by rw [pad, hz, xorBytes_append hx]

theorem pad_drop {M : List Byte} {rate : Rate} (h : rateLen rate ≤ M.length) :
    (pad M rate).drop (rateLen rate) = pad (M.drop (rateLen rate)) rate := by
  rw [pad, List.drop_append_of_le_length h, pad, List.length_drop, ← Nat.mod_eq_sub_mod h]

theorem pad_take {M : List Byte} {rate : Rate} (h : rateLen rate ≤ M.length) :
    (pad M rate).take (rateLen rate) = M.take (rateLen rate) := by
  rw [pad, List.take_append_of_le_length h]

/-- Block by block: an interior block gives its plaintext and the same rate words (41_aead.md R157, R159), and so does the
tail (R158, R161, R162). -/
theorem decryptBlocks_encryptBlocks (b : Nat) (rate : Rate) (n : Nat) {M : List Byte} (hn : M.length / rateLen rate = n)
    (S : Words5) :
    let e := encryptBlocks b rate (M.length % rateLen rate) n (pad M rate) S
    decryptBlocks b rate n e.2 S = (e.1, M) := by
  induction n generalizing M S with
  | zero =>
    have hlt : M.length < rateLen rate := (Nat.div_eq_zero_iff_lt (rateLen_pos rate)).mp hn
    have hpad : (pad M rate).length = rateLen rate := by rw [pad_length, hn, Nat.zero_add, Nat.one_mul]
    have hct : (ratebytes (xorRate S rate (pad M rate)) rate).take M.length = xorBytes (ratebytes S rate) M := by
      rw [ratebytes_xorRate S hpad, xorBytes_take, pad_take_length]
    simp only [encryptBlocks, decryptBlocks, Nat.mod_eq_of_lt hlt, List.take_of_length_le hpad.le, hct]
    rw [tailRate_xorBytes (ratebytes_length S rate) hlt, ← ratebytes_xorRate S hpad, setrate_ratebytes_xorRate,
      xorBytes_xorBytes (by rw [ratebytes_length]; exact hlt.le)]
  | succ n ih =>
    have hle : rateLen rate ≤ M.length := by
      by_contra hlt
      rw [Nat.div_eq_of_lt (Nat.not_le.mp hlt)] at hn
      omega
    have htake : (M.take (rateLen rate)).length = rateLen rate := by rw [List.length_take, Nat.min_eq_left hle]
    have hdiv : (M.drop (rateLen rate)).length / rateLen rate = n := by
      rw [Nat.div_eq_sub_div (rateLen_pos rate) hle] at hn
      rw [List.length_drop]
      omega
    have hrest := ih (M := M.drop (rateLen rate)) hdiv (perm b (xorRate S rate (M.take (rateLen rate))))
    rw [List.length_drop, ← Nat.mod_eq_sub_mod hle] at hrest
    simp only [encryptBlocks, decryptBlocks, pad_take hle, pad_drop hle, List.take_left' (ratebytes_length _ _),
      List.drop_left' (ratebytes_length _ _), setrate_ratebytes_xorRate, hrest]
    rw [ratebytes_xorRate S htake, xorBytes_xorBytes (by rw [htake, ratebytes_length]), List.take_append_drop]

/-- `DecryptData` gives back what `EncryptData` encrypted, and ends in the same state (41_aead.md R163). -/
theorem decryptData_encryptData (b : Nat) (rate : Rate) (M : List Byte) (S : Words5) :
    decryptData b rate (encryptData b rate M S).2 S = ((encryptData b rate M S).1, M) := by
  rw [decryptData, encryptData_length]
  exact decryptBlocks_encryptBlocks b rate _ rfl S

/-- `DECRYPT` of the ciphertext of an `ENCRYPT` computes the plaintext and the same tag (41_aead.md R167). -/
theorem aeadDecrypt_aeadEncrypt (v : AeadVariant) (K N A M : List Byte) :
    aeadDecrypt v K N A ((aeadEncrypt v K N A M).take M.length) = (M, (aeadEncrypt v K N A M).drop M.length) := by
  simp only [aeadEncrypt, aeadDecrypt, List.take_left' (encryptData_length ..), List.drop_left' (encryptData_length ..),
    decryptData_encryptData]

end Sys2Proof.Machine
end

section
/-! SUPPORT. The host scripts to their end: the lines that hand over the inputs, then the command, `WAIT` and the last line
(30_encoding.md R97, R98). -/

namespace Sys2Proof.Machine

/-! ## Engine commands that succeed -/

/-- A `DECRYPT` that passes its checks and finds the received tag completes with the plaintext in `DOUT` (41_aead.md
R167). -/
theorem exec_decrypt_of_authentic {arg : BitVec 4} {v : AeadVariant} {s : State} {r : List Byte × List Byte}
    (h : DecryptReady arg v s) (hr : aeadDecrypt v (keyOf s v) (nonceOf s) (adOf s) (ciphertextOf s) = r)
    (htag : r.2 = receivedTag s) :
    exec (.decrypt arg) s =
      .next (finishEngine (s.dlen.toNat - 16) (writeDout (accept (encodeByte (.decrypt arg)) s) 0 r.1)) := by
  have hvalid := decryptReady_iff (b := encodeByte (.decrypt arg)).mp h
  obtain ⟨e, he, -⟩ | ⟨w, hw, r', hr', hend⟩ := execDecrypt_cases arg s
  · cases he.symm.trans hvalid
  · cases hw.symm.trans hvalid
    cases hr'.trans hr
    obtain ⟨-, hexec⟩ | ⟨hne, -⟩ := hend
    · exact hexec
    · exact absurd htag hne

/-- A `HASH` that passes its checks completes with the digest in `DOUT` (42_hash_xof.md R200). -/
theorem exec_hash_of_ready {arg : BitVec 4} {v : HashVariant} {s : State} (h : HashReady arg v s) :
    exec (.hash arg) s =
      .next (finishEngine (digestLen s v)
        (writeDout (accept (encodeByte (.hash arg)) s) 0 (digest v (digestLen s v) (dataOf s)))) := by
  have hvalid := hashReady_iff (b := encodeByte (.hash arg)).mp h
  obtain ⟨e, he, -⟩ | ⟨w, hw, hexec⟩ := execHash_cases arg s
  · cases he.symm.trans hvalid
  · cases hw.symm.trans hvalid
    exact hexec

theorem squeezeBlocks_length (b k : Nat) (S : Words5) : (squeezeBlocks b k S).length = 8 * k := by
  induction k generalizing S with
  | zero => rfl
  | succ k ih => rw [squeezeBlocks, List.length_append, bytes8_length, ih, Nat.mul_succ, Nat.add_comm]

@[simp] theorem digest_length (v : HashVariant) (n : Nat) (Msg : List Byte) : (digest v n Msg).length = n := by
  rw [digest, squeeze, List.length_take, squeezeBlocks_length]
  omega

/-! ## Lengths that a command rejects (60_exceptions.md R233, R238, R241) -/

theorem validateAead_of_wrongKey {dir : Direction} {arg : BitVec 4} {v : AeadVariant} {s : State}
    (hv : aeadVariant? arg = some v) (h : s.klen.toNat ≠ (aeadParams v).klen) :
    validateAead dir arg s = .error .invalidKeyLength := by
  simp only [validateAead, hv, if_pos h]

theorem validateHash_of_wrongLength {arg : BitVec 4} {v : HashVariant} {s : State} (hv : hashVariant? arg = some v)
    (hfixed : (hashParams v).fixed = true) (h : s.hlen.toNat ≠ hashBytes) :
    validateHash arg s = .error .invalidHashLength := by
  simp only [validateHash, hv, if_pos (And.intro hfixed h)]

/-! ## The lines that hand over the inputs -/

@[simp] theorem busy_storeBytes (sp : Space) (i : Nat) (bs : List Byte) (s : State) :
    (storeBytes sp i bs s).busy = s.busy := by cases sp <;> rfl

@[simp] theorem busy_setReg8 (r : Reg8) (x : BitVec 8) (s : State) : (setReg8 r x s).busy = s.busy := by cases r <;> rfl

@[simp] theorem busy_setReg32 (r : Reg32) (x : BitVec 32) (s : State) : (setReg32 r x s).busy = s.busy := by
  cases r <;> rfl

section
variable {s : State} (hb : s.busy = false)
include hb

theorem runScript_wrBytes (sp : Space) (bs : List Byte) (lines : List HostAction) :
    runScript (.wrBytes sp bs :: lines) s = runScript lines (storeBytes sp 0 (bs.take (spaceSize s sp)) s) :=
  runScript_cons (hostAction_wrBytes hb sp bs) lines

theorem runScript_wr8 {r : Reg8} (hr : r ≠ .cmd) (x : BitVec 8) (lines : List HostAction) :
    runScript (.wr8 r x :: lines) s = runScript lines (setReg8 r x s) :=
  runScript_cons (hostAction_wr8 hb hr x) lines

theorem runScript_wr32 (r : Reg32) (x : BitVec 32) (lines : List HostAction) :
    runScript (.wr32 r x :: lines) s = runScript lines (setReg32 r x s) :=
  runScript_cons (hostAction_wr32 hb r x) lines

end

/-- The state after the host has handed over a key, a nonce, associated data and input data. -/
def handOver (K N A D : List Byte) (s : State) : State :=
  { s with
    key := overwrite s.key 0 (K.take 20), klen := reportLength 8 K.length,
    nonce := overwrite s.nonce 0 (N.take 16), nlen := reportLength 8 N.length,
    ad := Memory.writeBytes s.ad 0 (A.take s.caps.ad), adlen := reportLength 32 A.length,
    din := Memory.writeBytes s.din 0 (D.take s.caps.din), dlen := reportLength 32 D.length }

theorem runScript_loadLines {s : State} (hb : s.busy = false) (K N : List Byte) (A : Option (List Byte)) (D : List Byte)
    (lines : List HostAction) :
    runScript (loadLines K N A D ++ lines) s = runScript lines (handOver K N (A.getD []) D s) := by
  cases A <;>
    simp only [loadLines, List.cons_append, List.nil_append, runScript_wrBytes, runScript_wr8, runScript_wr32,
      busy_storeBytes, busy_setReg8, busy_setReg32, hb, ne_eq, reduceCtorEq, not_false_eq_true]
  case none =>
    simp only [handOver, Option.getD_none, List.take_nil, Memory.writeBytes_nil]
    rfl
  case some => rfl

/-- The last three lines of every script. -/
def commandLines (i : Instr) : List HostAction := [.command (encodeByte i), .wait, .rdResult]

/-- The state after the host has handed over a message and a length of the digest. -/
def handOverMessage (n : Nat) (Msg : List Byte) (s : State) : State :=
  { s with
    din := Memory.writeBytes s.din 0 (Msg.take s.caps.din), dlen := reportLength 32 Msg.length,
    hlen := reportLength 32 n }

theorem runScript_scriptHash {s : State} (hb : s.busy = false) (v : HashVariant) (n : Nat) (Msg : List Byte) :
    runScript (scriptHash v n Msg) s = runScript (commandLines (.hash (hashCode v))) (handOverMessage n Msg s) := by
  simp only [scriptHash, runScript_wrBytes, runScript_wr32, busy_storeBytes, busy_setReg32, hb]
  rfl

theorem reportLength_toNat (w n : Nat) : (reportLength w n).toNat = min n (2 ^ w - 1) := by
  have hpos : 0 < 2 ^ w := Nat.two_pow_pos w
  rw [reportLength, BitVec.toNat_ofNat, Nat.mod_eq_of_lt (by omega)]

theorem reportLength_of_lt {w n : Nat} (h : n < 2 ^ w) : (reportLength w n).toNat = n := by
  rw [reportLength_toNat]
  omega

/-- A wrong length is reported as a wrong length, also when the register cannot hold it (92_eei_decisions.md D26). -/
theorem reportLength_ne {w n k : Nat} (hk : k < 2 ^ w - 1) (h : n ≠ k) : (reportLength w n).toNat ≠ k := by
  rw [reportLength_toNat]
  omega

/-- A sequence that fits into its space is read back by the block. -/
theorem memRead_storeBytes {s : State} {sp : Space} {bs : List Byte} (hsp : sp ≠ .dout) (h : bs.length ≤ spaceSize s sp) :
    memRead (storeBytes sp 0 (bs.take (spaceSize s sp)) s) sp 0 bs.length = bs := by
  rw [List.take_of_length_le h]
  refine Eq.trans (List.map_congr_left fun i _ => ?_) (hostBytes_storeBytes hsp h)
  rw [Nat.zero_add, hostByte, if_neg fun hd => hsp hd.1]

/-! ## The inputs of an AEAD command (10_state.md R25, R26, R32, R33) -/

/-- The inputs of an AEAD command have the lengths of the variant and fit into their buffers. -/
structure InputsFit (s : State) (v : AeadVariant) (K N A D : List Byte) : Prop where
  legal : s.caps.Legal
  key : K.length = (aeadParams v).klen
  nonce : N.length = 16
  ad : A.length ≤ s.caps.ad
  din : D.length ≤ s.caps.din

theorem aeadVariant?_aeadCode (v : AeadVariant) : aeadVariant? (aeadCode v) = some v := by cases v <;> rfl

theorem hashVariant?_hashCode (v : HashVariant) : hashVariant? (hashCode v) = some v := by cases v <;> rfl

theorem klen_le (v : AeadVariant) : (aeadParams v).klen ≤ 20 := by cases v <;> decide

/-- The input data of `DECRYPT` are the ciphertext, then the tag (41_aead.md R151). -/
theorem ciphertextOf_eq_take (s : State) : ciphertextOf s = (dataOf s).take (s.dlen.toNat - 16) :=
  (memRead_take s .din 0 (Nat.sub_le _ _)).symm

theorem receivedTag_eq_drop {s : State} (h : 16 ≤ s.dlen.toNat) : receivedTag s = (dataOf s).drop (s.dlen.toNat - 16) := by
  rw [dataOf, memRead_drop, Nat.zero_add, Nat.sub_sub_self h]
  rfl

namespace InputsFit
variable {s : State} {v : AeadVariant} {K N A D : List Byte} (h : InputsFit s v K N A D)
include h

theorem adlen_eq : (handOver K N A D s).adlen.toNat = A.length := by
  obtain ⟨-, -, had, -, -⟩ := h.legal
  exact reportLength_of_lt (by have := h.ad; omega)

theorem dlen_eq : (handOver K N A D s).dlen.toNat = D.length := by
  obtain ⟨-, -, -, hdin, -⟩ := h.legal
  exact reportLength_of_lt (by have := h.din; omega)

theorem keyOf_eq : keyOf (handOver K N A D s) v = K := by
  have hread := memRead_storeBytes (s := s) (sp := .key) (bs := K) (by decide) (h.key.trans_le (klen_le v))
  rwa [h.key] at hread

theorem nonceOf_eq : nonceOf (handOver K N A D s) = N := by
  have hread := memRead_storeBytes (s := s) (sp := .nonce) (bs := N) (by decide) h.nonce.le
  rwa [h.nonce] at hread

theorem adOf_eq : adOf (handOver K N A D s) = A := by
  rw [adOf, h.adlen_eq]
  exact memRead_storeBytes (sp := .ad) (by decide) h.ad

theorem dataOf_eq : dataOf (handOver K N A D s) = D := by
  rw [dataOf, h.dlen_eq]
  exact memRead_storeBytes (sp := .din) (by decide) h.din

theorem encryptReady : EncryptReady (aeadCode v) v (handOver K N A D s) := by
  refine ⟨aeadVariant?_aeadCode v, ?_, ?_, h.adlen_eq.trans_le h.ad, h.dlen_eq.trans_le h.din⟩
  · exact (reportLength_of_lt (by have := h.key; have := klen_le v; omega)).trans h.key
  · exact (reportLength_of_lt (by have := h.nonce; omega)).trans h.nonce

theorem ciphertextOf_eq : ciphertextOf (handOver K N A D s) = D.take (D.length - 16) := by
  rw [ciphertextOf_eq_take, h.dataOf_eq, h.dlen_eq]

theorem receivedTag_eq (hD : 16 ≤ D.length) : receivedTag (handOver K N A D s) = D.drop (D.length - 16) := by
  rw [receivedTag_eq_drop (hD.trans_eq h.dlen_eq.symm), h.dataOf_eq, h.dlen_eq]

theorem withAgenda (es : List Event) : InputsFit { s with agenda := es } v K N A D :=
  ⟨h.legal, h.key, h.nonce, h.ad, h.din⟩

/-- The result of `ENCRYPT` has a length that `OLEN` can hold (00_scope.md R10). -/
theorem length_lt : D.length + 16 < 2 ^ 32 := by
  obtain ⟨-, -, -, hdin, -⟩ := h.legal
  have hfit := h.din
  omega

theorem exec_encrypt :
    exec (.encrypt (aeadCode v)) (handOver K N A D s) =
      .next (finishEngine (D.length + 16)
        (writeDout (accept (encodeByte (.encrypt (aeadCode v))) (handOver K N A D s)) 0 (aeadEncrypt v K N A D))) := by
  rw [exec_encrypt_of_ready h.encryptReady, h.keyOf_eq, h.nonceOf_eq, h.adOf_eq, h.dataOf_eq, h.dlen_eq, tagBytes]

/-- `DECRYPT` of what `ENCRYPT` gave releases the plaintext. -/
theorem exec_decrypt {M : List Byte} (hD : aeadEncrypt v K N A M = D) :
    exec (.decrypt (aeadCode v)) (handOver K N A D s) =
      .next (finishEngine M.length
        (writeDout (accept (encodeByte (.decrypt (aeadCode v))) (handOver K N A D s)) 0 M)) := by
  have hlen : D.length = M.length + 16 := hD ▸ aeadEncrypt_length v K N A M
  have hresult : aeadDecrypt v (keyOf (handOver K N A D s) v) (nonceOf (handOver K N A D s)) (adOf (handOver K N A D s))
      (ciphertextOf (handOver K N A D s)) = (M, D.drop M.length) := by
    rw [h.keyOf_eq, h.nonceOf_eq, h.adOf_eq, h.ciphertextOf_eq, hlen, Nat.add_sub_cancel, ← hD, aeadDecrypt_aeadEncrypt]
  have htag : D.drop M.length = receivedTag (handOver K N A D s) := by
    rw [h.receivedTag_eq (by omega), hlen, Nat.add_sub_cancel]
  have hready : DecryptReady (aeadCode v) v (handOver K N A D s) := ⟨h.encryptReady, by rw [h.dlen_eq]; omega⟩
  rw [exec_decrypt_of_authentic hready hresult htag, h.dlen_eq, hlen, Nat.add_sub_cancel]

end InputsFit

/-! ## The inputs of `HASH` (10_state.md R33, R34) -/

theorem hashParams_fixed_iff {v : HashVariant} : (hashParams v).fixed = true ↔ v = .hash ∨ v = .hasha := by
  cases v <;> decide

/-- The message fits into `DIN`, and the digest has the length of the variant and fits into `DOUT`. -/
structure MessageFits (s : State) (v : HashVariant) (n : Nat) (Msg : List Byte) : Prop where
  legal : s.caps.Legal
  din : Msg.length ≤ s.caps.din
  fixed : (hashParams v).fixed = true → n = 32
  dout : n ≤ s.caps.dout

namespace MessageFits
variable {s : State} {v : HashVariant} {n : Nat} {Msg : List Byte} (h : MessageFits s v n Msg)
include h

theorem withAgenda (es : List Event) : MessageFits { s with agenda := es } v n Msg := ⟨h.legal, h.din, h.fixed, h.dout⟩

theorem length_lt : n < 2 ^ 32 := by
  obtain ⟨-, -, -, -, hdout⟩ := h.legal
  have hfit := h.dout
  omega

theorem dlen_eq : (handOverMessage n Msg s).dlen.toNat = Msg.length := by
  obtain ⟨-, -, -, hdin, -⟩ := h.legal
  exact reportLength_of_lt (by have := h.din; omega)

theorem hlen_eq : (handOverMessage n Msg s).hlen.toNat = n := reportLength_of_lt h.length_lt

theorem dataOf_eq : dataOf (handOverMessage n Msg s) = Msg := by
  rw [dataOf, h.dlen_eq]
  exact memRead_storeBytes (sp := .din) (by decide) h.din

theorem digestLen_eq : digestLen (handOverMessage n Msg s) v = n := by
  rw [digestLen, h.hlen_eq]
  split
  · next hfixed => exact (h.fixed hfixed).symm
  · rfl

theorem exec_hash :
    exec (.hash (hashCode v)) (handOverMessage n Msg s) =
      .next (finishEngine n
        (writeDout (accept (encodeByte (.hash (hashCode v))) (handOverMessage n Msg s)) 0 (digest v n Msg))) := by
  have hready : HashReady (hashCode v) v (handOverMessage n Msg s) :=
    ⟨hashVariant?_hashCode v, fun hfixed => h.hlen_eq.trans (h.fixed hfixed), fun _ => h.hlen_eq.trans_le h.dout,
      h.dlen_eq.trans_le h.din⟩
  rw [exec_hash_of_ready hready, h.digestLen_eq, h.dataOf_eq]

end MessageFits

/-! ## The last three lines (30_encoding.md R98) -/

@[simp] theorem busy_finishEngine (n : Nat) (s : State) : (finishEngine n s).busy = false := busy_complete ..

theorem err_finishEngine (n : Nat) (s : State) : (finishEngine n s).err = 0 := err_complete ..

@[simp] theorem busy_note (o : Observation) (s : State) : (note o s).busy = s.busy := rfl

/-- After an error the last line reads the report. -/
theorem readResult_raiseError (e : ErrorKind) (s : State) :
    readResult (raiseError e s) = note (.reg8 .status (statusError e)) (raiseError e s) := by
  have herr : (raiseError e s).err ≠ 0 := by
    rw [err_raiseError]
    cases e <;> decide
  rw [readResult_of_idle (busy_raiseError e s), if_neg herr, raiseError_status]

/-- After a success the last line reads the result that was stored. -/
theorem readResult_finishEngine {result : List Byte} {n : Nat} (hlen : result.length = n) (hn : n < 2 ^ 32) (s : State) :
    readResult (finishEngine n (writeDout s 0 result)) =
      note (.bytes .dout 0 result) (finishEngine n (writeDout s 0 result)) := by
  have holen : (finishEngine n (writeDout s 0 result)).olen.toNat = result.length := by
    rw [hlen]
    exact Nat.mod_eq_of_lt hn
  have hbytes : (List.range result.length).map (storedByte (finishEngine n (writeDout s 0 result)) .dout) = result := by
    refine List.ext_getElem (by simp) fun i _ hi => ?_
    rw [List.getElem_map, List.getElem_range]
    refine (writeBytes_getD s.dout 0 result i _).trans ?_
    simp [hi]
  rw [readResult_of_idle (busy_finishEngine ..), if_pos (err_finishEngine ..), holen, hbytes]

section
variable {i : Instr} {s : State} (hb : s.busy = false)
include hb

/-- The command runs, `WAIT` finds `DONE = 1`, and the result is read. -/
theorem runScript_commandLines {t : State} (h : exec i (withScript [.wait, .rdResult] s) = .next t) :
    runScript (commandLines i) s = .next (readResult { t with agenda := [] }) := by
  have hwrite : commandWrite (encodeByte i) (withScript [.wait, .rdResult] s) = .next t := by
    rw [commandWrite_of_decode (decode_of_decodeByte (decodeByte_encodeByte i)), ← h]
    exact if_neg (Bool.not_eq_true _ ▸ hb)
  have hcommand : step (withScript (commandLines i) s) = .next t :=
    (step_cons (s := withScript (commandLines i) s) rfl).trans hwrite
  have hwait : step t = .next { t with agenda := [.host .rdResult] } := by
    rw [step_cons (exec_blockOnly h).agenda_eq]
    exact congrArg Host.Outcome.next (if_pos (exec_done h))
  have hread : step { t with agenda := [.host .rdResult] } = .next (readResult { t with agenda := [] }) :=
    step_cons (s := { t with agenda := [.host .rdResult] }) rfl
  exact (run_succ hcommand 2).trans ((run_succ hwait 1).trans (run_succ hread 0))

/-- After a success the host has read the result. -/
theorem runScript_of_success {n : Nat} {result : List Byte} (hlen : result.length = n) (hn : n < 2 ^ 32)
    (h : ∀ es, exec i { s with agenda := es } =
      .next (finishEngine n (writeDout (accept (encodeByte i) { s with agenda := es }) 0 result))) :
    ∃ t, runScript (commandLines i) s = .next t ∧ t.busy = false ∧ t.caps = s.caps
      ∧ t.observed = .bytes .dout 0 result :: s.observed := by
  have hread := readResult_finishEngine hlen hn (accept (encodeByte i) { s with agenda := [] })
  exact ⟨_, (runScript_commandLines hb (h _)).trans (congrArg Host.Outcome.next hread),
    (busy_note ..).trans (busy_finishEngine ..), rfl, rfl⟩

/-- After an error the host has read the report, and nothing is released or changed. -/
theorem runScript_of_error {e : ErrorKind}
    (h : ∀ es, exec i { s with agenda := es } = .next (raiseError e (accept (encodeByte i) { s with agenda := es }))) :
    ∃ t, runScript (commandLines i) s = .next t ∧ t.observed = .reg8 .status (statusError e) :: s.observed
      ∧ t.olen = 0 ∧ t.S = s.S ∧ t.dout = s.dout := by
  have hread := readResult_raiseError e (accept (encodeByte i) { s with agenda := [] })
  exact ⟨_, (runScript_commandLines hb (h _)).trans (congrArg Host.Outcome.next hread), rfl, rfl, rfl, rfl⟩

end

/-! ## The scripts of the pseudo-operations (30_encoding.md R98) -/

section
variable {s : State} {v : AeadVariant} {K N : List Byte} {A : Option (List Byte)} (hb : s.busy = false)
include hb

/-- The script of `encrypt` reads the ciphertext and the tag. -/
theorem runScript_scriptEncrypt {M : List Byte} (h : InputsFit s v K N (A.getD []) M) :
    ∃ t, runScript (scriptEncrypt v K N A M) s = .next t ∧ t.busy = false ∧ t.caps = s.caps
      ∧ t.observed = .bytes .dout 0 (aeadEncrypt v K N (A.getD []) M) :: s.observed := by
  rw [scriptEncrypt, runScript_loadLines hb]
  exact runScript_of_success (s := handOver K N (A.getD []) M s) hb (aeadEncrypt_length ..) h.length_lt
    fun es => (h.withAgenda es).exec_encrypt

/-- The script of `decrypt` reads the plaintext of what `ENCRYPT` gave. -/
theorem runScript_scriptDecrypt {M CT : List Byte} (h : InputsFit s v K N (A.getD []) CT)
    (hCT : aeadEncrypt v K N (A.getD []) M = CT) :
    ∃ t, runScript (scriptDecrypt v K N A CT) s = .next t ∧ t.busy = false ∧ t.caps = s.caps
      ∧ t.observed = .bytes .dout 0 M :: s.observed := by
  have hlen : M.length < 2 ^ 32 := by
    have hfit := h.length_lt
    rw [← hCT, aeadEncrypt_length] at hfit
    omega
  rw [scriptDecrypt, runScript_loadLines hb]
  exact runScript_of_success (s := handOver K N (A.getD []) CT s) hb rfl hlen fun es => (h.withAgenda es).exec_decrypt hCT

/-- A wrong key length is found before anything is computed (60_exceptions.md R233, R241). -/
theorem runScript_scriptEncrypt_of_wrongKey (M : List Byte) (h : K.length ≠ (aeadParams v).klen) :
    ∃ t, runScript (scriptEncrypt v K N A M) s = .next t
      ∧ t.observed = .reg8 .status (statusError .invalidKeyLength) :: s.observed ∧ t.olen = 0 ∧ t.S = s.S
      ∧ t.dout = s.dout := by
  have hklen : (reportLength 8 K.length).toNat ≠ (aeadParams v).klen :=
    reportLength_ne (by have := klen_le v; omega) h
  rw [scriptEncrypt, runScript_loadLines hb]
  exact runScript_of_error (s := handOver K N (A.getD []) M s) hb fun es =>
    exec_encrypt_of_error (validateAead_of_wrongKey (aeadVariant?_aeadCode v) hklen)

end

/-- The script of `hash` reads the digest. -/
theorem runScript_scriptHash_of_ready {s : State} (hb : s.busy = false) {v : HashVariant} {n : Nat} {Msg : List Byte}
    (h : MessageFits s v n Msg) :
    ∃ t, runScript (scriptHash v n Msg) s = .next t ∧ t.observed = .bytes .dout 0 (digest v n Msg) :: s.observed := by
  obtain ⟨t, hrun, -, -, hread⟩ := runScript_of_success (s := handOverMessage n Msg s) hb (digest_length v n Msg)
    h.length_lt fun es => (h.withAgenda es).exec_hash
  exact ⟨t, (runScript_scriptHash hb v n Msg).trans hrun, hread⟩

/-- A fixed-output variant asked for another length than 32 reports it (60_exceptions.md R238). -/
theorem runScript_scriptHash_of_wrongLength {s : State} (hb : s.busy = false) {v : HashVariant} {n : Nat} (Msg : List Byte)
    (hfixed : (hashParams v).fixed = true) (hn : n ≠ 32) :
    ∃ t, runScript (scriptHash v n Msg) s = .next t
      ∧ t.observed = .reg8 .status (statusError .invalidHashLength) :: s.observed := by
  have hhlen : (reportLength 32 n).toNat ≠ hashBytes := reportLength_ne (by decide) hn
  obtain ⟨t, hrun, hread, -⟩ := runScript_of_error (s := handOverMessage n Msg s) hb fun es =>
    exec_hash_of_error (validateHash_of_wrongLength (hashVariant?_hashCode v) hfixed hhlen)
  exact ⟨t, (runScript_scriptHash hb v n Msg).trans hrun, hread⟩

end Sys2Proof.Machine

namespace Sys2Proof.Proofs.Encoding

open Sys2Proof.Machine

/-- Settles O36: the reported length is wrong whatever fits into `KLEN` (`reportLength_ne`), and the check of the key length
fails before anything is computed. -/
theorem wrongKeyLengthFailsTheScript : Obligations.WrongKeyLengthFailsTheScript := by
  unfold Obligations.WrongKeyLengthFailsTheScript
  rintro s v K N A M ⟨hb, -⟩ hK
  exact runScript_scriptEncrypt_of_wrongKey hb M hK

/-- Settles O34: the script of `encrypt` reads what `ENCRYPT` computes from the inputs handed over, the one of `decrypt`
its inverse (`aeadDecrypt_aeadEncrypt`), and the one of `hash` the digest or the report. -/
theorem hostScriptsDeliverTheirResults : Obligations.HostScriptsDeliverTheirResults := by
  unfold Obligations.HostScriptsDeliverTheirResults
  refine ⟨?_, ?_⟩
  · rintro s v K N A M ⟨hb, -⟩ hlegal hK hN hA hM
    have had : (A.getD []).length ≤ s.caps.ad := by
      cases A with
      | none => exact Nat.zero_le _
      | some a => exact hA a rfl
    obtain ⟨t, hencrypt, hidle, hcaps, hct⟩ := runScript_scriptEncrypt (s := s) (v := v) (A := A) hb
      ⟨hlegal, hK, hN, had, (Nat.le_add_right _ 16).trans hM⟩
    have hlen := aeadEncrypt_length v K N (A.getD []) M
    obtain ⟨u, hdecrypt, -, -, hpt⟩ := runScript_scriptDecrypt (s := t) (v := v) (A := A) hidle
      ⟨hcaps ▸ hlegal, hK, hN, hcaps ▸ had, hcaps ▸ hlen.trans_le hM⟩ rfl
    exact ⟨_, t, u, hencrypt, hct, hlen, hdecrypt, hpt⟩
  · rintro s v n Msg ⟨hb, -⟩ hlegal hMsg
    refine ⟨fun hfixed hn => ?_, fun hfixed hn => ?_⟩
    · exact runScript_scriptHash_of_ready hb ⟨hlegal, hMsg, fun hv => hfixed (hashParams_fixed_iff.mp hv), hn⟩
    · exact runScript_scriptHash_of_wrongLength hb Msg (hashParams_fixed_iff.mpr hfixed) hn

end Sys2Proof.Proofs.Encoding
end

section
/-! SUPPORT. The permutation layer by layer (40_permutation.md R120 to R130): each layer bit by bit and why it is invertible, the rounds
in a row, and the `PERMUTE` command. -/

namespace Sys2Proof.Machine

/-! ## The constant (40_permutation.md R122) -/

/-- The constant of a round by its two nibbles. -/
theorem roundConst_eq {r : Nat} (h : r ≤ 11) : roundConst r = 16 * (0xf - r) + r := by
  unfold roundConst
  omega

theorem roundConst_lt {r : Nat} (h : r ≤ 11) : roundConst r < 0x100 := by
  rw [roundConst_eq h]
  omega

/-- Only the low byte of `S[2]` changes. -/
theorem addConstant_s2_ushiftRight {r : Nat} (h : r ≤ 11) (S : Words5) : (addConstant r S).s2 >>> 8 = S.s2 >>> 8 := by
  have hlt := roundConst_lt h
  have hzero : BitVec.ofNat 64 (roundConst r) >>> 8 = 0#64 := by
    apply BitVec.eq_of_toNat_eq
    rw [BitVec.toNat_ushiftRight, BitVec.toNat_ofNat, Nat.shiftRight_eq_div_pow, BitVec.toNat_ofNat]
    omega
  rw [addConstant, BitVec.ushiftRight_xor_distrib, hzero, BitVec.xor_zero]

/-- The layer undoes itself. -/
theorem addConstant_involutive (r : Nat) : Function.Involutive (addConstant r) := by
  intro S
  simp only [addConstant, BitVec.xor_assoc, BitVec.xor_self, BitVec.xor_zero]

/-! ## The substitution layer (40_permutation.md R123, R126) -/

/-- Lane `j` of the state as a number below 32, the bit of `S[0]` the most significant. -/
def lane (S : Words5) (j : Nat) : Nat :=
  16 * (S.s0.getLsbD j).toNat + 8 * (S.s1.getLsbD j).toNat + 4 * (S.s2.getLsbD j).toNat
    + 2 * (S.s3.getLsbD j).toNat + (S.s4.getLsbD j).toNat

/-- The table of the 5-bit function (40_permutation.md R126). -/
def sboxTable : List Nat :=
  [0x04, 0x0b, 0x1f, 0x14, 0x1a, 0x15, 0x09, 0x02, 0x1b, 0x05, 0x08, 0x12, 0x1d, 0x03, 0x06, 0x1c,
   0x1e, 0x13, 0x07, 0x0e, 0x00, 0x0d, 0x11, 0x18, 0x10, 0x0c, 0x01, 0x19, 0x16, 0x0a, 0x0f, 0x17]

/-- The word operations act on each lane alone, and there as the table says. -/
theorem sboxTable_lane (S : Words5) {j : Nat} (hj : j < 64) : sboxTable[lane S j]? = some (lane (substitute S) j) := by
  simp only [lane, substitute, BitVec.getLsbD_xor, BitVec.getLsbD_and, BitVec.getLsbD_not, hj, decide_true, Bool.true_and]
  generalize S.s0.getLsbD j = b0, S.s1.getLsbD j = b1, S.s2.getLsbD j = b2, S.s3.getLsbD j = b3, S.s4.getLsbD j = b4
  revert b0 b1 b2 b3 b4
  decide

/-- The 32 entries are all different. -/
theorem sboxTable_nodup : sboxTable.Nodup := by decide

/-- The bits of a lane are those of the five words. -/
theorem testBit_lane (S : Words5) (i : Fin 5) (j : Nat) : (lane S j).testBit (4 - i) = (wordAt S i).getLsbD j := by
  have hbits : ∀ b0 b1 b2 b3 b4 : Bool, ∀ i : Fin 5,
      (16 * b0.toNat + 8 * b1.toNat + 4 * b2.toNat + 2 * b3.toNat + b4.toNat).testBit (4 - i)
        = [b0, b1, b2, b3, b4][i] := by decide
  rw [lane, hbits]
  fin_cases i <;> rfl

theorem words5_ext {S T : Words5} (h : ∀ i, wordAt S i = wordAt T i) : S = T := by
  obtain ⟨s0, s1, s2, s3, s4⟩ := S
  obtain ⟨t0, t1, t2, t3, t4⟩ := T
  rw [Words5.mk.injEq]
  exact ⟨h 0, h 1, h 2, h 3, h 4⟩

/-- The state is determined by its lanes. -/
theorem eq_of_lane_eq {S T : Words5} (h : ∀ j < 64, lane S j = lane T j) : S = T := by
  refine words5_ext fun i => BitVec.eq_of_getLsbD_eq fun j hj => ?_
  rw [← testBit_lane, ← testBit_lane, h j hj]

/-- Lanes that the table takes to one entry are one lane. -/
theorem substitute_injective : Function.Injective substitute := by
  refine fun S T h => eq_of_lane_eq fun j hj => ?_
  have hentry : sboxTable[lane S j]? = sboxTable[lane T j]? := by
    rw [sboxTable_lane S hj, sboxTable_lane T hj, h]
  obtain ⟨hlt, -⟩ := List.getElem?_eq_some_iff.mp (sboxTable_lane S hj)
  exact (List.getElem?_inj hlt sboxTable_nodup).mp hentry

/-- The 320-bit states are finitely many. -/
theorem words5_finite : Finite Words5 :=
  Finite.of_injective (β := Fin 5 → BitVec 64) wordAt fun _ _ h => words5_ext (congrFun h)

theorem substitute_bijective : Function.Bijective substitute :=
  have := words5_finite
  Finite.injective_iff_bijective.mp substitute_injective

/-! ## The linear layer (40_permutation.md R124) -/

/-- A right rotation moves bit `j + r` to place `j` (00_scope.md R14). -/
theorem getLsbD_rotr64 (x : Word) {r j : Nat} (hr : r < 64) (hj : j < 64) :
    (rotr64 x r).getLsbD j = x.getLsbD ((j + r) % 64) := by
  have hrot : rotr64 x r = x.rotateRight r := by rw [BitVec.rotateRight_def, Nat.mod_eq_of_lt hr, rotr64]
  rw [hrot, BitVec.getLsbD_rotateRight, Nat.mod_eq_of_lt hr]
  by_cases hlow : j < 64 - r
  · rw [decide_eq_true hlow, cond_true, Nat.add_comm, Nat.mod_eq_of_lt (by omega)]
  · have hwrap : (j + r) % 64 = j - (64 - r) := by omega
    rw [decide_eq_false hlow, cond_false, decide_eq_true hj, Bool.true_and, hwrap]

theorem getLsbD_diffuseWord (x : Word) {a b j : Nat} (ha : a < 64) (hb : b < 64) (hj : j < 64) :
    (diffuseWord a b x).getLsbD j = (x.getLsbD j ^^ x.getLsbD ((j + a) % 64) ^^ x.getLsbD ((j + b) % 64)) := by
  rw [diffuseWord, BitVec.getLsbD_xor, BitVec.getLsbD_xor, getLsbD_rotr64 x ha hj, getLsbD_rotr64 x hb hj]

/-- Squaring the word map doubles its amounts: the mixed terms meet twice and cancel. -/
theorem diffuseWord_diffuseWord {a b : Nat} (ha : a < 64) (hb : b < 64) (x : Word) :
    diffuseWord a b (diffuseWord a b x) = diffuseWord (2 * a % 64) (2 * b % 64) x := by
  refine BitVec.eq_of_getLsbD_eq fun j hj => ?_
  have hcancel : ∀ p q r m u v : Bool, (p ^^ q ^^ r ^^ (q ^^ u ^^ m) ^^ (r ^^ m ^^ v)) = (p ^^ u ^^ v) := by decide
  have hmod : ∀ k, k % 64 < 64 := fun k => Nat.mod_lt k (by decide)
  have hsum : ∀ c d, ((j + c) % 64 + d) % 64 = (j + c + d) % 64 := fun c d => by omega
  have haa : (j + 2 * a % 64) % 64 = (j + a + a) % 64 := by omega
  have hbb : (j + 2 * b % 64) % 64 = (j + b + b) % 64 := by omega
  simp only [getLsbD_diffuseWord, ha, hb, hj, hmod, hsum, haa, hbb, Nat.add_right_comm j b a]
  exact hcancel _ _ _ _ _ _

theorem diffuseWord_iterate {a b : Nat} (ha : a < 64) (hb : b < 64) (k : Nat) :
    (diffuseWord a b)^[2 ^ k] = diffuseWord (2 ^ k * a % 64) (2 ^ k * b % 64) := by
  induction k with
  | zero => rw [pow_zero, Function.iterate_one, one_mul, one_mul, Nat.mod_eq_of_lt ha, Nat.mod_eq_of_lt hb]
  | succ k ih =>
    have hdouble : ∀ c, 2 * (2 ^ k * c % 64) % 64 = 2 ^ (k + 1) * c % 64 := fun c => by
      rw [Nat.mul_mod_mod, ← Nat.mul_assoc, ← Nat.pow_succ']
    funext x
    rw [← hdouble a, ← hdouble b, pow_succ, Function.iterate_mul, ih]
    exact diffuseWord_diffuseWord (Nat.mod_lt _ (by decide)) (Nat.mod_lt _ (by decide)) x

/-- The word map has an odd number of terms, so its 64th power is the identity: after six squarings every amount is a
multiple of 64. -/
theorem diffuseWord_iterate_64 {a b : Nat} (ha : a < 64) (hb : b < 64) : (diffuseWord a b)^[64] = id := by
  have h := diffuseWord_iterate ha hb 6
  rw [show 2 ^ 6 = 64 from rfl, Nat.mul_mod_right, Nat.mul_mod_right] at h
  funext x
  refine (congrFun h x).trans (BitVec.eq_of_getLsbD_eq fun j hj => ?_)
  rw [getLsbD_diffuseWord x (by decide) (by decide) hj, Nat.add_zero, Nat.mod_eq_of_lt hj, Bool.xor_self, Bool.false_xor, id]

theorem diffuseWord_injective {a b : Nat} (ha : a < 64) (hb : b < 64) : Function.Injective (diffuseWord a b) := by
  have h := diffuseWord_iterate_64 ha hb
  rw [Function.iterate_succ] at h
  exact Function.Injective.of_comp (h ▸ Function.injective_id)

theorem diffuse_injective : Function.Injective diffuse := by
  rintro ⟨s0, s1, s2, s3, s4⟩ ⟨t0, t1, t2, t3, t4⟩ h
  simp only [diffuse, Words5.mk.injEq] at h ⊢
  obtain ⟨h0, h1, h2, h3, h4⟩ := h
  exact ⟨diffuseWord_injective (by decide) (by decide) h0, diffuseWord_injective (by decide) (by decide) h1,
    diffuseWord_injective (by decide) (by decide) h2, diffuseWord_injective (by decide) (by decide) h3,
    diffuseWord_injective (by decide) (by decide) h4⟩

theorem diffuse_bijective : Function.Bijective diffuse :=
  have := words5_finite
  Finite.injective_iff_bijective.mp diffuse_injective

/-! ## The rounds (40_permutation.md R121, R125) -/

theorem round_bijective (r : Nat) : Function.Bijective (round r) :=
  diffuse_bijective.comp (substitute_bijective.comp (addConstant_involutive r).bijective)

theorem runRounds_bijective (n r : Nat) : Function.Bijective (runRounds n r) := by
  induction n generalizing r with
  | zero => exact Function.bijective_id
  | succ n ih => exact (ih (r + 1)).comp (round_bijective r)

/-- Rounds in a row, the index counted up. -/
theorem runRounds_eq_foldl (n r : Nat) (S : Words5) :
    runRounds n r S = (List.range' r n).foldl (fun T r => round r T) S := by
  induction n generalizing r S with
  | zero => rfl
  | succ n ih => exact ih (r + 1) (round r S)

/-- On the all-zero state the last `n` rounds and the first `n` rounds end differently. -/
theorem perm_zeroWords_ne : ∀ n ∈ List.range' 1 11, perm n zeroWords ≠ runRounds n 0 zeroWords := by decide

/-! ## The command (40_permutation.md R128) -/

theorem exec_permute_of_legal {n : BitVec 4} (hlo : 1 ≤ n.toNat) (hhi : n.toNat ≤ 12) (s : State) :
    exec (.permute n) s = .next (finishPermute { accept (encodeByte (.permute n)) s with S := perm n.toNat s.S }) := by
  obtain ⟨hillegal, -⟩ | ⟨-, -, hexec⟩ := execPermute_cases n s
  · omega
  · exact hexec

/-- What `PERMUTE` leaves on an idle block: the words and the report. -/
theorem finishPermute_accept_of_idle {s : State} (h : s.job = none) (b : Byte) (S : Words5) :
    finishPermute { accept b s with S := S } = clearLoops { s with S := S, cmd := b, status := statusDone, olen := 0 } := by
  rw [finishPermute, complete, ← h]
  rfl

end Sys2Proof.Machine

namespace Sys2Proof.Proofs.Permutation

open Sys2Proof.Machine

/-- Settles O12: the constant by its two nibbles (`roundConst_eq`), which lie below bit 8. -/
theorem addConstantChangesWordTwo : Obligations.AddConstantChangesWordTwo := by
  unfold Obligations.AddConstantChangesWordTwo
  refine ⟨fun r S hr => ⟨rfl, addConstant_s2_ushiftRight hr S, roundConst_lt hr, ?_, ?_⟩, by decide⟩
  · rw [roundConst_eq hr]
    omega
  · rw [roundConst_eq hr]
    omega

/-- Settles O13: the table read lane by lane (`sboxTable_lane`). -/
theorem substitutionIsLaneByLane : Obligations.SubstitutionIsLaneByLane := by
  unfold Obligations.SubstitutionIsLaneByLane
  exact fun S _ hj => (sboxTable_lane S hj).symm

/-- Settles O14: the bits of each word's map (`getLsbD_diffuseWord`), with the amounts of its word. -/
theorem diffusionBitByBit : Obligations.DiffusionBitByBit := by
  unfold Obligations.DiffusionBitByBit
  intro S i j hj
  match i with
  | 0 => exact getLsbD_diffuseWord S.s0 (by decide) (by decide) hj
  | 1 => exact getLsbD_diffuseWord S.s1 (by decide) (by decide) hj
  | 2 => exact getLsbD_diffuseWord S.s2 (by decide) (by decide) hj
  | 3 => exact getLsbD_diffuseWord S.s3 (by decide) (by decide) hj
  | 4 => exact getLsbD_diffuseWord S.s4 (by decide) (by decide) hj

/-- Settles O15: the rounds as a fold over their indices (`runRounds_eq_foldl`); on the all-zero state the first `n` rounds
end elsewhere (`perm_zeroWords_ne`). -/
theorem permutationCountsFromTheEnd : Obligations.PermutationCountsFromTheEnd := by
  unfold Obligations.PermutationCountsFromTheEnd
  refine ⟨fun _ _ => rfl, fun n S _ _ => runRounds_eq_foldl n (12 - n) S, fun n hlo hhi => ⟨zeroWords, fun h => ?_⟩⟩
  exact perm_zeroWords_ne n (List.mem_range'_1.mpr ⟨hlo, by omega⟩) (h.trans (runRounds_eq_foldl n 0 zeroWords).symm)

/-- Settles O16: the constant layer undoes itself, the table has no entry twice, each word map of the linear layer has a power
that is the identity; rounds compose. -/
theorem permutationIsBijective : Obligations.PermutationIsBijective := by
  unfold Obligations.PermutationIsBijective
  exact ⟨fun r _ => (addConstant_involutive r).bijective, substitute_bijective, diffuse_bijective,
    fun r _ => round_bijective r, fun n _ _ => runRounds_bijective n (12 - n)⟩

/-- Settles O17: a legal count completes with the permuted words and the report; an illegal one raises its error before the
words are touched. -/
theorem permuteRuns : Obligations.PermuteRuns := by
  unfold Obligations.PermuteRuns
  rintro s n ⟨-, hjob⟩
  refine ⟨fun ⟨hlo, hhi⟩ => ⟨_, exec_permute_of_legal hlo hhi s, ?_⟩, fun h => ?_⟩
  · rw [finishPermute_accept_of_idle hjob]
    rfl
  · rw [exec_permute_of_illegal h, raiseError_accept_of_idle hjob]
    rfl

end Sys2Proof.Proofs.Permutation
end

section
/-! SUPPORT. The words of a byte sequence put together from pieces (00_scope.md R12, R13): the initial state of an AEAD command
(41_aead.md R153, R154), the key injection and the tag (R164, R165). -/

namespace Sys2Proof.Machine

/-! ## Slices (00_scope.md R12) -/

@[simp] theorem slice_length_self (b : List Byte) : slice b 0 b.length = b := by simp [slice]

theorem slice_append_of_le {x : List Byte} {j : Nat} (h : j ≤ x.length) (y : List Byte) (i : Nat) :
    slice (x ++ y) i j = slice x i j := by
  rcases Nat.le_total i j with hij | hij
  · rw [slice, slice, List.drop_append_of_le_length (hij.trans h),
      List.take_append_of_le_length (by rw [List.length_drop]; omega)]
  · rw [slice, slice, Nat.sub_eq_zero_of_le hij, List.take_zero, List.take_zero]

theorem slice_append_of_ge {x : List Byte} {i : Nat} (h : x.length ≤ i) (y : List Byte) (j : Nat) :
    slice (x ++ y) i j = slice y (i - x.length) (j - x.length) := by
  rw [slice, slice, List.drop_append, List.drop_of_length_le h, List.nil_append]
  congr 1
  omega

theorem slice_append_slice (b : List Byte) {i j k : Nat} (hij : i ≤ j) (hjk : j ≤ k) :
    slice b i j ++ slice b j k = slice b i k := by
  obtain ⟨m, rfl⟩ := Nat.exists_eq_add_of_le hij
  obtain ⟨n, rfl⟩ := Nat.exists_eq_add_of_le hjk
  simp only [slice, Nat.add_sub_cancel_left, Nat.add_assoc, ← List.drop_drop]
  rw [Nat.add_sub_add_left, Nat.add_sub_cancel_left, List.take_add]

/-- A piece that reaches over the end of the first part. -/
theorem slice_append_across {x : List Byte} {i : Nat} (hi : i ≤ x.length) (y : List Byte) (n : Nat) :
    slice (x ++ y) i (x.length + n) = slice x i x.length ++ slice y 0 n := by
  rw [← slice_append_slice (x ++ y) hi (Nat.le_add_right _ n), slice_append_of_le le_rfl, slice_append_of_ge le_rfl,
    Nat.sub_self, Nat.add_sub_cancel_left]

/-! ## Words (00_scope.md R13) -/

@[simp] theorem be64_zeros (n : Nat) : be64 (zeros n) = 0#64 := by
  induction n with
  | zero => rfl
  | succ n ih => exact ih

theorem beValue_lt (b : List Byte) : beValue b < 256 ^ b.length := by
  induction b using List.reverseRecOn with
  | nil => decide
  | append_singleton xs a ih =>
    have ha : a.toNat < 256 := a.isLt
    rw [beValue_concat, List.length_append, List.length_singleton, Nat.pow_succ]
    omega

theorem beValue_zeros_append (n : Nat) (b : List Byte) : beValue (zeros n ++ b) = beValue b := by
  induction n with
  | zero => rfl
  | succ n ih => exact ih

/-- Four bytes behind four zeros leave the high half of the word empty. -/
theorem be64_zeros_append_ushiftRight {b : List Byte} (h : b.length = 4) : be64 (zeros 4 ++ b) >>> 32 = 0#64 := by
  refine BitVec.eq_of_toNat_eq ?_
  have hlt : beValue b < 256 ^ b.length := beValue_lt b
  rw [h] at hlt
  rw [BitVec.toNat_ushiftRight, be64_toNat (by simp [h]), beValue_zeros_append, Nat.shiftRight_eq_div_pow]
  exact Nat.div_eq_of_lt hlt

/-- Five pieces of eight bytes are the five words. -/
theorem words5_append {w0 w1 w2 w3 w4 : List Byte} (h0 : w0.length = 8) (h1 : w1.length = 8) (h2 : w2.length = 8)
    (h3 : w3.length = 8) (h4 : w4.length = 8) :
    words5 (w0 ++ (w1 ++ (w2 ++ (w3 ++ w4)))) = ⟨be64 w0, be64 w1, be64 w2, be64 w3, be64 w4⟩ := by
  simp [words5, slice, List.drop_append, h0, h1, h2, h3, h4, List.take_of_length_le,
    List.drop_of_length_le]

/-! ## The 40-byte buffer and the key at its end (41_aead.md R153, R154) -/

/-- A 16-byte sequence in two pieces of eight bytes. -/
theorem eq_slices_of_16 {b : List Byte} (h : b.length = 16) : b = slice b 0 8 ++ slice b 8 16 := by
  rw [slice_append_slice b (by decide) (by decide), ← h, slice_length_self]

/-- A 20-byte key in a piece of four bytes and two of eight. -/
theorem eq_slices_of_20 {b : List Byte} (h : b.length = 20) : b = slice b 0 4 ++ (slice b 4 12 ++ slice b 12 20) := by
  rw [slice_append_slice b (by decide) (by decide), slice_append_slice b (by decide) (by decide), ← h, slice_length_self]

theorem aeadBuffer_length (p : AeadParams) {K N : List Byte} (hK : K.length ≤ 20) (hN : N.length = 16) :
    (aeadBuffer p K N).length = 40 := by
  simp only [aeadBuffer, List.length_append, List.length_cons, List.length_nil, zeros_length, hN]
  omega

/-- The first word of the buffer holds the parameters and, for a 16-byte key, zeros below them. -/
theorem words5_aeadBuffer_of_16 (p : AeadParams) {K N : List Byte} (hK : K.length = 16) (hN : N.length = 16) :
    words5 (aeadBuffer p K N) =
      ⟨be64 ([BitVec.ofNat 8 p.k, BitVec.ofNat 8 (rateLen p.rate * 8), BitVec.ofNat 8 p.a, BitVec.ofNat 8 p.b] ++ zeros 4),
        be64 (slice K 0 8), be64 (slice K 8 16), be64 (slice N 0 8), be64 (slice N 8 16)⟩ := by
  rw [← words5_append (by simp) (by simp [hK]) (by simp [hK]) (by simp [hN]) (by simp [hN]), ← eq_slices_of_16 hN,
    ← List.append_assoc (slice K 0 8), ← eq_slices_of_16 hK, aeadBuffer, hK, List.append_assoc, List.append_assoc]

/-- For a 20-byte key the first four key bytes stand below the parameters. -/
theorem words5_aeadBuffer_of_20 (p : AeadParams) {K N : List Byte} (hK : K.length = 20) (hN : N.length = 16) :
    words5 (aeadBuffer p K N) =
      ⟨be64 ([BitVec.ofNat 8 p.k, BitVec.ofNat 8 (rateLen p.rate * 8), BitVec.ofNat 8 p.a, BitVec.ofNat 8 p.b] ++ slice K 0 4),
        be64 (slice K 4 12), be64 (slice K 12 20), be64 (slice N 0 8), be64 (slice N 8 16)⟩ := by
  rw [← words5_append (by simp [hK]) (by simp [hK]) (by simp [hK]) (by simp [hN]) (by simp [hN]), ← eq_slices_of_16 hN,
    aeadBuffer, hK]
  conv_lhs => rw [eq_slices_of_20 hK]
  simp [zeros]

theorem keyTail_of_16 {K : List Byte} (h : K.length = 16) :
    keyTail K = ⟨0#64, 0#64, 0#64, be64 (slice K 0 8), be64 (slice K 8 16)⟩ := by
  have hzeros : zeros 24 = zeros 8 ++ (zeros 8 ++ zeros 8) := rfl
  rw [keyTail, h, hzeros, List.append_assoc, List.append_assoc]
  conv_lhs => rw [eq_slices_of_16 h]
  rw [words5_append (by simp) (by simp) (by simp) (by simp [h]) (by simp [h]), be64_zeros]

theorem keyTail_of_20 {K : List Byte} (h : K.length = 20) :
    keyTail K = ⟨0#64, 0#64, be64 (zeros 4 ++ slice K 0 4), be64 (slice K 4 12), be64 (slice K 12 20)⟩ := by
  have hzeros : zeros 20 = zeros 8 ++ (zeros 8 ++ zeros 4) := rfl
  rw [keyTail, h, hzeros, List.append_assoc, List.append_assoc]
  conv_lhs => rw [eq_slices_of_20 h, ← List.append_assoc (zeros 4)]
  rw [words5_append (by simp) (by simp) (by simp [h]) (by simp [h]) (by simp [h]), be64_zeros]

/-- The full permutation of every variant has 12 rounds (00_scope.md R8). -/
theorem aeadParams_a (v : AeadVariant) : (aeadParams v).a = 12 := by cases v <;> rfl

/-! ## The key injection and the tag (41_aead.md R164, R165) -/

/-- Both rates inject the same three words of the padded key. -/
theorem injectKey_of_16 {K : List Byte} (h : K.length = 16) (S : Words5) :
    injectKey .r8 K S = { S with s1 := S.s1 ^^^ be64 (slice K 0 8), s2 := S.s2 ^^^ be64 (slice K 8 16) }
      ∧ injectKey .r16 K S = { S with s2 := S.s2 ^^^ be64 (slice K 0 8), s3 := S.s3 ^^^ be64 (slice K 8 16) } := by
  have hpad : slice (K ++ zeros 8) 16 24 = zeros 8 := by rw [slice_append_of_ge h.le, h]; rfl
  simp only [injectKey, h, slice_append_of_le (show 8 ≤ K.length by omega), slice_append_of_le h.ge, hpad, be64_zeros,
    xorWord, setWord, wordAt, BitVec.xor_zero, and_self]

theorem injectKey_of_20 {K : List Byte} (h : K.length = 20) (S : Words5) :
    injectKey .r8 K S =
      { S with
        s1 := S.s1 ^^^ be64 (slice K 0 8), s2 := S.s2 ^^^ be64 (slice K 8 16),
        s3 := S.s3 ^^^ be64 (slice K 16 20 ++ zeros 4) } := by
  have hpad : slice (K ++ zeros 4) 16 24 = slice K 16 20 ++ zeros 4 := by
    have hacross := slice_append_across (x := K) (i := 16) (by omega) (zeros 4) 4
    rwa [h] at hacross
  simp only [injectKey, h, slice_append_of_le (show 8 ≤ K.length by omega),
    slice_append_of_le (show 16 ≤ K.length by omega), hpad, xorWord, setWord, wordAt]

theorem finalize_eq (v : AeadVariant) (K : List Byte) (S : Words5) :
    finalize (aeadParams v) K S =
      (perm 12 (injectKey (aeadParams v).rate K S), tagOf K (perm 12 (injectKey (aeadParams v).rate K S))) := by
  rw [finalize, aeadParams_a]

end Sys2Proof.Machine

namespace Sys2Proof.Proofs.Aead

open Sys2Proof.Machine

/-- Settles O21: the buffer in five pieces of eight bytes. -/
theorem aeadInitialState : Obligations.AeadInitialState := by
  unfold Obligations.AeadInitialState
  refine fun K N hN => ⟨fun hK => ⟨aeadBuffer_length _ (by omega) hN, aeadBuffer_length _ (by omega) hN, ?_, ?_⟩,
    fun hK => ⟨aeadBuffer_length _ hK.le hN, ?_⟩⟩
  · rw [words5_aeadBuffer_of_16 _ hK hN]
    rfl
  · rw [words5_aeadBuffer_of_16 _ hK hN]
    rfl
  · exact words5_aeadBuffer_of_20 _ hK hN

/-- Settles O22: the words of the key tail (`keyTail_of_16`, `keyTail_of_20`); of a 20-byte key the first four bytes reach the low
half of `S[2]` alone. -/
theorem aeadInitXorsTheKey : Obligations.AeadInitXorsTheKey := by
  unfold Obligations.AeadInitXorsTheKey
  intro v K N _
  have hinit : aeadInit (aeadParams v) K N = xorWords (perm 12 (words5 (aeadBuffer (aeadParams v) K N))) (keyTail K) := by
    rw [aeadInit, aeadParams_a]
  refine ⟨fun hK => ?_, fun hK => ⟨?_, ?_⟩⟩
  · simp only [hinit, keyTail_of_16 hK, xorWords, BitVec.xor_zero]
  · simp only [hinit, keyTail_of_20 hK, xorWords, BitVec.xor_zero]
  · simp only [hinit, keyTail_of_20 hK, xorWords]
    rw [BitVec.ushiftRight_xor_distrib, be64_zeros_append_ushiftRight (by simp [hK]), BitVec.xor_zero]

/-- Settles O28: the pieces of the padded key, and the last 16 key bytes by the length of the key. -/
theorem finalizeSpelledOut : Obligations.FinalizeSpelledOut := by
  unfold Obligations.FinalizeSpelledOut
  intro K S
  refine ⟨fun hK => ?_, fun hK => ⟨injectKey_of_20 hK S, ?_⟩, fun v => finalize_eq v K S⟩
  · obtain ⟨hr8, hr16⟩ := injectKey_of_16 hK S
    refine ⟨hr8, hr16, ?_⟩
    rw [tagOf, hK]
  · rw [tagOf, hK]

end Sys2Proof.Proofs.Aead
end

section
/-! SUPPORT. The block loops of the AEAD engine as loops over block indices (41_aead.md R155 to R161), and the ciphertext tail in bytes and
in words (R162). -/

namespace Sys2Proof.Machine

/-! ## Rate blocks (20_memory.md R64, R66) -/

theorem blockAt_zero (p : List Byte) (rate : Rate) : blockAt p rate 0 = p.take (rateLen rate) := by
  rw [blockAt_eq_take_drop, Nat.zero_mul, List.drop_zero]

theorem blockAt_drop (p : List Byte) (rate : Rate) (i : Nat) :
    blockAt (p.drop (rateLen rate)) rate i = blockAt p rate (i + 1) := by
  rw [blockAt_eq_take_drop, blockAt_eq_take_drop, List.drop_drop, Nat.succ_mul, Nat.add_comm]

/-- A piece of a block is a piece of the sequence. -/
theorem slice_blockAt (p : List Byte) (rate : Rate) (i j : Nat) {k : Nat} (hk : k ≤ rateLen rate) :
    slice (blockAt p rate i) j k = slice p (i * rateLen rate + j) (i * rateLen rate + k) := by
  rw [blockAt_eq_take_drop, slice, slice, List.drop_take, List.drop_drop, List.take_take, Nat.add_sub_add_left,
    Nat.min_eq_left (by omega)]

/-- Block `i` of a sequence XORed into the rate words (41_aead.md R155, R157). -/
def addBlock (p : List Byte) (rate : Rate) (S : Words5) (i : Nat) : Words5 :=
  match rate with
  | .r8 => { S with s0 := S.s0 ^^^ be64 (slice p (i * 8) (i * 8 + 8)) }
  | .r16 =>
    { S with
      s0 := S.s0 ^^^ be64 (slice p (i * 16) (i * 16 + 8)), s1 := S.s1 ^^^ be64 (slice p (i * 16 + 8) (i * 16 + 16)) }

theorem addBlock_eq_xorRate (p : List Byte) (rate : Rate) (S : Words5) (i : Nat) :
    addBlock p rate S i = xorRate S rate (blockAt p rate i) := by
  cases rate with
  | r8 => rw [xorRate, slice_blockAt p .r8 i 0 (k := 8) le_rfl]; rfl
  | r16 => rw [xorRate, slice_blockAt p .r16 i 0 (k := 8) (by decide), slice_blockAt p .r16 i 8 (k := 16) le_rfl]; rfl

theorem addBlock_zero (p : List Byte) (rate : Rate) (S : Words5) :
    addBlock p rate S 0 = xorRate S rate (p.take (rateLen rate)) := by
  rw [addBlock_eq_xorRate, blockAt_zero]

theorem addBlock_drop (p : List Byte) (rate : Rate) :
    addBlock (p.drop (rateLen rate)) rate = fun S i => addBlock p rate S (i + 1) := by
  funext S i
  rw [addBlock_eq_xorRate, blockAt_drop, addBlock_eq_xorRate]

/-- The rate bytes become those they are set to. -/
theorem ratebytes_setrate (S : Words5) {rate : Rate} {v : List Byte} (h : v.length = rateLen rate) :
    ratebytes (setrate S rate v) rate = v := by
  cases rate with
  | r8 =>
    have hv : slice v 0 8 = v := List.take_of_length_le h.le
    rw [setrate, ratebytes, hv, bytes8_be64 h]
  | r16 =>
    rw [setrate, ratebytes, bytes8_be64 (by simp [h, rateLen]), bytes8_be64 (by simp [h, rateLen]), ← eq_slices_of_16 h]

/-! ## Associated data (41_aead.md R155) -/

theorem absorbBlocks_eq_foldl (b : Nat) (rate : Rate) (n : Nat) (p : List Byte) (S : Words5) :
    absorbBlocks b rate n p S = (List.range n).foldl (fun T i => perm b (addBlock p rate T i)) S := by
  induction n generalizing p S with
  | zero => rfl
  | succ n ih =>
    rw [absorbBlocks, ih, addBlock_drop, List.range_succ_eq_map, List.foldl_cons, List.foldl_map, addBlock_zero]

/-! ## Loops that emit bytes (41_aead.md R157, R159) -/

/-- A loop over block indices: block `i` emits bytes of the state it finds and leads to the next state. -/
def emitBlocks (next : Words5 → Nat → Words5) (emit : Words5 → Nat → List Byte) (is : List Nat) (S : Words5) :
    Words5 × List Byte :=
  is.foldl (fun acc i => (next acc.1 i, acc.2 ++ emit acc.1 i)) (S, [])

section
variable (next : Words5 → Nat → Words5) (emit : Words5 → Nat → List Byte)

/-- What has been emitted before stays in front. -/
theorem foldl_emit (is : List Nat) (S : Words5) (x : List Byte) :
    is.foldl (fun acc i => (next acc.1 i, acc.2 ++ emit acc.1 i)) (S, x) =
      ((emitBlocks next emit is S).1, x ++ (emitBlocks next emit is S).2) := by
  induction is generalizing S x with
  | nil => simp [emitBlocks]
  | cons i is ih =>
    have hcons : emitBlocks next emit (i :: is) S =
        is.foldl (fun acc i => (next acc.1 i, acc.2 ++ emit acc.1 i)) (next S i, emit S i) := rfl
    rw [List.foldl_cons, ih, hcons, ih, List.append_assoc]

/-- The first of `n + 1` blocks comes first, and the others are counted from it. -/
theorem emitBlocks_range_succ (n : Nat) (S : Words5) :
    emitBlocks next emit (List.range (n + 1)) S =
      let rest := emitBlocks (fun T i => next T (i + 1)) (fun T i => emit T (i + 1)) (List.range n) (next S 0)
      (rest.1, emit S 0 ++ rest.2) := by
  rw [emitBlocks, List.range_succ_eq_map, List.foldl_cons, List.foldl_map, List.nil_append]
  exact foldl_emit (fun T i => next T (i + 1)) (fun T i => emit T (i + 1)) (List.range n) (next S 0) (emit S 0)

end

/-! ## `EncryptData` (41_aead.md R157, R158) -/

/-- The interior blocks of `EncryptData` on the padded plaintext `p`. -/
def encryptInner (b : Nat) (rate : Rate) (n : Nat) (p : List Byte) (S : Words5) : Words5 × List Byte :=
  emitBlocks (fun T i => perm b (addBlock p rate T i)) (fun T i => ratebytes (addBlock p rate T i) rate) (List.range n) S

/-- The interior blocks, then the last one, cut and not permuted. -/
theorem encryptBlocks_eq_inner (b : Nat) (rate : Rate) (l n : Nat) (p : List Byte) (S : Words5) :
    encryptBlocks b rate l n p S =
      let inner := encryptInner b rate n p S
      let last := addBlock p rate inner.1 n
      (last, inner.2 ++ (ratebytes last rate).take l) := by
  induction n generalizing p S with
  | zero => simp only [encryptBlocks, encryptInner, emitBlocks, List.range_zero, List.foldl_nil, addBlock_zero, List.nil_append]
  | succ n ih =>
    simp only [encryptBlocks, ih, encryptInner, emitBlocks_range_succ, addBlock_drop, addBlock_zero, List.append_assoc]

/-! ## `DecryptData` (41_aead.md R159, R161) -/

/-- The interior blocks of `DecryptData` on the ciphertext `C`. -/
def decryptInner (b : Nat) (rate : Rate) (n : Nat) (C : List Byte) (S : Words5) : Words5 × List Byte :=
  emitBlocks (fun T i => perm b (setrate T rate (blockAt C rate i)))
    (fun T i => xorBytes (ratebytes T rate) (blockAt C rate i)) (List.range n) S

/-- The interior blocks, then the tail. -/
theorem decryptBlocks_eq_inner (b : Nat) (rate : Rate) (n : Nat) (C : List Byte) (S : Words5) :
    decryptBlocks b rate n C S =
      let inner := decryptInner b rate n C S
      let R := ratebytes inner.1 rate
      let Ct := C.drop (n * rateLen rate)
      (setrate inner.1 rate (tailRate R Ct), inner.2 ++ xorBytes R Ct) := by
  induction n generalizing C S with
  | zero =>
    simp only [decryptBlocks, decryptInner, emitBlocks, List.range_zero, List.foldl_nil, Nat.zero_mul, List.drop_zero,
      List.nil_append]
  | succ n ih =>
    simp only [decryptBlocks, ih, decryptInner, emitBlocks_range_succ, blockAt_drop, blockAt_zero, List.append_assoc,
      List.drop_drop, Nat.succ_mul, Nat.add_comm]

theorem decryptBlocks_length (b : Nat) (rate : Rate) {n : Nat} {C : List Byte} (hn : C.length / rateLen rate = n)
    (S : Words5) : (decryptBlocks b rate n C S).2.length = C.length := by
  induction n generalizing C S with
  | zero =>
    have hlt : C.length < rateLen rate := (Nat.div_eq_zero_iff_lt (rateLen_pos rate)).mp hn
    rw [decryptBlocks, xorBytes_length, ratebytes_length, Nat.min_eq_right hlt.le]
  | succ n ih =>
    have hle : rateLen rate ≤ C.length := (Nat.div_pos_iff.mp (by omega)).2
    have hdiv : (C.drop (rateLen rate)).length / rateLen rate = n := by
      rw [Nat.div_eq_sub_div (rateLen_pos rate) hle] at hn
      rw [List.length_drop]
      omega
    simp only [decryptBlocks, List.length_append, ih hdiv, xorBytes_length, ratebytes_length, List.length_take,
      List.length_drop]
    omega

/-- The plaintext is as long as the ciphertext (41_aead.md R161). -/
@[simp] theorem decryptData_length (b : Nat) (rate : Rate) (C : List Byte) (S : Words5) :
    (decryptData b rate C S).2.length = C.length :=
  decryptBlocks_length b rate rfl S

/-! ## The ciphertext tail (41_aead.md R162) -/

section
variable {R Ct : List Byte}

theorem tailRate_length (h : Ct.length < R.length) : (tailRate R Ct).length = R.length := by
  simp only [tailRate, List.length_append, List.length_cons, List.length_drop]
  omega

theorem tailRate_take (R Ct : List Byte) : (tailRate R Ct).take Ct.length = Ct := List.take_left

theorem tailRate_getElem?_length (R Ct : List Byte) :
    (tailRate R Ct)[Ct.length]? = some (R.getD Ct.length 0 ^^^ 0x80) := by
  simp [tailRate]

theorem tailRate_getElem?_of_lt (R : List Byte) {i : Nat} (h : Ct.length < i) : (tailRate R Ct)[i]? = R[i]? := by
  obtain ⟨k, rfl⟩ : ∃ k, i = Ct.length + (k + 1) := ⟨i - Ct.length - 1, by omega⟩
  rw [tailRate, List.getElem?_append_right (by omega), Nat.add_sub_cancel_left, List.getElem?_cons_succ,
    List.getElem?_drop, Nat.add_assoc, Nat.add_comm 1]

/-- A tail that ends in the first part of the rate bytes leaves the second part. -/
theorem tailRate_append_of_lt (h : Ct.length < R.length) (R' : List Byte) : tailRate (R ++ R') Ct = tailRate R Ct ++ R' := by
  rw [tailRate, tailRate, List.getD_append _ _ _ _ h, List.drop_append_of_le_length h, List.append_assoc, List.cons_append]

/-- A tail that covers the first part overwrites it and is a tail of the second. -/
theorem tailRate_append_of_ge (h : R.length ≤ Ct.length) (R' : List Byte) :
    tailRate (R ++ R') Ct = Ct.take R.length ++ tailRate R' (Ct.drop R.length) := by
  rw [tailRate, tailRate, List.getD_append_right _ _ _ _ h, List.length_drop, ← List.append_assoc,
    List.take_append_drop, List.drop_append, List.drop_of_length_le (by omega), List.nil_append,
    Nat.sub_add_comm h]

end

/-- XORing the padded last block of a plaintext in stores its ciphertext as a tail (41_aead.md R158, R162). -/
theorem ratebytes_addBlock_last (M : List Byte) (rate : Rate) (S : Words5) :
    ratebytes (addBlock (pad M rate) rate S (M.length / rateLen rate)) rate =
      tailRate (ratebytes S rate)
        (xorBytes (ratebytes S rate) (M.drop (M.length / rateLen rate * rateLen rate))) := by
  have hlen : (M.drop (M.length / rateLen rate * rateLen rate)).length = M.length % rateLen rate := by
    rw [List.length_drop, ← Nat.mod_eq_sub_div_mul]
  have hlt : (M.drop (M.length / rateLen rate * rateLen rate)).length < rateLen rate :=
    hlen.trans_lt (Nat.mod_lt _ (rateLen_pos rate))
  have hblock : blockAt (pad M rate) rate (M.length / rateLen rate) =
      pad (M.drop (M.length / rateLen rate * rateLen rate)) rate := by
    rw [blockAt_pad_last, pad, Nat.mod_eq_of_lt hlt, hlen]
  have hpad : (pad (M.drop (M.length / rateLen rate * rateLen rate)) rate).length = rateLen rate := by
    rw [pad_length, Nat.div_eq_of_lt hlt, Nat.zero_add, Nat.one_mul]
  rw [addBlock_eq_xorRate, hblock, ratebytes_xorRate S hpad, tailRate_xorBytes (ratebytes_length S rate) hlt]

/-- The bytes of a word that stay under a tail of `l` bytes (41_aead.md R162). -/
def tailMask (l : Nat) : Word := 0xFFFFFFFFFFFFFFFF >>> (8 * (l % 8))

/-- The marker byte 0x80 at byte `l` of a word (41_aead.md R162). -/
def tailMarker (l : Nat) : Word := 0x80 <<< (8 * (7 - l % 8))

theorem bytes8_and (x y : Word) : bytes8 (x &&& y) = List.zipWith (· &&& ·) (bytes8 x) (bytes8 y) := by
  simp [bytes8, List.zipWith_map, List.zipWith_self, BitVec.extractLsb'_and]

theorem bytes8_tailMask : ∀ l < 8, bytes8 (tailMask l) = zeros l ++ List.replicate (8 - l) 0xFF#8 := by decide

theorem bytes8_tailMarker : ∀ l < 8, bytes8 (tailMarker l) = zeros l ++ 0x80 :: zeros (7 - l) := by decide

/-- A byte sequence under the mask: zeros, then its own bytes. -/
theorem zipWith_and_mask {R : List Byte} {l : Nat} (h : l ≤ R.length) :
    List.zipWith (· &&& ·) R (zeros l ++ List.replicate (R.length - l) 0xFF#8) = zeros l ++ R.drop l := by
  refine List.ext_getElem (by simp [h]) fun i hi _ => ?_
  by_cases hil : i < l
  · simp [zeros, hil]
  · simp only [List.getElem_zipWith, List.getElem_append, zeros_length, hil, dite_false, List.getElem_replicate,
      List.getElem_drop, Nat.add_sub_cancel' (Nat.not_lt.mp hil)]
    exact BitVec.and_allOnes

/-- The tail as an XOR of three sequences: the ciphertext, the old bytes behind it, and the marker. -/
theorem tailRate_eq_xorBytes {R t : List Byte} (h : t.length < R.length) :
    tailRate R t =
      xorBytes (xorBytes (t ++ zeros (R.length - t.length)) (zeros t.length ++ R.drop t.length))
        (zeros t.length ++ 0x80 :: zeros (R.length - 1 - t.length)) := by
  have hzeros (x : List Byte) : xorBytes (zeros x.length) x = x := by
    rw [xorBytes, List.zipWith_comm_of_comm (fun a b => BitVec.xor_comm a b)]
    exact xorBytes_zeros x
  have hold : R.drop t.length = R.getD t.length 0 :: R.drop (t.length + 1) := by
    rw [List.drop_eq_getElem_cons h, List.getD_eq_getElem _ _ h]
  have hbehind : R.length - t.length = (R.drop t.length).length := List.length_drop.symm
  have habove : R.length - 1 - t.length = (R.drop (t.length + 1)).length := by rw [List.length_drop]; omega
  rw [hbehind, habove, xorBytes_append (by simp), xorBytes_zeros, hzeros, xorBytes_append (by simp), xorBytes_zeros, hold]
  conv_lhs => rw [tailRate, ← xorBytes_zeros (R.drop (t.length + 1))]
  rfl

/-- The masked word form of the tail (41_aead.md R162), byte by byte: below the marker the old bytes are masked out, above it the
tail and the marker are zeros. -/
theorem be64_tailRate (w : Word) {t : List Byte} (ht : t.length < 8) :
    be64 (tailRate (bytes8 w) t) =
      be64 (t ++ zeros (8 - t.length)) ^^^ (w &&& tailMask t.length) ^^^ tailMarker t.length := by
  have hw : (bytes8 w).length = 8 := bytes8_length w
  have hmask := zipWith_and_mask (R := bytes8 w) (l := t.length) (by omega)
  have htail := tailRate_eq_xorBytes (R := bytes8 w) (t := t) (by omega)
  rw [hw] at hmask htail
  rw [← be64_bytes8 (_ ^^^ _ ^^^ _), bytes8_xor, bytes8_xor, bytes8_be64 (by simp; omega), bytes8_and,
    bytes8_tailMask _ ht, bytes8_tailMarker _ ht, hmask, ← htail]

/-- The state after a tail that ends in the first word: the other words stay. -/
theorem setrate_tail_first (S : Words5) {t : List Byte} (ht : t.length < 8) (rate : Rate) :
    setrate S rate (tailRate (ratebytes S rate) t) =
      { S with s0 := be64 (t ++ zeros (8 - t.length)) ^^^ (S.s0 &&& tailMask t.length) ^^^ tailMarker t.length } := by
  have hlen : (tailRate (bytes8 S.s0) t).length = 8 := tailRate_length (by simpa using ht)
  rw [← be64_tailRate S.s0 ht]
  cases rate with
  | r8 =>
    have hv : slice (tailRate (bytes8 S.s0) t) 0 8 = tailRate (bytes8 S.s0) t := List.take_of_length_le hlen.le
    rw [ratebytes, setrate, hv]
  | r16 =>
    have hs1 : slice (bytes8 S.s1) 0 8 = bytes8 S.s1 := List.take_of_length_le (bytes8_length _).le
    have hv : slice (tailRate (bytes8 S.s0) t) 0 8 = tailRate (bytes8 S.s0) t := List.take_of_length_le hlen.le
    rw [ratebytes, tailRate_append_of_lt (by simpa using ht), setrate, slice_append_of_le hlen.ge,
      slice_append_of_ge hlen.le, hlen, hv, hs1, be64_bytes8]

/-- The state after a tail that ends in the second word: the first word is overwritten. -/
theorem setrate_tail_second (S : Words5) {t : List Byte} (hlo : 8 ≤ t.length) (hhi : t.length < 16) :
    setrate S .r16 (tailRate (ratebytes S .r16) t) =
      { S with
        s0 := be64 (t.take 8),
        s1 := be64 (t.drop 8 ++ zeros (16 - t.length)) ^^^ (S.s1 &&& tailMask t.length) ^^^ tailMarker t.length } := by
  have htake : (t.take 8).length = 8 := by simpa using hlo
  have hdrop : (t.drop 8).length < 8 := by rw [List.length_drop]; omega
  have hmod : (t.length - 8) % 8 = t.length % 8 := (Nat.mod_eq_sub_mod hlo).symm
  have hlen : (tailRate (bytes8 S.s1) (t.drop 8)).length = 8 := tailRate_length (by simpa using hdrop)
  have hword := be64_tailRate S.s1 hdrop
  rw [List.length_drop, tailMask, tailMarker, hmod, show 8 - (t.length - 8) = 16 - t.length by omega] at hword
  have h0 : slice (t.take 8) 0 8 = t.take 8 := List.take_of_length_le htake.le
  have h1 : slice (tailRate (bytes8 S.s1) (t.drop 8)) 0 8 = tailRate (bytes8 S.s1) (t.drop 8) :=
    List.take_of_length_le hlen.le
  rw [ratebytes, tailRate_append_of_ge (by simpa using hlo), bytes8_length, setrate, slice_append_of_le htake.ge,
    slice_append_of_ge htake.le, htake, h0, h1, hword, tailMask, tailMarker]

end Sys2Proof.Machine

namespace Sys2Proof.Proofs.Aead

open Sys2Proof.Machine

/-- Settles O23: the loop over the padded blocks (`absorbBlocks_eq_foldl`), with each block spelled out for its rate. -/
theorem absorbAssociatedData : Obligations.AbsorbAssociatedData := by
  unfold Obligations.AbsorbAssociatedData
  intro b rate A S p add
  have hadd : add = addBlock p rate := rfl
  rw [hadd, ← absorbBlocks_eq_foldl, absorbAD]
  by_cases hnil : A.length = 0
  · rw [if_pos hnil, if_neg (by omega)]
    rfl
  · rw [if_neg hnil, if_pos (by omega)]
    rfl

/-- Settles O24: the loop of `encryptBlocks_eq_inner`; the last block is the rest of the plaintext with its padding, and XORing it in is
what R162 says of the tail (`tailRate_xorBytes`). -/
theorem encryptDataBlocks : Obligations.EncryptDataBlocks := by
  unfold Obligations.EncryptDataBlocks
  intro b rate M S p n l add
  have hadd : add = addBlock p rate := rfl
  rw [hadd]
  intro inner last
  have hloop : encryptData b rate M S = (last, inner.2 ++ (ratebytes last rate).take l) :=
    encryptBlocks_eq_inner b rate l n p S
  have hlast := ratebytes_addBlock_last M rate inner.1
  have hl : l = (xorBytes (ratebytes inner.1 rate) (M.drop (n * rateLen rate))).length := by
    rw [xorBytes_length, ratebytes_length, List.length_drop, ← Nat.mod_eq_sub_div_mul,
      Nat.min_eq_right (Nat.mod_lt _ (rateLen_pos rate)).le]
  refine ⟨hloop, encryptData_length b rate M S, ?_, fun i hi => ?_⟩
  · rw [hlast, hl]
    exact tailRate_getElem?_length _ _
  · rw [hlast]
    exact tailRate_getElem?_of_lt _ (hl ▸ hi)

/-- Settles O25: the loop of `decryptBlocks_eq_inner`. -/
theorem decryptDataBlocks : Obligations.DecryptDataBlocks := by
  unfold Obligations.DecryptDataBlocks
  intro b rate C S n inner Ct
  have hloop : decryptData b rate C S = _ := decryptBlocks_eq_inner b rate n C S
  rw [hloop]
  refine ⟨rfl, ?_, rfl⟩
  rw [← hloop, decryptData_length]

/-- Settles O26: the three parts of the tail, and the word that holds byte `l`. -/
theorem decryptTailInWordForm : Obligations.DecryptTailInWordForm := by
  unfold Obligations.DecryptTailInWordForm
  intro S Ct mask padw l
  refine ⟨fun rate hl => ?_, fun hl => ⟨setrate_tail_first S hl .r8, setrate_tail_first S hl .r16⟩,
    fun hlo hhi => setrate_tail_second S hlo hhi⟩
  have hlen : Ct.length < (ratebytes S rate).length := hl.trans_eq (ratebytes_length S rate).symm
  intro R T
  have hT : T = tailRate R Ct := ratebytes_setrate S ((tailRate_length hlen).trans (ratebytes_length S rate))
  rw [hT]
  exact ⟨tailRate_take R Ct, tailRate_getElem?_length R Ct, fun i hi => tailRate_getElem?_of_lt R hi⟩

/-- Settles O27 (41_aead.md R163), block by block (`decryptBlocks_encryptBlocks`). -/
theorem decryptDataInvertsEncryptData : Obligations.DecryptDataInvertsEncryptData := by
  unfold Obligations.DecryptDataInvertsEncryptData
  exact fun S rate b M => decryptData_encryptData b rate M S

end Sys2Proof.Proofs.Aead
end

section
/-! SUPPORT. What an engine command that completes leaves (10_state.md R24, R35, R42), and what a `DECRYPT` with another tag ends in
(41_aead.md R167, 60_exceptions.md R240). -/

namespace Sys2Proof.Machine

/-! ## The end of an engine command (41_aead.md R166) -/

section
variable (s : State) {result : List Byte} {n : Nat} (hlen : result.length = n)
include hlen

theorem read?_finishEngine_inside {i : Nat} (hi : i < n) :
    Memory.read? (finishEngine n (writeDout s 0 result)).dout i = result[i]? :=
  (Memory.read?_writeBytes s.dout 0 result i).trans (if_pos (by omega))

theorem read?_finishEngine_outside {i : Nat} (hi : n ≤ i) :
    Memory.read? (finishEngine n (writeDout s 0 result)).dout i = Memory.read? s.dout i :=
  (Memory.read?_writeBytes s.dout 0 result i).trans (if_neg (by omega))

end

theorem olen_finishEngine {n : Nat} (hn : n < 2 ^ 32) (s : State) : (finishEngine n s).olen.toNat = n :=
  (BitVec.toNat_ofNat n 32).trans (Nat.mod_eq_of_lt hn)

/-- On an idle block a command that completes with `n` bytes of result changes those bytes of `DOUT`, its report, and the
hidden registers alone (10_state.md R24, R35, R40, R42). -/
theorem finishEngine_spec {s : State} (hjob : s.job = none) {n : Nat} (hn : n < 2 ^ 32) (b : Byte) {result : List Byte}
    (hlen : result.length = n) :
    let t := finishEngine n (writeDout (accept b s) 0 result)
    (∀ i, i < n → Memory.read? t.dout i = result[i]?)
      ∧ (∀ i, n ≤ i → Memory.read? t.dout i = Memory.read? s.dout i)
      ∧ t.olen.toNat = n
      ∧ clearLoops t =
        clearLoops
          { s with
            S := ⟨0, 0, 0, 0, 0⟩, cmd := b, status := 0x02, olen := t.olen, dout := t.dout, phase := .finalized,
            tagc := Vector.replicate 16 0 } := by
  refine ⟨fun _ hi => read?_finishEngine_inside _ hlen hi, fun _ hi => read?_finishEngine_outside _ hlen hi,
    olen_finishEngine hn _, ?_⟩
  cases s
  cases hjob
  rfl

/-- A length that fits into `DIN` leaves room for a tag in `OLEN` (00_scope.md R10). -/
theorem Capacities.add_tag_lt_of_le_din {c : Capacities} (h : c.Legal) {n : Nat} (hn : n ≤ c.din) : n + 16 < 2 ^ 32 := by
  obtain ⟨-, -, -, hdin, -⟩ := h
  omega

/-! ## The verdict on the tag (41_aead.md R167, 60_exceptions.md R240) -/

/-- A `DECRYPT` that passes its checks and finds another tag ends with `AuthenticationFailed`. -/
theorem exec_decrypt_of_forged {arg : BitVec 4} {v : AeadVariant} {s : State} {r : List Byte × List Byte}
    (h : DecryptReady arg v s) (hr : aeadDecrypt v (keyOf s v) (nonceOf s) (adOf s) (ciphertextOf s) = r)
    (htag : r.2 ≠ receivedTag s) :
    exec (.decrypt arg) s =
      .next (rejectPlaintext (s.dlen.toNat - 16) (writeDout (accept (encodeByte (.decrypt arg)) s) 0 r.1)) := by
  have hvalid := decryptReady_iff (b := encodeByte (.decrypt arg)).mp h
  obtain ⟨e, he, -⟩ | ⟨w, hw, r', hr', hend⟩ := execDecrypt_cases arg s
  · cases he.symm.trans hvalid
  · cases hw.symm.trans hvalid
    cases hr'.trans hr
    obtain ⟨heq, -⟩ | ⟨-, hexec⟩ := hend
    · exact absurd heq htag
    · exact hexec

@[simp] theorem err_rejectPlaintext (n : Nat) (s : State) : (rejectPlaintext n s).err = 7 := err_raiseError ..

/-- A `DECRYPT` reports no error only when the tags agree (60_exceptions.md R240). -/
theorem receivedTag_of_err_zero {arg : BitVec 4} {v : AeadVariant} {s t : State} (h : DecryptReady arg v s)
    (hexec : exec (.decrypt arg) s = .next t) (herr : t.err = 0) :
    (aeadDecrypt v (keyOf s v) (nonceOf s) (adOf s) (ciphertextOf s)).2 = receivedTag s := by
  by_contra hne
  cases (exec_decrypt_of_forged h rfl hne).symm.trans hexec
  rw [err_rejectPlaintext] at herr
  exact absurd herr (by decide)

end Sys2Proof.Machine

namespace Sys2Proof.Proofs.Aead

open Sys2Proof.Machine

/-- Settles O29: the command completes with the result of `aeadEncrypt`, as long as the plaintext and a tag. -/
theorem encryptRuns : Obligations.EncryptRuns := by
  unfold Obligations.EncryptRuns
  intro s arg v hidle hlegal hready p K N A M d result
  have hlen : result.length = s.dlen.toNat + 16 := (aeadEncrypt_length v K N A M).trans (by rw [memRead_length])
  have ⟨_, _, _, _, hdin⟩ := hready
  exact ⟨hlen, _, exec_encrypt_of_ready hready,
    finishEngine_spec hidle.2 (Capacities.add_tag_lt_of_le_din hlegal hdin) (encodeByte (.encrypt arg)) hlen⟩

/-- Settles O30: with the tags equal the command completes with the plaintext of `aeadDecrypt`, as long as the ciphertext. -/
theorem decryptReleasesAuthenticPlaintext : Obligations.DecryptReleasesAuthenticPlaintext := by
  unfold Obligations.DecryptReleasesAuthenticPlaintext
  intro s arg v hidle hlegal hready p K N A C d
  have hlen : d.2.length = s.dlen.toNat - 16 := (decryptData_length ..).trans (memRead_length ..)
  have ⟨⟨_, _, _, _, hdin⟩, _⟩ := hready
  have hn : s.dlen.toNat - 16 < 2 ^ 32 := by have := Capacities.add_tag_lt_of_le_din hlegal hdin; omega
  exact ⟨hlen, fun htag => ⟨_, exec_decrypt_of_authentic hready rfl htag,
    finishEngine_spec hidle.2 hn (encodeByte (.decrypt arg)) hlen⟩⟩

/-- Settles O32: the candidate tag is that of the same key, nonce, associated data and ciphertext; it equals the first received tag, so it
differs from the second. -/
theorem anyOtherTagFails : Obligations.AnyOtherTagFails := by
  unfold Obligations.AnyOtherTagFails
  intro s din arg v t hready hexec herr hsame hother
  obtain ⟨i, hlo, hhi, hne⟩ := hother
  have hcipher : ciphertextOf { s with din := din } = ciphertextOf s := memRead_congr hsame
  have htags : receivedTag s ≠ receivedTag { s with din := din } := fun heq => by
    have hbyte := (memRead_eq_iff s { s with din := din } .din _ _).mp heq (i - (s.dlen.toNat - 16))
      (by rw [tagBytes]; omega)
    rw [tagBytes, Nat.add_sub_cancel' hlo] at hbyte
    exact hne hbyte.symm
  have htag := receivedTag_of_err_zero hready hexec herr
  rw [← hcipher] at htag
  exact ⟨_, exec_decrypt_of_forged (s := { s with din := din }) hready rfl (htag.trans_ne htags), err_rejectPlaintext ..⟩

end Sys2Proof.Proofs.Aead
end

section
/-! SUPPORT. The hash engine (42_hash_xof.md R200 to R207): the loaded state, the block loop of the message, and the digest byte by
byte. -/

namespace Sys2Proof.Machine

/-! ## The initial state (42_hash_xof.md R201, R202) -/

@[simp] theorem hashBuffer_length (p : HashParams) : (hashBuffer p).length = 40 := by simp [hashBuffer]

/-- The parameters fill the first word, and the rest of the state is 0. -/
theorem words5_hashBuffer (p : HashParams) :
    words5 (hashBuffer p) =
      ⟨be64 ([0x00, 0x40, BitVec.ofNat 8 p.a, BitVec.ofNat 8 (p.a - p.b)] ++ be32 p.tagbits), 0, 0, 0, 0⟩ := by
  have hzeros : zeros 32 = zeros 8 ++ (zeros 8 ++ (zeros 8 ++ zeros 8)) := rfl
  rw [hashBuffer, hzeros, words5_append (by simp) (by simp) (by simp) (by simp) (by simp), be64_zeros]
  rfl

/-! ## The message (42_hash_xof.md R203) -/

/-- The blocks before the last are absorbed as those of associated data are; `P(S, a)` follows the last one. -/
theorem absorbMessageBlocks_eq_absorbBlocks (p : HashParams) (n : Nat) (q : List Byte) (S : Words5) :
    absorbMessageBlocks p n q S = perm p.a (addBlock q .r8 (absorbBlocks p.b .r8 n q S) n) := by
  induction n generalizing q S with
  | zero => rw [addBlock_zero]; rfl
  | succ n ih =>
    have hdrop (T : Words5) : addBlock (q.drop 8) .r8 T n = addBlock q .r8 T (n + 1) := congrFun₂ (addBlock_drop q .r8) T n
    rw [absorbMessageBlocks, ih, hdrop]
    rfl

/-- Both permutations in one loop over the block indices. -/
theorem absorbMessageBlocks_eq_foldl (p : HashParams) (n : Nat) (q : List Byte) (S : Words5) :
    absorbMessageBlocks p n q S =
      (List.range (n + 1)).foldl
        (fun T i => if i < n then perm p.b (addBlock q .r8 T i) else perm p.a (addBlock q .r8 T i)) S := by
  rw [absorbMessageBlocks_eq_absorbBlocks, absorbBlocks_eq_foldl, List.range_succ, List.foldl_append, List.foldl_cons,
    List.foldl_nil, if_neg n.lt_irrefl]
  congr 2
  exact List.foldl_ext _ _ _ fun T i hi => (if_pos (List.mem_range.mp hi)).symm

/-! ## The digest (42_hash_xof.md R204, R206) -/

/-- Byte `i` of the output is byte `i mod 8` of block `i div 8`. -/
theorem squeezeBlocks_getElem? (b : Nat) {k i : Nat} (hi : i < 8 * k) (S : Words5) :
    (squeezeBlocks b k S)[i]? = (bytes8 ((perm b)^[i / 8] S).s0)[i % 8]? := by
  induction k generalizing i S with
  | zero => omega
  | succ k ih =>
    by_cases hlt : i < 8
    · rw [squeezeBlocks, List.getElem?_append_left (by simpa using hlt), Nat.div_eq_of_lt hlt, Nat.mod_eq_of_lt hlt]
      rfl
    · obtain ⟨j, rfl⟩ := Nat.exists_eq_add_of_le' (Nat.not_lt.mp hlt)
      rw [squeezeBlocks, List.getElem?_append_right (by simp), bytes8_length, Nat.add_sub_cancel, ih (by omega),
        Nat.add_div_right j (by decide), Nat.add_mod_right, Function.iterate_succ_apply]

@[simp] theorem squeeze_length (b n : Nat) (S : Words5) : (squeeze b n S).length = n := by
  rw [squeeze, List.length_take, squeezeBlocks_length]
  omega

theorem squeeze_getElem? (b : Nat) {n i : Nat} (hi : i < n) (S : Words5) :
    (squeeze b n S)[i]? = (bytes8 ((perm b)^[i / 8] S).s0)[i % 8]? := by
  rw [squeeze, List.getElem?_take_of_lt hi, squeezeBlocks_getElem? b (by omega)]

/-- The bytes of a digest do not depend on its length. -/
theorem squeeze_eq_take (b : Nat) {n m : Nat} (h : n ≤ m) (S : Words5) : squeeze b n S = (squeeze b m S).take n := by
  refine List.ext_getElem? fun i => ?_
  by_cases hi : i < n
  · rw [List.getElem?_take_of_lt hi, squeeze_getElem? b hi, squeeze_getElem? b (hi.trans_le h)]
  · rw [List.getElem?_eq_none (by simpa using hi), List.getElem?_eq_none (by simp; omega)]

/-! ## The command (42_hash_xof.md R200) -/

theorem digestLen_eq_ite (s : State) (v : HashVariant) :
    digestLen s v = if v = .hash ∨ v = .hasha then 32 else s.hlen.toNat := by
  simp only [digestLen, hashParams_fixed_iff, hashBytes]

/-- The length of a digest fits into `OLEN` (00_scope.md R7, 10_state.md R34). -/
theorem digestLen_lt (s : State) (v : HashVariant) : digestLen s v < 2 ^ 32 := by
  unfold digestLen
  split
  · decide
  · exact s.hlen.isLt

end Sys2Proof.Machine

namespace Sys2Proof.Proofs.HashXof

open Sys2Proof.Machine

/-- Settles O37: the first word of the loaded state (`words5_hashBuffer`) and twelve rounds on it, computed for each variant. -/
theorem hashInitialStates : Obligations.HashInitialStates := by
  unfold Obligations.HashInitialStates
  simp only [hashInit, words5_hashBuffer]
  exact ⟨fun v => hashBuffer_length _, by decide +kernel, by decide +kernel, by decide +kernel, by decide +kernel,
    by decide +kernel, by decide +kernel, by decide +kernel, by decide +kernel⟩

/-- Settles O38: the loop of `absorbMessageBlocks_eq_foldl` over the padded message. -/
theorem absorbMessageBlocks : Obligations.AbsorbMessageBlocks := by
  unfold Obligations.AbsorbMessageBlocks
  intro p Msg S t
  rw [absorbMessage, absorbMessageBlocks_eq_foldl]
  simp only [addBlock, t, Nat.add_sub_cancel, Nat.mul_comm 8]

/-- Settles O39: the bytes of the output blocks (`squeezeBlocks_getElem?`), cut to the length. -/
theorem squeezeEmitsWordZero : Obligations.SqueezeEmitsWordZero := by
  unfold Obligations.SqueezeEmitsWordZero
  exact fun b n S => ⟨squeeze_length b n S, fun i hi => squeeze_getElem? b hi S⟩

/-- Settles O40: no byte of a digest depends on its length (`squeeze_eq_take`); the digests of the empty message are computed. -/
theorem xofPrefix : Obligations.XofPrefix := by
  unfold Obligations.XofPrefix
  exact ⟨fun v Msg n m _ h => squeeze_eq_take _ h _, by decide +kernel⟩

/-- Settles O41: the command completes with the digest, as long as the variant or `HLEN` says. -/
theorem hashRuns : Obligations.HashRuns := by
  unfold Obligations.HashRuns
  intro s arg v hidle _ hready p n Msg H
  have hn : digestLen s v = n := digestLen_eq_ite s v
  have hexec := exec_hash_of_ready hready
  rw [hn] at hexec
  exact ⟨_, hexec, finishEngine_spec hidle.2 (hn ▸ digestLen_lt s v) (encodeByte (.hash arg)) (digest_length v n Msg)⟩

/-- Settles O42: the message and the length of the digest are the same in both states, and everything observed is a function of
them. -/
theorem hashReadsOnlyItsInputs : Obligations.HashReadsOnlyItsInputs := by
  unfold Obligations.HashReadsOnlyItsInputs
  intro s u arg v hs hu hdlen hhlen hdin
  have edata : dataOf s = dataOf u := by rw [dataOf, dataOf, ← hdlen]; exact memRead_congr hdin
  have elen : digestLen s v = digestLen u v := by rw [digestLen, digestLen, hhlen]
  have hrun := exec_hash_of_ready hu
  rw [← edata, ← elen] at hrun
  refine ⟨_, _, exec_hash_of_ready hs, hrun, rfl, rfl, rfl, fun i hi => ?_⟩
  exact read?_writeBytes_congr s.dout u.dout _ (by rwa [digest_length])

end Sys2Proof.Proofs.HashXof
end

section
/-! SUPPORT. The first check of a command that fails and what it leaves (60_exceptions.md R236, R237, R241), the report at rest (R244),
and what a `DECRYPT` with another tag leaves (R240). -/

namespace Sys2Proof.Machine

/-! ## The first check that fails (60_exceptions.md R241) -/

/-- The error a validation ends in, if any. -/
def failure {α : Type} : Except ErrorKind α → Option ErrorKind
  | .error e => some e
  | .ok _ => none

/-- The error of the first check of a command that fails, none when it passes them all. -/
def failedCheck (i : Instr) (s : State) : Option ErrorKind :=
  match i with
  | .encrypt arg => failure (validateAead .encrypt arg s)
  | .decrypt arg => failure (validateAead .decrypt arg s)
  | .hash arg => failure (validateHash arg s)
  | .permute n => failure (validateRounds n)

/-- The code that `ERR` holds for it. -/
def reportedCode (e : Option ErrorKind) : BitVec 4 := e.elim 0 errCode

theorem failure_eq_some {α : Type} {x : Except ErrorKind α} {e : ErrorKind} : failure x = some e ↔ x = .error e := by
  cases x <;> simp [failure]

theorem failure_eq_none {α : Type} {x : Except ErrorKind α} : failure x = none ↔ ∃ a, x = .ok a := by
  cases x <;> simp [failure]

/-- A command raises the error of the first check that fails. -/
theorem exec_of_failedCheck_eq_some {i : Instr} {s : State} {e : ErrorKind} (h : failedCheck i s = some e) :
    exec i s = .next (raiseError e (accept (encodeByte i) s)) := by
  cases i with
  | encrypt arg => exact exec_encrypt_of_error (failure_eq_some.mp h)
  | decrypt arg => exact exec_decrypt_of_error (failure_eq_some.mp h)
  | hash arg => exact exec_hash_of_error (failure_eq_some.mp h)
  | permute n =>
    obtain ⟨rfl, hn⟩ := validateRounds_error (failure_eq_some.mp h)
    exact exec_permute_of_illegal hn s

/-- A command that passes its checks reports no error, but for the verdict of a `DECRYPT` on the tag (41_aead.md R167). -/
theorem exec_of_failedCheck_eq_none {i : Instr} {s : State} (h : failedCheck i s = none) :
    ∃ t, exec i s = .next t ∧ (t.err = 0 ∨ (∃ arg, i = .decrypt arg) ∧ t.err = 7) := by
  cases i with
  | encrypt arg =>
    obtain ⟨v, hv⟩ := failure_eq_none.mp h
    exact ⟨_, exec_encrypt_of_ready (encryptReady_iff (b := 0).mpr hv), .inl (err_finishEngine ..)⟩
  | decrypt arg =>
    obtain ⟨v, hv⟩ := failure_eq_none.mp h
    have hready : DecryptReady arg v s := decryptReady_iff (b := 0).mpr hv
    by_cases htag : (aeadDecrypt v (keyOf s v) (nonceOf s) (adOf s) (ciphertextOf s)).2 = receivedTag s
    · exact ⟨_, exec_decrypt_of_authentic hready rfl htag, .inl (err_finishEngine ..)⟩
    · exact ⟨_, exec_decrypt_of_forged hready rfl htag, .inr ⟨⟨arg, rfl⟩, err_rejectPlaintext ..⟩⟩
  | hash arg =>
    obtain ⟨v, hv⟩ := failure_eq_none.mp h
    exact ⟨_, exec_hash_of_ready (hashReady_iff (b := 0).mpr hv), .inl (err_finishEngine ..)⟩
  | permute n =>
    obtain ⟨k, hk⟩ := failure_eq_none.mp h
    obtain ⟨-, hlo, hhi⟩ := validateRounds_ok hk
    exact ⟨_, exec_permute_of_legal hlo hhi s, .inl (err_complete ..)⟩

/-- `ERR` after a command, `DECRYPT` left out. -/
theorem exec_err {i : Instr} (hi : ∀ arg, i ≠ .decrypt arg) (s : State) :
    ∃ t, exec i s = .next t ∧ t.err = reportedCode (failedCheck i s) := by
  cases h : failedCheck i s with
  | none =>
    obtain ⟨t, ht, herr | ⟨⟨arg, harg⟩, -⟩⟩ := exec_of_failedCheck_eq_none h
    · exact ⟨t, ht, herr⟩
    · exact absurd harg (hi arg)
  | some e => exact ⟨_, exec_of_failedCheck_eq_some h, err_raiseError ..⟩

/-- `ERR` after a `DECRYPT`. -/
theorem exec_decrypt_err (arg : BitVec 4) (s : State) :
    ∃ t, exec (.decrypt arg) s = .next t
      ∧ (t.err = reportedCode (failedCheck (.decrypt arg) s)
        ∨ reportedCode (failedCheck (.decrypt arg) s) = 0 ∧ t.err = 7) := by
  cases h : failedCheck (.decrypt arg) s with
  | none =>
    obtain ⟨t, ht, herr | ⟨-, herr⟩⟩ := exec_of_failedCheck_eq_none h
    · exact ⟨t, ht, .inl herr⟩
    · exact ⟨t, ht, .inr ⟨rfl, herr⟩⟩
  | some e => exact ⟨_, exec_of_failedCheck_eq_some h, .inl (err_raiseError ..)⟩

/-! ## The order of the checks (60_exceptions.md R241) -/

theorem reportedCode_validateAead (dir : Direction) (arg : BitVec 4) (s : State) :
    reportedCode (failure (validateAead dir arg s)) =
      if 3 ≤ arg.toNat then 1
      else if s.klen.toNat ≠ (if arg.toNat = 2 then 20 else 16) then 3
      else if s.nlen.toNat ≠ 16 then 4
      else if dir = .decrypt ∧ s.dlen.toNat < 16 then 6
      else if s.adlen.toNat > s.caps.ad ∨ s.dlen.toNat > s.caps.din then 10
      else 0 := by
  cases hv : aeadVariant? arg with
  | none =>
    have harg := aeadVariant?_none.mp hv
    rw [validateAead_of_illegal harg, if_pos harg]
    rfl
  | some v =>
    obtain ⟨harg, hklen⟩ := aeadVariant?_arg hv
    rw [if_neg (by omega), ← hklen]
    simp only [validateAead, hv, apply_ite failure, apply_ite reportedCode]
    rfl

theorem reportedCode_validateHash (arg : BitVec 4) (s : State) :
    reportedCode (failure (validateHash arg s)) =
      if 4 ≤ arg.toNat then 2
      else if arg.toNat ≤ 1 ∧ s.hlen.toNat ≠ 32 then 5
      else if s.dlen.toNat > s.caps.din then 10
      else if 2 ≤ arg.toNat ∧ s.hlen.toNat > s.caps.dout then 10
      else 0 := by
  cases hv : hashVariant? arg with
  | none =>
    have harg := hashVariant?_none.mp hv
    rw [validateHash_of_illegal harg, if_pos harg]
    rfl
  | some v =>
    obtain ⟨harg, hfixed⟩ := hashVariant?_arg hv
    have hvariable : (hashParams v).fixed = false ↔ 2 ≤ arg.toNat := by
      rw [← Bool.not_eq_true, hfixed]
      omega
    rw [if_neg (by omega)]
    simp only [validateHash, hv, apply_ite failure, apply_ite reportedCode, hfixed, hvariable]
    rfl

theorem reportedCode_validateRounds (n : BitVec 4) :
    reportedCode (failure (validateRounds n)) = if n.toNat = 0 ∨ 13 ≤ n.toNat then 9 else 0 := by
  simp only [validateRounds, apply_ite failure, apply_ite reportedCode]
  rfl

/-! ## A validation error (60_exceptions.md R236, R237) -/

/-- Any error but `AuthenticationFailed` is raised before a command has done anything. -/
theorem commandWrite_of_validationError {b : Byte} {s t : State} (hb : s.busy = false)
    (h : commandWrite b s = .next t) (h0 : t.err ≠ 0) (h7 : t.err ≠ 7) : ∃ e, t = raiseError e (accept b s) := by
  obtain ⟨hbusy, -⟩ | ⟨-, ⟨i, hi, hexec⟩ | ⟨-, rfl⟩⟩ := commandWrite_cases h
  · cases hb.symm.trans hbusy
  · rw [← encodeByte_of_decodeByte hi]
    cases hcheck : failedCheck i s with
    | none =>
      obtain ⟨u, hu, herr⟩ := exec_of_failedCheck_eq_none hcheck
      cases hu.symm.trans hexec
      obtain herr | ⟨-, herr⟩ := herr
      · exact absurd herr h0
      · exact absurd herr h7
    | some e =>
      cases (exec_of_failedCheck_eq_some hcheck).symm.trans hexec
      exact ⟨e, rfl⟩
  · exact ⟨.illegalCommand, rfl⟩

theorem hostByte_dout_of_olen_eq_zero {s : State} (h : s.olen = 0) (i : Nat) : hostByte s .dout i = 0 :=
  (hostByte_eq s .dout i).trans (byteAtRest_dout_of_olen_eq_zero h i)

/-! ## The report at rest (60_exceptions.md R244) -/

/-- The report, the result, the stored command and the phase of `t` are those of `s`. -/
abbrev ReportKept (s t : State) : Prop :=
  t.status = s.status ∧ t.olen = s.olen ∧ t.dout = s.dout ∧ t.cmd = s.cmd ∧ t.phase = s.phase

theorem reportKept_refl (s : State) : ReportKept s s := ⟨rfl, rfl, rfl, rfl, rfl⟩

theorem HostStore.reportKept {s t : State} (h : HostStore s t) : ReportKept s t := by
  rw [h.eq]
  exact reportKept_refl s

theorem blockMove_reportKept {s : State} (h : s.job = none) : ReportKept s (blockMove s) := by
  rw [blockMove_none h]
  exact reportKept_refl s

theorem waitDone_reportKept {s : State} (h : s.job = none) : ReportKept s (waitDone s) := by
  unfold waitDone
  split
  · exact reportKept_refl s
  · exact blockMove_reportKept h

/-- With no command in progress a host action that does not write `CMD` keeps the report. -/
theorem hostAction_reportKept {a : HostAction} {s t : State} (hjob : s.job = none) (ha : isCommand a = false)
    (h : hostAction a s = .next t) : ReportKept s t := by
  obtain ⟨b, rfl | rfl, -⟩ | ⟨b, rfl, -⟩ | ⟨-, rfl⟩ | ⟨-, o, rfl⟩ | ⟨-, ⟨-, rfl⟩ | ⟨-, hstore⟩⟩ := hostAction_cases h
  · cases ha
  · cases ha
  · cases ha
  · exact waitDone_reportKept hjob
  · exact reportKept_refl s
  · exact reportKept_refl _
  · exact hstore.reportKept

/-! ## A `DECRYPT` with another tag (60_exceptions.md R240) -/

/-- On an idle block a rejected command overwrites its `n` candidate bytes with zeros and changes the report and the hidden
registers (10_state.md R24, R40, R42). -/
theorem rejectPlaintext_spec {s : State} (hjob : s.job = none) {n : Nat} (b : Byte) {candidate : List Byte}
    (hlen : candidate.length = n) :
    let t := rejectPlaintext n (writeDout (accept b s) 0 candidate)
    (∀ i, i < n → Memory.read? t.dout i = some 0)
      ∧ (∀ i, n ≤ i → Memory.read? t.dout i = Memory.read? s.dout i)
      ∧ (∀ i, hostByte t .dout i = 0)
      ∧ clearLoops t =
        clearLoops
          { s with
            S := ⟨0, 0, 0, 0, 0⟩, cmd := b, status := 0x72, olen := 0, dout := t.dout, phase := .finalized,
            tagc := Vector.replicate 16 0 } := by
  intro t
  have hdout : t.dout = Memory.writeBytes s.dout 0 (zeros n) :=
    Memory.writeBytes_overwrite s.dout 0 candidate (zeros n) (hlen.trans (zeros_length n).symm)
  refine ⟨fun i hi => ?_, fun i hi => ?_, hostByte_dout_of_olen_eq_zero rfl, ?_⟩
  · rw [hdout, Memory.read?_writeBytes, if_pos (by simpa using hi)]
    exact List.getElem?_replicate_of_lt hi
  · rw [hdout, Memory.read?_writeBytes, if_neg (by simpa using hi)]
  · cases s
    cases hjob
    rfl

end Sys2Proof.Machine

namespace Sys2Proof.Proofs.Exceptions

open Sys2Proof.Machine

/-- Settles O8: a command reports the first check that fails (`exec_err`, `exec_decrypt_err`), and the validations are the listed
chains of checks. -/
theorem validationOrder : Obligations.ValidationOrder := by
  unfold Obligations.ValidationOrder
  intro s
  refine ⟨fun arg => ?_, fun arg => ?_, fun arg => ?_, fun n => ?_, fun b hb hop => ?_⟩
  · obtain ⟨t, ht, herr⟩ := exec_err (i := .encrypt arg) nofun s
    rw [failedCheck, reportedCode_validateAead] at herr
    simp only [reduceCtorEq, false_and, if_false] at herr
    exact ⟨t, ht, herr⟩
  · obtain ⟨t, ht, herr⟩ := exec_decrypt_err arg s
    rw [failedCheck, reportedCode_validateAead] at herr
    simp only [true_and] at herr
    refine ⟨t, ht, ?_⟩
    split_ifs at herr ⊢ <;> simpa using herr
  · obtain ⟨t, ht, herr⟩ := exec_err (i := .hash arg) nofun s
    exact ⟨t, ht, herr.trans (reportedCode_validateHash ..)⟩
  · obtain ⟨t, ht, herr⟩ := exec_err (i := .permute n) nofun s
    exact ⟨t, ht, herr.trans (reportedCode_validateRounds n)⟩
  · exact ⟨_, commandWrite_of_reserved hb hop, err_raiseError ..⟩

/-- Settles O9: such an error comes from a failed check or a reserved `OP`, and raising it changes the report and `CMD` alone. -/
theorem validationErrorChangesOnlyTheReport : Obligations.ValidationErrorChangesOnlyTheReport := by
  unfold Obligations.ValidationErrorChangesOnlyTheReport
  rintro b s t ⟨hb, hjob⟩ h h0 h7
  obtain ⟨e, rfl⟩ := commandWrite_of_validationError hb h h0 h7
  refine ⟨?_, hostByte_dout_of_olen_eq_zero rfl⟩
  rw [err_raiseError]
  exact raiseError_accept_of_idle hjob e b

/-- Settles O10: at rest the block does not move, and no host action but a `CMD` write reaches the report. -/
theorem reportStaysUntilNextCommand : Obligations.ReportStaysUntilNextCommand := by
  unfold Obligations.ReportStaysUntilNextCommand
  rintro s t ⟨-, hjob⟩ hstep hquiet
  obtain ⟨-, rfl⟩ | ⟨rest, ⟨-, rfl⟩ | ⟨hagenda, -⟩ | ⟨a, hagenda, ha⟩⟩ := step_cases hstep
  · exact blockMove_reportKept hjob
  · exact blockMove_reportKept (s := { s with agenda := rest }) hjob
  · exact absurd rfl (hquiet .reset (by rw [hagenda]; rfl)).1
  · exact hostAction_reportKept (s := { s with agenda := rest }) hjob
      ((hquiet (.host a) (by rw [hagenda]; rfl)).2 a rfl) ha

/-- Settles O31: the candidate plaintext is as long as the zeros that overwrite it. -/
theorem decryptRejectsForgedInput : Obligations.DecryptRejectsForgedInput := by
  unfold Obligations.DecryptRejectsForgedInput
  intro s arg v hidle hready p K N A C d htag
  have hlen : d.2.length = s.dlen.toNat - 16 := (decryptData_length ..).trans (memRead_length ..)
  exact ⟨_, exec_decrypt_of_forged hready rfl htag,
    rejectPlaintext_spec hidle.2 (encodeByte (.decrypt arg)) hlen⟩

end Sys2Proof.Proofs.Exceptions
end

section
/-! SUPPORT. Every command completes (70_reset_and_hazards.md R284, R286), at both grains; the lock on the host while `BUSY = 1` (R278); the
reset (R270, R271); and `WAIT` (30_encoding.md R97). -/

namespace Sys2Proof.Machine

/-! ## What a command that has completed leaves (10_state.md R28, R29) -/

theorem Moves.cmd_eq {s t : State} {ph : Phase} (h : Moves s ph t) : t.cmd = s.cmd := by cases h <;> rfl

theorem blockMove_cmd (s : State) : (blockMove s).cmd = s.cmd := by
  cases h : s.job with
  | none => rw [blockMove_none h]
  | some j => exact (blockMove_moves h).cmd_eq

theorem Reaches.cmd_eq {s t : State} (h : Reaches s t) : t.cmd = s.cmd := by
  obtain ⟨n, rfl⟩ := h
  induction n generalizing s with
  | zero => rfl
  | succ n ih => exact ih.trans (blockMove_cmd s)

theorem beginInstr_cmd (i : Instr) (s : State) : (beginInstr i s).cmd = encodeByte i := by
  obtain ⟨-, -, e, -, he⟩ | ⟨-, ⟨t, he⟩ | ⟨n, -, he⟩⟩ := beginInstr_cases i s <;> rw [he] <;> rfl

theorem exec_cmd {i : Instr} {s t : State} (h : exec i s = .next t) : t.cmd = encodeByte i :=
  (reaches_of_exec h).cmd_eq.trans (beginInstr_cmd i s)

/-- What a command leaves has the form of `STATUS`, whatever state it was written in: its acceptance sets the whole byte. -/
theorem exec_statusForm {i : Instr} {s t : State} (h : exec i s = .next t) : StatusForm t :=
  statusForm_keptByEvents.reaches (statusForm_beginInstr i s) (reaches_of_exec h)

/-- No command is in progress, and its completion is reported (10_state.md R29). -/
abbrev Completed (s : State) : Prop := s.job = none ∧ s.done = true ∧ s.busy = false

theorem StatusForm.completed {s : State} (h : StatusForm s) (hdone : s.done = true) : Completed s := by
  obtain ⟨-, hnotBoth, -, hjob, -⟩ := h
  have hbusy : s.busy = false := by rwa [hdone, Bool.and_true] at hnotBoth
  exact ⟨by simpa [hbusy] using hjob, hdone, hbusy⟩

/-- `STATUS` put together from its fields (10_state.md R29). -/
theorem status_of_fields : ∀ st : BitVec 8, st.extractLsb' 2 2 = 0#2 → st.getLsbD 1 = true → st.getLsbD 0 = false →
    st = st.extractLsb' 4 4 ++ 0x2#4 := by
  decide

/-! ## A command in progress comes nearer its end with every move (70_reset_and_hazards.md R284) -/

/-- How many stages of its command a task has after its own. -/
def stagesLeft : Task → Nat
  | .aead _ _ .load => 7
  | .aead _ _ .keyXor => 6
  | .aead _ _ .absorb => 5
  | .aead _ _ .domain => 4
  | .aead _ _ .duplex => 3
  | .aead _ _ .inject => 2
  | .aead _ _ .tag => 1
  | .aead _ _ .finish => 0
  | .hash _ .load => 4
  | .hash _ .ready => 3
  | .hash _ .absorb => 2
  | .hash _ .squeeze => 1
  | .hash _ .finish => 0
  | .permute => 0

/-- What the loop of a task has left before its last turn: blocks, or bytes of output for `Squeeze`; 0 for a task without a loop
(10_state.md R41). -/
def loopLeft (s : State) : Task → Nat
  | .aead _ v .absorb => s.adlen.toNat / rateLen (aeadParams v).rate + 1 - s.blockIdx
  | .aead dir v .duplex => duplexLen dir s / rateLen (aeadParams v).rate - s.blockIdx
  | .hash _ .absorb => s.dlen.toNat / 8 - s.blockIdx
  | .hash v .squeeze => digestLen s v - s.outCount
  | _ => 0

/-- How many rounds of the permutation under way are left; a round index past 11 is run as a last round (log 13). -/
def roundsLeft (s : State) (j : Job) : Nat := if j.permuting then 11 - s.roundIdx + 1 else 0

/-- What a command in progress has before it: stages, then turns of the loop it is in, then rounds. -/
def workLeft (s : State) (j : Job) : ℕ ×ₗ ℕ ×ₗ ℕ :=
  toLex (stagesLeft j.task, toLex (loopLeft s j.task, roundsLeft s j))

/-- The command in progress in `t`, if any, has less before it than `j` has in `s`. -/
def Nearer (s : State) (j : Job) (t : State) : Prop := ∀ k, t.job = some k → workLeft t k < workLeft s j

section
variable {s t : State} {j k : Job}

theorem nearer_of_end (ht : t.job = none) : Nearer s j t := fun k hk => by rw [ht] at hk; cases hk

theorem nearer_of_stage (ht : t.job = some k) (h : stagesLeft k.task < stagesLeft j.task) : Nearer s j t := by
  intro k' hk'
  cases ht.symm.trans hk'
  exact Prod.Lex.left _ _ h

theorem nearer_of_turn (ht : t.job = some k) (htask : k.task = j.task) (h : loopLeft t j.task < loopLeft s j.task) :
    Nearer s j t := by
  intro k' hk'
  cases ht.symm.trans hk'
  rw [workLeft, workLeft, htask]
  exact Prod.Lex.right _ (Prod.Lex.left _ _ h)

theorem nearer_of_round (ht : t.job = some k) (htask : k.task = j.task) (hloop : loopLeft t j.task = loopLeft s j.task)
    (h : roundsLeft t k < roundsLeft s j) : Nearer s j t := by
  intro k' hk'
  cases ht.symm.trans hk'
  rw [workLeft, workLeft, htask, hloop]
  exact Prod.Lex.right _ (Prod.Lex.right _ h)

end

theorem encryptMove_nearer (v : AeadVariant) (s : State) :
    Nearer s ⟨.aead .encrypt v .duplex, false⟩ (encryptMove v s) := by
  simp only [encryptMove]
  split
  · next hi => exact nearer_of_turn rfl rfl (Nat.sub_succ_lt_self _ _ hi)
  · exact nearer_of_stage rfl (Nat.lt_succ_self 2)

theorem decryptMove_nearer (v : AeadVariant) (s : State) :
    Nearer s ⟨.aead .decrypt v .duplex, false⟩ (decryptMove v s) := by
  simp only [decryptMove]
  split
  · next hi => exact nearer_of_turn rfl rfl (Nat.sub_succ_lt_self _ _ hi)
  · exact nearer_of_stage rfl (Nat.lt_succ_self 2)

theorem aeadMove_nearer (dir : Direction) (v : AeadVariant) (stage : AeadStage) (s : State) :
    Nearer s ⟨.aead dir v stage, false⟩ (aeadMove dir v stage s) := by
  cases stage with
  | load | keyXor | domain | inject | tag => exact nearer_of_stage rfl (Nat.lt_succ_self _)
  | absorb =>
    simp only [aeadMove]
    split
    · next hi => exact nearer_of_turn rfl rfl (Nat.sub_succ_lt_self _ _ (Nat.lt_succ_of_le hi.2))
    · exact nearer_of_stage rfl (Nat.lt_succ_self 4)
  | duplex =>
    cases dir with
    | encrypt => exact encryptMove_nearer v s
    | decrypt => exact decryptMove_nearer v s
  | finish =>
    cases dir with
    | encrypt => exact nearer_of_end rfl
    | decrypt => simp only [aeadMove]; split <;> exact nearer_of_end rfl

theorem hashMove_nearer (v : HashVariant) (stage : HashStage) (s : State) :
    Nearer s ⟨.hash v stage, false⟩ (hashMove v stage s) := by
  cases stage with
  | load | ready => exact nearer_of_stage rfl (Nat.lt_succ_self _)
  | absorb =>
    simp only [hashMove]
    split
    · next hi => exact nearer_of_turn rfl rfl (Nat.sub_succ_lt_self _ _ hi)
    · exact nearer_of_stage rfl (Nat.lt_succ_self 1)
  | squeeze =>
    simp only [hashMove]
    split
    · next hc =>
      have hpiece : 0 < ((bytes8 s.S.s0).take (digestLen s v - s.outCount)).length := by
        rw [List.length_take, bytes8_length]; omega
      exact nearer_of_turn rfl rfl (Nat.sub_lt_sub_left hc (Nat.lt_add_of_pos_right hpiece))
    · exact nearer_of_stage rfl (Nat.lt_succ_self 0)
  | finish => exact nearer_of_end rfl

/-- A round leaves alone what the loops count. -/
theorem roundMove_nearer {s : State} {task : Task} (h : s.job = some ⟨task, true⟩) :
    Nearer s ⟨task, true⟩ (roundMove task s) := by
  unfold roundMove
  split
  · refine nearer_of_round h rfl (by cases task <;> rfl) ?_
    show 11 - (s.roundIdx + 1) + 1 < 11 - s.roundIdx + 1
    omega
  · exact nearer_of_round rfl rfl (by cases task <;> rfl) (Nat.succ_pos _)

theorem blockMove_nearer {s : State} {j : Job} (h : s.job = some j) : Nearer s j (blockMove s) := by
  obtain ⟨task, _ | _⟩ := j
  · cases task with
    | aead dir v stage => simpa only [blockMove, h] using! aeadMove_nearer dir v stage s
    | hash v stage => simpa only [blockMove, h] using! hashMove_nearer v stage s
    | permute => simpa only [blockMove, h] using! nearer_of_end rfl
  · cases task <;> simpa only [blockMove, h] using! roundMove_nearer h

/-- Only a move that completes the command leaves none in progress. -/
theorem Moves.completed {s t : State} {ph : Phase} (h : Moves s ph t) (ht : t.job = none) : Completed t := by
  cases h with
  | goesOn => cases ht
  | finishes | permuted => exact ⟨rfl, done_complete .., busy_complete ..⟩
  | rejects => exact ⟨rfl, done_raiseError .., busy_raiseError ..⟩

theorem reaches_completed {s : State} {j : Job} (h : s.job = some j) : ∃ t, Reaches s t ∧ Completed t := by
  have hmove : Reaches s (blockMove s) := reaches_blockMove rfl
  cases hk : (blockMove s).job with
  | none => exact ⟨blockMove s, hmove, (blockMove_moves h).completed hk⟩
  | some k =>
    obtain ⟨t, ht, hcompleted⟩ := reaches_completed hk
    exact ⟨t, hmove.trans ht, hcompleted⟩
termination_by workLeft s j
decreasing_by exact blockMove_nearer h k hk

/-! ## The lock while `BUSY = 1` (70_reset_and_hazards.md R278) -/

section
variable {s : State} (hb : s.busy = true)
include hb

theorem commandWrite_of_busy (b : Byte) : commandWrite b s = .next s := if_pos hb

theorem hostAction_of_busy {a : HostAction} (hwait : a ≠ .wait) :
    hostAction a s = .next { s with observed := seenWhileBusy s a ++ s.observed } := by
  cases a with
  | wr8 r v => cases r with
    | cmd => exact commandWrite_of_busy hb v
    | status | klen | nlen => exact congrArg Host.Outcome.next (if_pos hb)
  | command b => exact commandWrite_of_busy hb b
  | wrByte => exact if_pos hb
  | wr32 | wrWord | wrBytes | begin => exact congrArg Host.Outcome.next (if_pos hb)
  | rd8 r => simp only [hostAction, readReg8, hb]; cases r <;> rfl
  | rd32 | rdWord => simp only [hostAction, readReg32, readWord, hb]; rfl
  | rdByte | rdBytes => exact if_pos hb
  | rdResult => exact congrArg Host.Outcome.next (if_pos (.inl hb))
  | wait => exact absurd rfl hwait

end

/-! ## `WAIT` (30_encoding.md R97) -/

/-- Until `DONE = 1` a `WAIT` stays the next event, and the block moves (log 2). -/
theorem waitDone_of_not_done {s : State} {rest : List Event} (hagenda : s.agenda = .host .wait :: rest)
    (hdone : ¬s.done = true) : waitDone { s with agenda := rest } = blockMove s := by
  have hsame : { s with agenda := .host .wait :: rest } = s := by rw [← hagenda]
  have hmove : waitDone { s with agenda := rest } = blockMove { s with agenda := .host .wait :: rest } := if_neg hdone
  rw [hmove, hsame]

end Sys2Proof.Machine

namespace Sys2Proof.Proofs.ResetAndHazards

open Sys2Proof.Machine

/-- Settles O7: a command ends with `DONE = 1` (`exec_done`) in the form of `STATUS` (`exec_statusForm`), which leaves only
`ERR` open. -/
theorem everyCommandCompletes : Obligations.EveryCommandCompletes := by
  unfold Obligations.EveryCommandCompletes
  intro i s
  obtain ⟨t, ht, -⟩ := exec_eq_reached i s
  have hform := exec_statusForm ht
  obtain ⟨hjob, hdone, hbusy⟩ := hform.completed (exec_done ht)
  obtain ⟨hreserved, -⟩ := hform
  exact ⟨t, ht, exec_cmd ht, status_of_fields t.status hreserved hdone hbusy, hjob⟩

/-- Settles O59: every move ends the command or leaves it less to do (`blockMove_nearer`), and the only end is completion. -/
theorem commandInProgressCompletes : Obligations.CommandInProgressCompletes := by
  unfold Obligations.CommandInProgressCompletes
  intro s hjob
  obtain ⟨j, hj⟩ := Option.isSome_iff_exists.mp hjob
  obtain ⟨t, ⟨n, rfl⟩, hcompleted⟩ := reaches_completed hj
  exact ⟨n, hcompleted⟩

/-- Settles O44: what each host action does on a busy block (`hostAction_of_busy`). -/
theorem busyLocksTheHostOut : Obligations.BusyLocksTheHostOut := by
  unfold Obligations.BusyLocksTheHostOut
  intro s a rest hb hagenda hwait _
  refine (step_cons hagenda).trans ((hostAction_of_busy (s := { s with agenda := rest }) hb hwait).trans ?_)
  cases a <;> rfl

/-- Settles O50: the step of a reset event is `resetBlock` on the rest of the script. -/
theorem resetAbandonsEverything : Obligations.ResetAbandonsEverything := by
  unfold Obligations.ResetAbandonsEverything
  exact fun s rest hagenda => step_cons hagenda

/-- Settles O51: with no event to come the step is the block's move (`step_nil`); a `WAIT` puts itself back until
`DONE = 1`. -/
theorem atRestNothingChanges : Obligations.AtRestNothingChanges := by
  unfold Obligations.AtRestNothingChanges
  intro s
  refine ⟨fun hnil => ⟨step_nil hnil, fun hjob => ?_⟩, fun rest hagenda => ?_⟩
  · rw [step_nil hnil, blockMove_none hjob]
  · refine (step_cons hagenda).trans ?_
    split
    · next hdone => exact congrArg Host.Outcome.next (if_pos hdone)
    · next hdone => exact congrArg Host.Outcome.next (waitDone_of_not_done hagenda hdone)

end Sys2Proof.Proofs.ResetAndHazards
end
